-- ==== Sys2Proof/Word.lean ====
section
/-!
DEFINITION. The words of the two ports, the 16-bit samples, and the type `F` of the numeric configuration NUM
(spec/00_scope.md R9, R10): the finite numbers of IEEE 754 binary32.
-/

namespace Sys2Proof

/-- A word of the command port or of the response port (R7, WORD = 32). -/
abbrev Word := BitVec 32

/-- A sample, an `i16` in two's complement (R9); its number is `BitVec.toInt`. -/
abbrev Sample := BitVec 16

/-- The type `F` of R10 with NUM = IEEE 754 binary32: the FINITE binary32 numbers.

`neg` is bit 31 of the pattern and `mag` is bits 30 to 0 read as a number. The patterns from `0x7F800000` up
(infinities and NaNs) are no value of `F`: they cannot arise (R137, R152; 93_implementation_defined.md U18).
DEDUCED, log 1; safe. -/
structure F where
  neg : Bool
  mag : Fin 2139095040
deriving DecidableEq, Repr, Inhabited

/-- `+0`, which is `i2f(0)` (R10). -/
def F.zero : F := ⟨false, 0⟩

/-- The magnitude of a number as a multiple of 2^-149, the least subnormal. Below 2^24 the pattern is that multiple
itself (the subnormals and the first binade); above, the 24-bit significand stands shifted by the exponent less one. -/
def F.units (a : F) : Nat :=
  if a.mag.val < 2 ^ 24 then a.mag.val
  else (2 ^ 23 + a.mag.val % 2 ^ 23) * 2 ^ (a.mag.val / 2 ^ 23 - 1)

/-- The number itself as a multiple of 2^-149. -/
def F.scaled (a : F) : Int := if a.neg then -(a.units : Int) else (a.units : Int)

/-- The 32-bit pattern of a number, as spec/95_test_vectors.md writes it. -/
def F.bits (a : F) : BitVec 32 := (BitVec.ofBool a.neg ++ BitVec.ofNat 31 a.mag.val).cast rfl

end Sys2Proof
end

