-- ==== Sys2Proof/Machine/Operands.lean ====
section
/-!
DEFINITION. The fields of a command word and of a payload word, and how an operand is made of one
(spec/30_encoding.md R80 to R85, R87, R88).
-/

namespace Sys2Proof.Machine

/-- Bits [31:24], the opcode (R80). -/
def opcodeOf (w : Word) : BitVec 8 := w.extractLsb' 24 8

/-- Bits [23:16]: field `a` of format X, the CSR number or the sample index (R82, R87). -/
def fieldA (w : Word) : BitVec 8 := w.extractLsb' 16 8

/-- Bits [15:0]: field `d` of format X, field `len` of format L (R82, R83). -/
def fieldD (w : Word) : BitVec 16 := w.extractLsb' 0 16

/-- Bits [23:0], reserved and zero in format N (R81). -/
def reservedN (w : Word) : BitVec 24 := w.extractLsb' 0 24

/-- Bits [23:2], reserved and zero in format P (R84). -/
def reservedP (w : Word) : BitVec 22 := w.extractLsb' 2 22

/-- Bit [0], flag `bp` of FP.PROC (R84, R87). -/
def flagBp (w : Word) : Bool := w.getLsbD 0

/-- Bit [1], flag `de` of FP.PROC (R84, R87). -/
def flagDe (w : Word) : Bool := w.getLsbD 1

/-- The length of RS.PUSH, `zext(w[15:0])` (R87). -/
def pushLen (w : Word) : Nat := (fieldD w).toNat

/-- The sample a payload word of RS.PUSH carries, bits [15:0]; bits [31:16] are ignored, whatever they hold (R88). -/
def payloadSample (p : Word) : Sample := p.extractLsb' 0 16

/-- The epoch the payload word of CK.FIX carries: the whole word (R85). -/
def payloadEpoch (p : Word) : BitVec 32 := p

/-- A command word with field `a` and field `d`: the opcode in bits [31:24] (R81 to R83). -/
def mkWord (opcode a : BitVec 8) (d : BitVec 16) : Word := (opcode ++ a ++ d).cast rfl

/-- A word of format P: flags `de` and `bp` in bits [1] and [0] (R84). -/
def mkWordP (opcode : BitVec 8) (bp de : Bool) : Word :=
  (opcode ++ 0#22 ++ BitVec.ofBool de ++ BitVec.ofBool bp).cast rfl

/-- A payload word of RS.PUSH that carries a sample, its ignored bits zero (R88; DESIGN CHOICE, log 16; safe). -/
def mkPayload (s : Sample) : Word := (0#16 ++ s).cast rfl

end Sys2Proof.Machine
end

