-- ==== Sys2Proof/Syntax.lean ====
section
/-!
DEFINITION. The fourteen commands of spec/30_encoding.md R86, one constructor for each row of the opcode table.
-/

namespace Sys2Proof

/-- A command with its operands (R87, R88, R85). -/
inductive Instr where
  /-- NOP (R170). -/
  | nop
  /-- RDCSR csr (R171). -/
  | rdcsr (csr : BitVec 8)
  /-- WRCSR csr, d (R172). -/
  | wrcsr (csr : BitVec 8) (d : BitVec 16)
  /-- RS.PUSH s0 s1 ... (R131): the samples in the order sent, the oldest first. -/
  | rsPush (samples : List Sample)
  /-- RS.POP (R135). -/
  | rsPop
  /-- RS.RESET (R136). -/
  | rsReset
  /-- FB.RD idx (R174). -/
  | fbRd (idx : BitVec 8)
  /-- FB.WR idx, d (R175). -/
  | fbWr (idx : BitVec 8) (d : Sample)
  /-- FP.PROC bp, de (R150). -/
  | fpProc (bp de : Bool)
  /-- FP.RESET (R157). -/
  | fpReset
  /-- CK.NOW (R112). -/
  | ckNow
  /-- CK.LOCKED (R113). -/
  | ckLocked
  /-- CK.JITTER (R114). -/
  | ckJitter
  /-- CK.FIX epoch (R115). -/
  | ckFix (epoch : BitVec 32)
deriving DecidableEq, Repr

end Sys2Proof
end

