-- ==== Sys2Proof/WellFormed.lean ====
section
/-!
DEFINITION. Which terms of `Instr` are commands that the encoding of spec/30_encoding.md can carry.
-/

namespace Sys2Proof

/-- The length field of RS.PUSH has 16 bits, so a push carries 0 to 65535 samples (R83, R87; D35). Every value of every
other operand has an encoding: a CSR number above 0x08 or an index above 159 is a legal command that fails (R96). -/
def Instr.wellFormed : Instr → Bool
  | .nop => true
  | .rdcsr _ => true
  | .wrcsr _ _ => true
  | .rsPush samples => decide (samples.length ≤ 65535)
  | .rsPop => true
  | .rsReset => true
  | .fbRd _ => true
  | .fbWr _ _ => true
  | .fpProc _ _ => true
  | .fpReset => true
  | .ckNow => true
  | .ckLocked => true
  | .ckJitter => true
  | .ckFix _ => true

/-- The command is well-formed. -/
abbrev Instr.WellFormed (i : Instr) : Prop := i.wellFormed = true

end Sys2Proof
end

