-- ==== Sys2Proof/Decode.lean ====
section
/-!
DEFINITION. The decoder and the encoder of the command port (spec/30_encoding.md sections 1 to 4 and 6), and the opcode
table of R86.
-/

namespace Sys2Proof

/-- A row of the opcode table (R86), named for its mnemonic. -/
inductive Op where
  | nop | rdcsr | wrcsr | rsPush | rsPop | rsReset | fbRd | fbWr | fpProc | fpReset | ckNow | ckLocked | ckJitter | ckFix
deriving DecidableEq, Repr

/-- The four formats of R81 to R84. Format X stands twice: with field `d` in use, and with `d` reserved and zero. -/
inductive Format where
  | n | x | xd | l | p
deriving DecidableEq, Repr

/-- The rows of the opcode table, in the table's order (R86). -/
def Op.all : List Op :=
  [.nop, .rdcsr, .wrcsr, .rsPush, .rsPop, .rsReset, .fbRd, .fbWr, .fpProc, .fpReset, .ckNow, .ckLocked, .ckJitter, .ckFix]

/-- The opcode column of R86. -/
def Op.opcode : Op → BitVec 8
  | .nop => 0x00#8
  | .rdcsr => 0x01#8
  | .wrcsr => 0x02#8
  | .rsPush => 0x10#8
  | .rsPop => 0x11#8
  | .rsReset => 0x12#8
  | .fbRd => 0x20#8
  | .fbWr => 0x21#8
  | .fpProc => 0x30#8
  | .fpReset => 0x31#8
  | .ckNow => 0x40#8
  | .ckLocked => 0x41#8
  | .ckJitter => 0x42#8
  | .ckFix => 0x43#8

/-- The format column of R86; RDCSR and FB.RD have `d` reserved (R82). -/
def Op.format : Op → Format
  | .nop => .n
  | .rdcsr => .x
  | .wrcsr => .xd
  | .rsPush => .l
  | .rsPop => .n
  | .rsReset => .n
  | .fbRd => .x
  | .fbWr => .xd
  | .fpProc => .p
  | .fpReset => .n
  | .ckNow => .n
  | .ckLocked => .n
  | .ckJitter => .n
  | .ckFix => .n

/-- Every field the format calls reserved is zero (R81 to R84, R95). -/
def Format.reservedZero (f : Format) (w : Word) : Bool :=
  match f with
  | .n => Machine.reservedN w == 0#24
  | .x => Machine.fieldD w == 0#16
  | .xd => true
  | .l => Machine.fieldA w == 0#8
  | .p => Machine.reservedP w == 0#22

/-- The match column of R86. -/
def Op.matchWord : Op → Word
  | .nop => 0x00000000#32
  | .rdcsr => 0x01000000#32
  | .wrcsr => 0x02000000#32
  | .rsPush => 0x10000000#32
  | .rsPop => 0x11000000#32
  | .rsReset => 0x12000000#32
  | .fbRd => 0x20000000#32
  | .fbWr => 0x21000000#32
  | .fpProc => 0x30000000#32
  | .fpReset => 0x31000000#32
  | .ckNow => 0x40000000#32
  | .ckLocked => 0x41000000#32
  | .ckJitter => 0x42000000#32
  | .ckFix => 0x43000000#32

/-- The mask column of R86. -/
def Op.maskWord : Op → Word
  | .nop => 0xFFFFFFFF#32
  | .rdcsr => 0xFF00FFFF#32
  | .wrcsr => 0xFF000000#32
  | .rsPush => 0xFFFF0000#32
  | .rsPop => 0xFFFFFFFF#32
  | .rsReset => 0xFFFFFFFF#32
  | .fbRd => 0xFF00FFFF#32
  | .fbWr => 0xFF000000#32
  | .fpProc => 0xFFFFFFFC#32
  | .fpReset => 0xFFFFFFFF#32
  | .ckNow => 0xFFFFFFFF#32
  | .ckLocked => 0xFFFFFFFF#32
  | .ckJitter => 0xFFFFFFFF#32
  | .ckFix => 0xFFFFFFFF#32

/-- The word is this command's word: its opcode, with every reserved field zero (R86, R95). That this is the table's
`w AND mask = match` is stated as an obligation. -/
def Op.accepts (o : Op) (w : Word) : Bool := Machine.opcodeOf w == o.opcode && o.format.reservedZero w

/-- The row a command word selects; none for an illegal word (R86, R95). -/
def decodeOp (w : Word) : Option Op := Op.all.find? fun o => o.accepts w

/-- How many payload words follow the command word (R89). -/
def Op.payloadWords (o : Op) (w : Word) : Nat :=
  match o with
  | .rsPush => Machine.pushLen w
  | .ckFix => 1
  | .nop => 0
  | .rdcsr => 0
  | .wrcsr => 0
  | .rsPop => 0
  | .rsReset => 0
  | .fbRd => 0
  | .fbWr => 0
  | .fpProc => 0
  | .fpReset => 0
  | .ckNow => 0
  | .ckLocked => 0
  | .ckJitter => 0

/-- How many words a command has, from its command word alone; an illegal word is one word long (R89). -/
def commandLength (w : Word) : Nat :=
  match decodeOp w with
  | some o => 1 + o.payloadWords w
  | none => 1

/-- The command of a row, its command word and its payload words (R85, R87, R88). -/
def Op.assemble (o : Op) (w : Word) (payload : List Word) : Instr :=
  match o with
  | .nop => .nop
  | .rdcsr => .rdcsr (Machine.fieldA w)
  | .wrcsr => .wrcsr (Machine.fieldA w) (Machine.fieldD w)
  | .rsPush => .rsPush (payload.map Machine.payloadSample)
  | .rsPop => .rsPop
  | .rsReset => .rsReset
  | .fbRd => .fbRd (Machine.fieldA w)
  | .fbWr => .fbWr (Machine.fieldA w) (Machine.fieldD w)
  | .fpProc => .fpProc (Machine.flagBp w) (Machine.flagDe w)
  | .fpReset => .fpReset
  | .ckNow => .ckNow
  | .ckLocked => .ckLocked
  | .ckJitter => .ckJitter
  | .ckFix => .ckFix (Machine.payloadEpoch (payload.headD 0#32))

/-- Why a list of words gives no command. -/
inductive DecodeError where
  /-- No word, or a command whose payload has not all arrived (R90). -/
  | incomplete
  /-- The first word is illegal (R95). -/
  | illegal (w : Word)
deriving DecidableEq, Repr

/-- The list has at least this many words. -/
def hasAtLeast : Nat → List Word → Bool
  | 0, _ => true
  | _ + 1, [] => false
  | n + 1, _ :: ws => hasAtLeast n ws

/-- The decoder: the first command of a list of words and the words after it (R86, R89, R90, R95). A payload word is
never decoded as a command (R89). -/
def decode : List Word → Except DecodeError (Instr × List Word)
  | [] => .error .incomplete
  | w :: ws =>
    match decodeOp w with
    | none => .error (.illegal w)
    | some o =>
      if hasAtLeast (o.payloadWords w) ws then
        .ok (o.assemble w (ws.take (o.payloadWords w)), ws.drop (o.payloadWords w))
      else .error .incomplete

/-- The row of a command. -/
def Instr.op : Instr → Op
  | .nop => .nop
  | .rdcsr _ => .rdcsr
  | .wrcsr _ _ => .wrcsr
  | .rsPush _ => .rsPush
  | .rsPop => .rsPop
  | .rsReset => .rsReset
  | .fbRd _ => .fbRd
  | .fbWr _ _ => .fbWr
  | .fpProc _ _ => .fpProc
  | .fpReset => .fpReset
  | .ckNow => .ckNow
  | .ckLocked => .ckLocked
  | .ckJitter => .ckJitter
  | .ckFix _ => .ckFix

/-- The encoder: the words of a command (R80 to R88). -/
def encode : Instr → List Word
  | .nop => [Machine.mkWord 0x00#8 0#8 0#16]
  | .rdcsr csr => [Machine.mkWord 0x01#8 csr 0#16]
  | .wrcsr csr d => [Machine.mkWord 0x02#8 csr d]
  | .rsPush samples => Machine.mkWord 0x10#8 0#8 (BitVec.ofNat 16 samples.length) :: samples.map Machine.mkPayload
  | .rsPop => [Machine.mkWord 0x11#8 0#8 0#16]
  | .rsReset => [Machine.mkWord 0x12#8 0#8 0#16]
  | .fbRd idx => [Machine.mkWord 0x20#8 idx 0#16]
  | .fbWr idx d => [Machine.mkWord 0x21#8 idx d]
  | .fpProc bp de => [Machine.mkWordP 0x30#8 bp de]
  | .fpReset => [Machine.mkWord 0x31#8 0#8 0#16]
  | .ckNow => [Machine.mkWord 0x40#8 0#8 0#16]
  | .ckLocked => [Machine.mkWord 0x41#8 0#8 0#16]
  | .ckJitter => [Machine.mkWord 0x42#8 0#8 0#16]
  | .ckFix epoch => [Machine.mkWord 0x43#8 0#8 0#16, epoch]

/-- Word `k` of an instruction whose bits are `w`, bit 0 the least significant bit of the first word, every bit from
`nbits` up zero. -/
def tableWordAt (nbits w k : Nat) : Word := BitVec.ofNat 32 ((w % 2 ^ nbits) >>> (32 * k))

/-- `n` words of such an instruction from word `k` on. -/
def tableWordsFrom (nbits w : Nat) : Nat → Nat → List Word
  | _, 0 => []
  | k, n + 1 => tableWordAt nbits w k :: tableWordsFrom nbits w (k + 1) n

/-- All the words of such an instruction: as many as its command word says (R89). -/
def tableWords (nbits w : Nat) : List Word :=
  tableWordsFrom nbits w 0 (commandLength (tableWordAt nbits w 0))

/-- The command the decoder reads from an instruction whose bits are `w`; none where the decoder refuses. -/
def decodeTableWord (nbits w : Nat) : Option Instr :=
  match decode (tableWords nbits w) with
  | .ok (i, _) => some i
  | .error _ => none

end Sys2Proof
end

