-- ==== Sys2Proof/Config.lean ====
section
/-!
DEFINITION. The configuration of spec/00_scope.md R7 and R8 (fixed when the block is built; spec/10_state.md R39) and
the free values of the model.
-/

namespace Sys2Proof

/-- The constants of R7 that the source gives a value or the spec decides, as fields with those values as defaults
(R7, R242; 93_implementation_defined.md U7). `DE_ALPHA` stands in `Config`. -/
structure Consts where
  /-- FRAME_LEN: samples in a frame. -/
  frameLen : Nat := 160
  /-- F_OUT in hertz; no rule computes with it. -/
  fOut : Nat := 8000
  /-- SEC_US: microseconds in a second. -/
  secUs : Nat := 1000000
  /-- DEBOUNCE_US: pulses closer than this to the last accepted one are ignored. -/
  debounceUs : Nat := 900000
  /-- LOCK_US: a pulse must have been accepted within this for lock. -/
  lockUs : Nat := 1100000
  /-- FIX_TOL_S: a fix differing by more than this overwrites the counter. -/
  fixTolS : Nat := 2
  /-- RSSI_MIN: lower clamp of the RSSI byte. -/
  rssiMin : Nat := 10
  /-- RSSI_MAX: upper clamp of the RSSI byte. -/
  rssiMax : Nat := 255
  /-- CAL_MIN: register value of the least calibration factor, 1.0. -/
  calMin : BitVec 16 := 0x0100#16
  /-- ID_VALUE: value of the ID register. -/
  idValue : Word := 0x54560007#32
deriving DecidableEq, Repr

/-- The constants at the values of R7. -/
def Consts.r7 : Consts := {}

/-- What the model asks of a set of constants (log 11): the frame length is at most 256 (U7) and not zero, a second is
not zero, and the clamps of the RSSI byte are an interval of bytes. -/
def Consts.fits (k : Consts) : Bool :=
  decide (1 ≤ k.frameLen) && decide (k.frameLen ≤ 256) && decide (1 ≤ k.secUs)
    && decide (k.rssiMin ≤ k.rssiMax) && decide (k.rssiMax ≤ 255)

/-- RSSI_SCALE's default, 1.0 (R7, R152; 93_implementation_defined.md U5). -/
def rssiScaleDefault : F := ⟨false, 0x3F800000⟩

/-- The OPEN parameters of R7: the source gives no value and none is chosen; RSSI_SCALE alone has a default. `NHP` and
`NBP` are the lengths of the two tap tables. -/
structure OpenParams where
  /-- STEP: input samples per output sample. -/
  step : F
  /-- RS_ALPHA: coefficient of the anti-alias low-pass. -/
  rsAlpha : F
  /-- HP_TAPS[0..NHP-1]: coefficients of the RSSI FIR filter. -/
  hpTaps : List F
  /-- BP_TAPS[0..NBP-1]: coefficients of the voice band-pass FIR filter. -/
  bpTaps : List F
  /-- RSSI_SCALE: factor that turns rms into rms_scaled; default 1.0 (U5). -/
  rssiScale : F := rssiScaleDefault
  /-- ACC_CAP: capacity of the accumulation buffer in samples. -/
  accCap : Nat
deriving DecidableEq, Repr, Inhabited

/-- The value is at least zero and its magnitude is at most `hi` multiples of 2^-149. -/
def F.inZeroTo (a : F) (hi : Nat) : Bool := (!a.neg || a.mag.val == 0) && decide (a.units ≤ hi)

/-- The sum of the magnitudes of a tap table as a multiple of 2^-149, exact. -/
def tapMagnitude (taps : List F) : Nat := (taps.map F.units).sum

/-- The constraint of R7 on a tap table: 1 to 255 taps (each finite by its type), sum of magnitudes at most 2^16. -/
def tapsFit (taps : List F) : Bool :=
  decide (1 ≤ taps.length) && decide (taps.length ≤ 255) && decide (tapMagnitude taps ≤ 2 ^ 165)

/-- The constraints of R7's table of OPEN parameters. As multiples of 2^-149, the number 1 is 2^149, 2^-6 is 2^143 and
2^16 is 2^165. ACC_CAP's constraint is written with 160 in R7; that it follows a FRAME_LEN other than 160 is a DESIGN
CHOICE, log 20. -/
def OpenParams.fits (frameLen : Nat) (p : OpenParams) : Bool :=
  (!p.step.neg && decide (2 ^ 143 ≤ p.step.units) && decide (p.step.units ≤ 2 ^ 165))
    && (!p.rsAlpha.neg && decide (0 < p.rsAlpha.units) && decide (p.rsAlpha.units ≤ 2 ^ 149))
    && tapsFit p.hpTaps && tapsFit p.bpTaps
    && p.rssiScale.inZeroTo (2 ^ 165)
    && (decide (p.accCap % frameLen = 0) && decide (frameLen ≤ p.accCap) && decide (p.accCap ≤ frameLen * 65535))

/-- DE_ALPHA's constant, the binary32 number nearest 0.20, bits 0x3E4CCCCD (R7, R154). -/
def deAlphaR7 : F := ⟨false, 0x3E4CCCCD⟩

/-- A configuration. One that breaks a constraint is not a TVSP and cannot be built (R8): the proof is a field. -/
structure Config where
  consts : Consts := Consts.r7
  /-- DE_ALPHA: the de-emphasis coefficient, by default the binary32 number nearest 0.20 (R7). -/
  deAlpha : F := deAlphaR7
  par : OpenParams
  constsFit : consts.fits = true
  parFit : par.fits consts.frameLen = true
deriving DecidableEq, Repr

/-- The free value behind the OPEN parameters of the block as built: nothing constrains it (R7; log 3). -/
opaque Config.openBuilt : OpenParams

/-- Whether the builder names an RSSI_SCALE: a free value (log 3). -/
opaque Config.rssiScaleNamed : Bool

/-- The OPEN parameters the builder gives: RSSI_SCALE has its default 1.0 where none is named (R7, R152, U5), and any
value where one is. -/
def Config.openGiven : OpenParams :=
  if Config.rssiScaleNamed then Config.openBuilt else { Config.openBuilt with rssiScale := rssiScaleDefault }

/-- OPEN parameters that meet R7's constraints; only `Config.builtPar` names them, for a free value that breaks one.
They are those of the test configuration of spec/95_test_vectors.md section 1. -/
def OpenParams.testT : OpenParams where
  step := ⟨false, 0x3F800000⟩
  rsAlpha := ⟨false, 0x3F800000⟩
  hpTaps := [⟨false, 0x3F000000⟩, ⟨true, 0x3F000000⟩]
  bpTaps := [⟨false, 0x3E800000⟩, ⟨false, 0x3F000000⟩, ⟨false, 0x3E800000⟩]
  rssiScale := ⟨false, 0x3F800000⟩
  accCap := 320

/-- The test parameters meet the constraints of R7. -/
theorem OpenParams.testT_fits : OpenParams.testT.fits 160 = true := by decide

/-- The OPEN parameters as built: the free value where it meets R7's constraints. A free value that breaks one stands
for no block (R8), and some parameters that meet them take its place; every choice that meets the constraints is thus
the value of some free value, and nothing more is known of it. DESIGN CHOICE, log 3. -/
def Config.builtPar : Subtype fun p : OpenParams => p.fits 160 = true :=
  if h : Config.openGiven.fits 160 = true then ⟨Config.openGiven, h⟩ else ⟨OpenParams.testT, OpenParams.testT_fits⟩

/-- The configuration of the block as built: the constants of R7, and OPEN parameters of which only R7's constraints
are known. DESIGN CHOICE, log 3; safe. -/
def Config.built : Config where
  par := Config.builtPar.val
  constsFit := by decide
  parFit := Config.builtPar.property

/-- The operations of R10 whose exact result may lie outside the finite numbers. -/
inductive NumOp where
  | add | mul | div | sqrt | ofInt
deriving DecidableEq, Repr

/-- The free value of an operation on `F` whose exact result no finite binary32 number rounds, or that has no result
(a sum or product beyond the greatest number, a division by zero, the root of a negative number). R137 and R152 say that
none arises, and U18 that the model gives it no meaning: nothing is known of it but that it is a function of the
operands. DESIGN CHOICE, log 2; safe. -/
opaque Config.unstated : NumOp → F → F → F

end Sys2Proof
end

