-- ==== Sys2Proof/Machine/State.lean ====
section
/-!
DEFINITION. The state of TVSP (spec/10_state.md R20 to R37, R50), the streams at its boundary (spec/70_reset_and_hazards.md
R241), and the reasons a step of the model can stop.
-/

namespace Sys2Proof.Machine

/-- What arrives at the block from outside: one step of one of the four agents each (spec/00_scope.md R13,
spec/30_encoding.md R100). -/
inductive Input where
  /-- The host puts a word on the command port. -/
  | word (w : Word)
  /-- A pulse at the pulse input (R110, R194); the trace line PULSE. -/
  | pulse
  /-- MONO advances by this many microseconds (R21); the trace line TICK. -/
  | tick (us : Nat)
  /-- A hardware reset (R220); the trace line HWRESET. -/
  | hwReset
deriving DecidableEq, Repr

/-- The state of unit CLK (R21 to R26). -/
structure Clk where
  /-- MONO, microseconds since the last hardware reset (R21). -/
  mono : BitVec 64
  /-- SECS, the second counter (R22). -/
  secs : BitVec 32
  /-- LASTP, the instant of the last accepted pulse (R23). -/
  lastp : BitVec 64
  /-- IVAL, the most recent inter-pulse interval (R24). -/
  ival : BitVec 64
  /-- HAVEFIX (R25). -/
  haveFix : Bool
  /-- PULSESEEN (R25). -/
  pulseSeen : Bool
  /-- IVALID (R25). -/
  ivalValid : Bool
deriving DecidableEq, Repr

/-- The state of unit RSMP (R27 to R29). ACC_CNT is the length of `acc` (R28). -/
structure Rsmp where
  /-- LP, the accumulator of the anti-alias low-pass (R27). -/
  lp : F
  /-- PREV, the last filtered sample (R27). -/
  prev : F
  /-- POS, the position of the next output sample (R27). -/
  pos : F
  /-- ACC, the accumulation buffer, the oldest sample first (R28). -/
  acc : List Sample
  /-- OVF_CNT (R29). -/
  ovfCnt : BitVec 32
deriving DecidableEq, Repr

/-- The state of unit FILT (R32 to R35). -/
structure Filt where
  /-- HPZ, the delay line of the RSSI filter, the newest sample first (R32). -/
  hpz : List F
  /-- BPZ, the delay line of the voice band-pass, the newest sample first (R32). -/
  bpz : List F
  /-- DEY, the last output of the de-emphasis low-pass (R33). -/
  dey : F
  /-- RSSI (R34). -/
  rssi : BitVec 8
  /-- NOISE (R34). -/
  noise : BitVec 8
  /-- CAL, the calibration factor in Q8.8 (R35). -/
  cal : BitVec 16
deriving DecidableEq, Repr

/-- The frame buffer FB as a sparse list of (sample index, sample), in one canonical form: the indexes rise strictly
and no entry is 0, what an unlisted location holds (R36, R50: FB resets to 0; R60: the address is a sample index and the
only width is one sample, so there are no bytes). Log 10. -/
abbrev Memory := List (Nat × Sample)

/-- ERR, seven sticky flags, bit `i` as R42 numbers them (R37). -/
abbrev Err := BitVec 7

/-- The state of TVSP: the table of R20, the pending command of R90 and R50, and three fields of the model's own. -/
structure State where
  /-- The configuration, fixed when the block is built; no step changes it (R39). The model's own field, log 3. -/
  cfg : Config
  clk : Clk
  rsmp : Rsmp
  filt : Filt
  /-- FB (R36). -/
  fb : Memory
  /-- ERR (R37). -/
  err : Err
  /-- The words of a command that has not wholly arrived, in the order sent; none when no command is pending (R90). -/
  pending : List Word
  /-- What still arrives at the block, in order (R241). The model's own field, log 4. -/
  inputs : List Input
  /-- The words sent on the response port, oldest first (R63, R97). The model's own field, log 5. -/
  responses : List Word
deriving DecidableEq, Repr

/-- Why a step stops with a fault. -/
inductive Fault where
  /-- Raised by RS.PUSH only, in a state whose POS is negative (which no run reaches, R51 part (i)) and so far from the
  block that adding STEP no longer moves it: the loop of R131 then has no end. Safe: the model stops where R131 gives no
  next state. Log 8. -/
  | interpolationNeverEnds
deriving DecidableEq, Repr

/-- Why a step is refused. -/
inductive Refusal where
  /-- Raised by `exec` for a command without a meaning; no arm raises it. Safe. -/
  | notModelled (mnemonic : String)
  /-- Raised by the advance of MONO past 2^64 - 1 microseconds, an input that R21 says never comes. Safe. Log 9. -/
  | timePastEnd
deriving DecidableEq, Repr

/-- CLK after a hardware reset (R50, R220). IVAL's 1,000,000 is SEC_US, so that the jitter reads 0 (R24, R224; log 12). -/
def Clk.atReset (c : Config) : Clk where
  mono := 0#64
  secs := 0#32
  lastp := 0#64
  ival := BitVec.ofNat 64 c.consts.secUs
  haveFix := false
  pulseSeen := false
  ivalValid := false

/-- RSMP after a hardware reset (R50, R220). -/
def Rsmp.atReset : Rsmp where
  lp := F.zero
  prev := F.zero
  pos := F.zero
  acc := []
  ovfCnt := 0#32

/-- FILT after a hardware reset (R50, R220). CAL's 0x0100 is CAL_MIN, the least legal factor (R223; log 12). -/
def Filt.atReset (c : Config) : Filt where
  hpz := List.replicate c.par.hpTaps.length F.zero
  bpz := List.replicate c.par.bpTaps.length F.zero
  dey := F.zero
  rssi := 0#8
  noise := 255#8
  cal := c.consts.calMin

/-- A block of a given configuration after a hardware reset (R50, R220), with nothing arriving and nothing sent. -/
def State.atReset (c : Config) : State where
  cfg := c
  clk := Clk.atReset c
  rsmp := Rsmp.atReset
  filt := Filt.atReset c
  fb := []
  err := 0#7
  pending := []
  inputs := []
  responses := []

/-- The block as built, after a hardware reset (R50, R220). Its OPEN parameters are free values (log 3). -/
def State.reset : State := State.atReset Config.built

end Sys2Proof.Machine
end

