-- ==== Sys2Proof/Machine/Flags.lean ====
section
/-!
DEFINITION. The sticky flags of ERR and the result codes (spec/10_state.md R37, R42; spec/30_encoding.md R92;
spec/60_exceptions.md R191, R192).
-/

namespace Sys2Proof.Machine

/-- The seven flags of ERR (R37). -/
inductive ErrFlag where
  | ovf | cfg | ill | csr | under | idx | sat
deriving DecidableEq, Repr

/-- The bit position of a flag (R37, R42). -/
def errBit : ErrFlag → Nat
  | .ovf => 0
  | .cfg => 1
  | .ill => 2
  | .csr => 3
  | .under => 4
  | .idx => 5
  | .sat => 6

/-- ERR with one flag set and the others as they were (R12, R37). -/
def setErr (f : ErrFlag) (e : Err) : Err := e ||| BitVec.twoPow 7 (errBit f)

/-- The flag is set. -/
def hasErr (f : ErrFlag) (e : Err) : Bool := e.getLsbD (errBit f)

/-- ERR after a WRCSR with datum `d`: every flag `i` with `d[i]` = 1 is cleared, the others are kept, bits [15:7] of `d`
are ignored (R42, R172). -/
def clearErr (d : BitVec 16) (e : Err) : Err := e &&& ~~~(d.extractLsb' 0 7)

/-- The four errors a command can report (R191). -/
inductive CmdError where
  | eIll | eCsr | eUnder | eIdx
deriving DecidableEq, Repr

/-- The result code of an error (R92). -/
def errorCode : CmdError → BitVec 8
  | .eIll => 1#8
  | .eCsr => 2#8
  | .eUnder => 3#8
  | .eIdx => 4#8

/-- The flag of an error's code (R92, R191). -/
def errorFlag : CmdError → ErrFlag
  | .eIll => .ill
  | .eCsr => .csr
  | .eUnder => .under
  | .eIdx => .idx

/-- Result code 0, OK (R92). -/
def codeOk : BitVec 8 := 0#8

end Sys2Proof.Machine
end

