-- ==== Sys2Proof/Machine/Num.lean ====
section
/-!
DEFINITION. The operations of the numeric configuration NUM (spec/00_scope.md R10, R11): IEEE 754 binary32, round to
nearest, ties to even, subnormals kept, each operation rounding its exact result once.

Exact results are formed as natural numbers in units of 2^-149 (`F.units`). The sign of a zero result is IEEE 754's
(PRESUMED, log 13; unsafe).
-/

namespace Sys2Proof.Machine

/-- From an exact magnitude to the finite number of that pattern; past the greatest finite number, the free value given
(U18, log 2). -/
def packMag (neg : Bool) (m : Nat) (other : F) : F :=
  if h : m < 2139095040 then ⟨neg, ⟨m, h⟩⟩ else other

/-- A significand `m` kept at exponent `e` (so `m * 2^e` units) as a pattern: below 2^24 at exponent 0 the pattern is `m`,
and each further exponent adds 2^23; a significand that rounded up to 2^24 carries into the exponent. -/
def patternOf (e m : Nat) : Nat := e * 2 ^ 23 + m

/-- The pattern of the binary32 number nearest to `n / d` units, ties to the even significand. The exponent `e` leaves
24 bits of the quotient (none dropped below 2^24: subnormals are kept). -/
def roundRatio (n d : Nat) : Nat :=
  let e := Nat.log2 (n / d) - 23
  let u := d * 2 ^ e
  let m := n / u
  let r := n % u
  patternOf e (if 2 * r > u || (2 * r == u && m % 2 == 1) then m + 1 else m)

/-- The integer square root by bits from the highest: `acc` is the root so far, `b` the number of bits still to try. -/
def rootFrom : Nat → Nat → Nat → Nat
  | _, 0, acc => acc
  | n, b + 1, acc =>
    if (acc + 2 ^ b) * (acc + 2 ^ b) ≤ n then rootFrom n b (acc + 2 ^ b) else rootFrom n b acc

/-- The greatest natural number whose square is at most `n`. -/
def natRoot (n : Nat) : Nat := rootFrom n (Nat.log2 n / 2 + 1) 0

/-- The pattern of the binary32 number nearest to the square root of `n`, in units, ties to the even significand. The
root lies above or below the midpoint after `m` as `4 n` lies above or below the square of `(2 m + 1) 2^e`. -/
def roundRoot (n : Nat) : Nat :=
  let e := Nat.log2 (natRoot n) - 23
  let m := natRoot n / 2 ^ e
  let mid := (2 * m + 1) * 2 ^ e
  patternOf e (if 4 * n > mid * mid || (4 * n == mid * mid && m % 2 == 1) then m + 1 else m)

/-- The number of opposite sign. -/
def fneg (a : F) : F := ⟨!a.neg, a.mag⟩

/-- `i2f(n)`: the integer as an `F` (R10), exact for every integer of magnitude at most 2^24. -/
def i2f (n : Int) : F :=
  packMag (decide (n < 0)) (roundRatio (n.natAbs * 2 ^ 149) 1) (Config.unstated .ofInt F.zero F.zero)

/-- `fadd(a,b)` (R10). An exact sum of zero is `-0` when both operands are `-0` or negative zeros, and `+0` otherwise. -/
def fadd (a b : F) : F :=
  let s : Int := a.scaled + b.scaled
  packMag (if s = 0 then a.neg && b.neg else decide (s < 0)) (roundRatio s.natAbs 1) (Config.unstated .add a b)

/-- `fsub(a,b)` (R10): the sum with the number of opposite sign. -/
def fsub (a b : F) : F := fadd a (fneg b)

/-- `fmul(a,b)` (R10): a product of units is a multiple of 2^-298, that is 2^-149 units. -/
def fmul (a b : F) : F :=
  packMag (a.neg ^^ b.neg) (roundRatio (a.units * b.units) (2 ^ 149)) (Config.unstated .mul a b)

/-- `fdiv(a,b)` (R10). A division by a zero has no finite result (U18). -/
def fdiv (a b : F) : F :=
  if b.units = 0 then Config.unstated .div a b
  else packMag (a.neg ^^ b.neg) (roundRatio (a.units * 2 ^ 149) b.units) (Config.unstated .div a b)

/-- `fsqrt(a)` (R10). The root of a number below zero is no number (U18); the root of a zero is that zero. -/
def fsqrt (a : F) : F :=
  if a.units = 0 then a
  else if a.neg then Config.unstated .sqrt a a
  else packMag false (roundRoot (a.units * 2 ^ 149)) (Config.unstated .sqrt a a)

/-- `flt(a,b)`: a < b, exact; the two zeros are equal (R10). -/
def flt (a b : F) : Bool := decide (a.scaled < b.scaled)

/-- `ftrunc(a)`: the integer part, rounding toward zero (R10). -/
def ftrunc (a : F) : Int := if a.neg then -((a.units / 2 ^ 149 : Nat) : Int) else ((a.units / 2 ^ 149 : Nat) : Int)

/-- `clip16(v)`: saturates to -32768..32767, then truncates toward zero (R11). -/
def clip16 (v : F) : Sample :=
  if flt (i2f 32767) v then 32767#16
  else if flt v (i2f (-32768)) then BitVec.ofInt 16 (-32768)
  else BitVec.ofInt 16 (ftrunc v)

/-- `i2f` of a sample: the same number, no scaling to a unit range (R11). -/
def sampleToF (s : Sample) : F := i2f s.toInt

/-- RS_BETA, formed once at configuration time (R7, R130). -/
def rsBeta (c : Config) : F := fsub (i2f 1) c.par.rsAlpha

/-- DE_BETA, formed once at configuration time (R7, R154). -/
def deBeta (c : Config) : F := fsub (i2f 1) c.deAlpha

end Sys2Proof.Machine
end

