-- ==== Sys2Proof/Machine/Ops.lean ====
section
/-!
DEFINITION. The operations the commands share: the frame buffer (spec/20_memory.md R60), the response port
(spec/30_encoding.md R91 to R94), the report of an error (spec/60_exceptions.md R190, R191), the accumulation buffer
(spec/42_resampler.md R133, R134), and the hardware reset (spec/70_reset_and_hazards.md R220).

TVSP takes no exception and returns from none (R190, R197): `reportError` is all an error does.
-/

namespace Sys2Proof.Machine

/-! ### The frame buffer -/

/-- What a location holds that the list does not name: FB resets to 0 (R50). -/
def fbUnlisted : Sample := 0#16

/-- `FB[i]`, which R12 and R60 also call `MemRead(i, 2)`. -/
def fbRead : Memory → Nat → Sample
  | [], _ => fbUnlisted
  | (j, x) :: m, i => if i = j then x else fbRead m i

/-- An entry for a location, unless it holds what an unlisted location holds. -/
def fbCons (i : Nat) (v : Sample) (m : Memory) : Memory := if v = fbUnlisted then m else (i, v) :: m

/-- `FB[i] <- v`, which R12 and R60 also call `MemWrite(i, 2, v)`; the canonical form is kept. -/
def fbWrite : Memory → Nat → Sample → Memory
  | [], i, v => fbCons i v []
  | (j, x) :: m, i, v =>
    if i < j then fbCons i v ((j, x) :: m)
    else if i = j then fbCons i v m
    else (j, x) :: fbWrite m i v

/-- Samples written to consecutive locations from `i` on, the rest holding 0. -/
def fbFrom (i : Nat) : List Sample → Memory
  | [] => []
  | v :: vs => fbCons i v (fbFrom (i + 1) vs)

/-- The whole frame `FB[0]`, `FB[1]`, ... of `n` locations. -/
def fbFrame (n : Nat) (m : Memory) : List Sample := (List.range n).map (fbRead m)

/-- From location `lo` on the indexes rise strictly and stay below `n`, and no entry holds what an unlisted location
holds. -/
def fbWfFrom (n : Nat) : Nat → Memory → Bool
  | _, [] => true
  | lo, (j, x) :: m => decide (lo ≤ j) && decide (j < n) && decide (x ≠ fbUnlisted) && fbWfFrom n (j + 1) m

/-- The canonical form of a frame buffer of `n` locations. -/
def Memory.wf (n : Nat) (m : Memory) : Bool := fbWfFrom n 0 m

/-! ### Flags, responses, errors -/

/-- `flag X` of R12. -/
def raiseFlag (f : ErrFlag) (s : State) : State := { s with err := setErr f s.err }

/-- The status word `{op, code, val}` (R91). -/
def statusWord (op code : BitVec 8) (val : BitVec 16) : Word := (op ++ code ++ val).cast rfl

/-- `respond(op, code, val, w1, w2, ...)` of R12: the whole response, after every earlier one (R91, R97). -/
def respond (op code : BitVec 8) (val : BitVec 16) (data : List Word) (s : State) : State :=
  { s with responses := s.responses ++ statusWord op code val :: data }

/-- How many data words follow a status word (R94). -/
def dataWordsOf (status : Word) : Nat :=
  let op : BitVec 8 := status.extractLsb' 24 8
  let code : BitVec 8 := status.extractLsb' 16 8
  if code = codeOk then
    if op = 0x01#8 then 1 else if op = 0x42#8 then 1 else if op = 0x40#8 then 2 else 0
  else 0

/-- A failed command: its flag is set, its code answered with `val` 0 and no data words, and nothing else changes
(R92, R190, R191). -/
def reportError (op : BitVec 8) (e : CmdError) (s : State) : State :=
  respond op (errorCode e) 0#16 [] (raiseFlag (errorFlag e) s)

/-- An illegal command word: one word long, sets ILL, answers `{w[31:24], 0x01, 0x0000}` (R95). -/
def illegalWord (w : Word) (s : State) : State := reportError (w.extractLsb' 24 8) .eIll s

/-! ### The accumulation buffer -/

/-- The top of a 32-bit count that stops there. -/
def u32Max : Nat := 0xFFFFFFFF

/-- `acc_store(v)`: an append to a full ACC first empties it, counts (stopping at 0xFFFFFFFF) and sets OVF (R133). -/
def accStore (v : Sample) (s : State) : State :=
  if s.rsmp.acc.length = s.cfg.par.accCap then
    raiseFlag .ovf
      { s with rsmp := { s.rsmp with
          acc := [v]
          ovfCnt := BitVec.ofNat 32 (min (s.rsmp.ovfCnt.toNat + 1) u32Max) } }
  else { s with rsmp := { s.rsmp with acc := s.rsmp.acc ++ [v] } }

/-- `min(ACC_CNT div 160, 65535)`, the whole frames that RS.POP can take (R134). That the 160 is FRAME_LEN is a DESIGN
CHOICE, log 20. -/
def framesReady (s : State) : BitVec 16 :=
  BitVec.ofNat 16 (min (s.rsmp.acc.length / s.cfg.consts.frameLen) 65535)

/-! ### The hardware reset -/

/-- The hardware reset: every piece of state at R50's value and a pending command discarded (R220). What is still to
arrive arrives, the responses already sent are not recalled, and the configuration is fixed (R39). -/
def hardwareReset (s : State) : State :=
  { State.atReset s.cfg with inputs := s.inputs, responses := s.responses }

end Sys2Proof.Machine
end

