-- ==== Sys2Proof/Machine/Clock.lean ====
section
/-!
DEFINITION. The unit CLK (spec/41_clock.md): the pulse step, CK.NOW, CK.LOCKED, CK.JITTER, CK.FIX, and the advance of
MONO (spec/10_state.md R21).

All arithmetic is on natural numbers (R118). `t` is MONO at the instant of the step.
-/

namespace Sys2Proof.Machine

/-- `e = t - LASTP`, the microseconds since the last accepted pulse (R110, R112). It is never negative in a state a run
reaches, because LASTP is a past value of MONO (R118); where LASTP is past MONO it is 0. Log 15. -/
def elapsed (k : Clk) : Nat := k.mono.toNat - k.lastp.toNat

/-- Whole seconds nearest to `e`, at least 1 (R110). The 500,000 that rounds is half of SEC_US (log 12). -/
def pulseSeconds (c : Config) (e : Nat) : Nat := max 1 ((e + c.consts.secUs / 2) / c.consts.secUs)

/-- The pulse is too close to the last accepted one and is ignored (R110). -/
def debounced (c : Config) (k : Clk) : Bool := k.pulseSeen && decide (elapsed k < c.consts.debounceUs)

/-- The pulse step on an accepted pulse: SECS, with its stop at the top (R111), IVAL, LASTP and the flags (R110). -/
def acceptPulse (c : Config) (k : Clk) : Clk :=
  { k with
    secs := BitVec.ofNat 32 (min (k.secs.toNat + pulseSeconds c (elapsed k)) u32Max)
    ival := if k.pulseSeen then BitVec.ofNat 64 (elapsed k) else k.ival
    ivalValid := if k.pulseSeen then true else k.ivalValid
    lastp := k.mono
    pulseSeen := true }

/-- An accepted pulse finds no room above SECS (R111). -/
def pulseSaturates (c : Config) (k : Clk) : Bool :=
  decide (u32Max < k.secs.toNat + pulseSeconds c (elapsed k))

/-- A pulse at the pulse input (R110, R111): one step of CLK. -/
def pulseStep (s : State) : State :=
  if debounced s.cfg s.clk then s
  else if pulseSaturates s.cfg s.clk then raiseFlag .sat { s with clk := acceptPulse s.cfg s.clk }
  else { s with clk := acceptPulse s.cfg s.clk }

/-- MONO advances by `us` microseconds (R21). It never wraps within the life of the block: an advance past its top is no
input of a run, and is refused (log 9). -/
def advanceTime (us : Nat) (s : State) : Host.Outcome State Fault Refusal :=
  if s.clk.mono.toNat + us < 2 ^ 64 then
    .next { s with clk := { s.clk with mono := BitVec.ofNat 64 (s.clk.mono.toNat + us) } }
  else .refused .timePastEnd

/-- The seconds CK.NOW returns, stopped at 0xFFFFFFFF (R112). -/
def nowSeconds (c : Config) (k : Clk) : Nat := min (k.secs.toNat + elapsed k / c.consts.secUs) u32Max

/-- The nanoseconds CK.NOW returns: MONO counts microseconds (R112). -/
def nowNanoseconds (c : Config) (k : Clk) : Nat := elapsed k % c.consts.secUs * 1000

/-- CK.NOW (R112). -/
def execCkNow (s : State) : Host.Outcome State Fault Refusal :=
  .next (respond 0x40#8 codeOk 0#16
    [BitVec.ofNat 32 (nowSeconds s.cfg s.clk), BitVec.ofNat 32 (nowNanoseconds s.cfg s.clk)] s)

/-- The clock is locked: a fix, a pulse, and no more than LOCK_US since it (R113). -/
def locked (c : Config) (k : Clk) : Bool := k.haveFix && k.pulseSeen && decide (elapsed k ≤ c.consts.lockUs)

/-- CK.LOCKED (R113). -/
def execCkLocked (s : State) : Host.Outcome State Fault Refusal :=
  .next (respond 0x41#8 codeOk (if locked s.cfg s.clk then 1#16 else 0#16) [] s)

/-- The distance of two natural numbers, `abs` of R9 on their difference. -/
def distance (a b : Nat) : Nat := (a - b) + (b - a)

/-- `abs(IVAL - 1,000,000)` in microseconds, stopped at 0xFFFFFFFF (R114). -/
def jitter (c : Config) (k : Clk) : Nat := min (distance k.ival.toNat c.consts.secUs) u32Max

/-- CK.JITTER (R114). -/
def execCkJitter (s : State) : Host.Outcome State Fault Refusal :=
  .next (respond 0x42#8 codeOk 0#16 [BitVec.ofNat 32 (jitter s.cfg s.clk)] s)

/-- A fix overwrites SECS: the clock is not locked, or the fix disagrees by more than FIX_TOL_S (R115). -/
def fixOverwrites (c : Config) (k : Clk) (epoch : BitVec 32) : Bool :=
  !locked c k || decide (c.consts.fixTolS < distance epoch.toNat k.secs.toNat)

/-- CK.FIX: SECS is overwritten or kept, and HAVEFIX is set (R115). -/
def ckFixStep (epoch : BitVec 32) (s : State) : State :=
  if fixOverwrites s.cfg s.clk epoch then
    respond 0x43#8 codeOk 1#16 [] { s with clk := { s.clk with secs := epoch, haveFix := true } }
  else respond 0x43#8 codeOk 0#16 [] { s with clk := { s.clk with haveFix := true } }

/-- CK.FIX epoch (R115). -/
def execCkFix (epoch : BitVec 32) (s : State) : Host.Outcome State Fault Refusal := .next (ckFixStep epoch s)

end Sys2Proof.Machine
end

