-- ==== Sys2Proof/Machine/Filter.lean ====
section
/-!
DEFINITION. The unit FILT (spec/43_filter_chain.md): FP.PROC and FP.RESET.
-/

namespace Sys2Proof.Machine

/-- The sum of R151: over k in order, starting from +0, `fadd(a, fmul(TAPS[k], Z[k]))`. -/
def firSum (taps z : List F) : F := (taps.zip z).foldl (fun a p => fadd a (fmul p.1 p.2)) F.zero

/-- The delay line shifted by one place, the new value first, the oldest lost (R151). It has one place for each tap
(R32). -/
def firShift (taps z : List F) (x : F) : List F := (x :: z).take taps.length

/-- `fir(TAPS, Z, ·)` of R151 over samples in order: the outputs and the delay line left. -/
def firRun (taps : List F) : List F → List F → List F × List F
  | z, [] => ([], z)
  | z, x :: xs =>
    match firRun taps (firShift taps z x) xs with
    | (ys, z') => (firSum taps (firShift taps z x) :: ys, z')

/-- The sum of the squares, starting from +0, in order (R152). -/
def sumSquares (hs : List F) : F := hs.foldl (fun a h => fadd a (fmul h h)) F.zero

/-- The calibration factor CAL / 256 as an `F` (R35, R152). -/
def calFactor (cal : BitVec 16) : F := fdiv (i2f cal.toNat) (i2f 256)

/-- The value `v` of R152 before the clamps. The 255 it starts from is the mapping's own (log 14). -/
def rssiRaw (c : Config) (cal : BitVec 16) (hs : List F) : F :=
  let rms := fsqrt (fdiv (sumSquares hs) (i2f c.consts.frameLen))
  fsub (i2f 255) (fdiv (fmul rms c.par.rssiScale) (calFactor cal))

/-- The two clamps of R152, in the order written. -/
def rssiClamp (c : Config) (v : F) : F :=
  let v1 := if flt v (i2f c.consts.rssiMin) then i2f c.consts.rssiMin else v
  if flt (i2f c.consts.rssiMax) v1 then i2f c.consts.rssiMax else v1

/-- The RSSI byte: clamped as an `F`, then truncated toward zero (R152). -/
def rssiByte (c : Config) (cal : BitVec 16) (hs : List F) : BitVec 8 :=
  BitVec.ofInt 8 (ftrunc (rssiClamp c (rssiRaw c cal hs)))

/-- The RSSI path on the frame as it came in: HPZ advances, RSSI and NOISE are written (R152). -/
def rssiPath (c : Config) (xin : List F) (u : Filt) : Filt :=
  match firRun c.par.hpTaps u.hpz xin with
  | (hs, z) =>
    { u with hpz := z, rssi := rssiByte c u.cal hs, noise := 255#8 - rssiByte c u.cal hs }

/-- The band-pass stage, skipped whole when its flag is off (R153, R156): the samples it leaves and FILT. -/
def bandPass (c : Config) (on : Bool) (ys : List F) (u : Filt) : List F × Filt :=
  if on then
    match firRun c.par.bpTaps u.bpz ys with
    | (out, z) => (out, { u with bpz := z })
  else (ys, u)

/-- The recursion of R154 over samples in order: the outputs and the DEY left. -/
def deEmphRun (c : Config) : F → List F → List F × F
  | dey, [] => ([], dey)
  | dey, y :: ys =>
    match deEmphRun c (fadd (fmul c.deAlpha y) (fmul (deBeta c) dey)) ys with
    | (out, d) => (fadd (fmul c.deAlpha y) (fmul (deBeta c) dey) :: out, d)

/-- The de-emphasis stage, skipped whole when its flag is off (R154, R156): the samples it leaves and FILT. -/
def deEmphasis (c : Config) (on : Bool) (ys : List F) (u : Filt) : List F × Filt :=
  if on then
    match deEmphRun c u.dey ys with
    | (out, d) => (out, { u with dey := d })
  else (ys, u)

/-- The entry conversion of R150: the frame as numbers. -/
def entryFrame (s : State) : List F := (fbFrame s.cfg.consts.frameLen s.fb).map sampleToF

/-- FP.PROC with flags `bp` and `de`: entry conversion, RSSI path, audio path, exit conversion (R150, R155). -/
def fpProcStep (bp de : Bool) (s : State) : State :=
  let xin := entryFrame s
  match bandPass s.cfg bp xin (rssiPath s.cfg xin s.filt) with
  | (y1, u1) =>
    match deEmphasis s.cfg de y1 u1 with
    | (y2, u2) =>
      respond 0x30#8 codeOk (u2.rssi.setWidth 16) [] { s with fb := fbFrom 0 (y2.map clip16), filt := u2 }

/-- FP.PROC bp, de (R150). -/
def execFpProc (bp de : Bool) (s : State) : Host.Outcome State Fault Refusal := .next (fpProcStep bp de s)

/-- FP.RESET: every HPZ[k], every BPZ[k] and DEY at +0 (R157). -/
def fpResetStep (s : State) : State :=
  respond 0x31#8 codeOk 0#16 []
    { s with filt := { s.filt with
        hpz := List.replicate s.cfg.par.hpTaps.length F.zero
        bpz := List.replicate s.cfg.par.bpTaps.length F.zero
        dey := F.zero } }

/-- FP.RESET (R157). -/
def execFpReset (s : State) : Host.Outcome State Fault Refusal := .next (fpResetStep s)

end Sys2Proof.Machine
end

