-- ==== Sys2Proof/Machine/Resampler.lean ====
section
/-!
DEFINITION. The unit RSMP (spec/42_resampler.md): RS.PUSH, RS.POP, RS.RESET.
-/

namespace Sys2Proof.Machine

/-- The anti-alias filter: `LP <- fadd(fmul(RS_ALPHA, x), fmul(RS_BETA, LP))` (R130). -/
def antiAlias (c : Config) (lp x : F) : F := fadd (fmul c.par.rsAlpha x) (fmul (rsBeta c) lp)

/-- The output at position `pos` of input sample `i`: `fadd(PREV, fmul(fsub(cur, PREV), frac))` with
`frac = fsub(POS, i2f(i))` (R131). -/
def interpolated (prev cur pos : F) (i : Nat) : F := fadd prev (fmul (fsub cur prev) (fsub pos (i2f i)))

/-- One pass of R131's inner loop: an output sample is clipped and stored, and POS advances by STEP. -/
def interpolateOnce (i : Nat) (cur : F) (s : State) : State :=
  let t := accStore (clip16 (interpolated s.rsmp.prev cur s.rsmp.pos i)) s
  { t with rsmp := { t.rsmp with pos := fadd t.rsmp.pos t.cfg.par.step } }

/-- R131's inner loop, `while flt(POS, i2f(i+1))`, of at most `n` passes. -/
def interpolate : Nat → Nat → F → State → State
  | 0, _, _, s => s
  | n + 1, i, cur, s =>
    if flt s.rsmp.pos (i2f (i + 1)) then interpolate n i cur (interpolateOnce i cur s) else s

/-- A number of passes that is enough for R131's inner loop at input sample `i`: a pass that moves POS moves it by more
than 1/128 of a sample, since STEP is at least 2^-6. A loop that does not end in so many passes has no end. Log 8. -/
def passBound (i : Nat) (pos : F) : Nat := (128 * ((i : Int) + 2 - ftrunc pos)).toNat

/-- R131's work for input sample `i`: filter it, produce its outputs, remember it. -/
def pushSample (i : Nat) (x : Sample) (s : State) : State :=
  let cur := antiAlias s.cfg s.rsmp.lp (sampleToF x)
  let t := interpolate (passBound i s.rsmp.pos) i cur { s with rsmp := { s.rsmp with lp := cur } }
  { t with rsmp := { t.rsmp with prev := cur } }

/-- R131's outer loop from input sample `i` on, in order. -/
def pushFrom : Nat → List Sample → State → State
  | _, [], s => s
  | i, x :: xs, s => pushFrom (i + 1) xs (pushSample i x s)

/-- The end of a push: POS is reduced by the block length, and the answer is the number of whole frames (R131, R134). -/
def finishPush (len : Nat) (s : State) : State :=
  let t := { s with rsmp := { s.rsmp with pos := fsub s.rsmp.pos (i2f len) } }
  respond 0x10#8 codeOk (framesReady t) [] t

/-- A loop of R131 had no end: POS was negative at the start and is still inside the block after the last sample. Only
from a negative POS, which no run reaches (R51 part (i)), can that be. Log 8. -/
def neverEnds (samples : List Sample) (before after : State) : Bool :=
  flt before.rsmp.pos F.zero && !samples.isEmpty && flt after.rsmp.pos (i2f samples.length)

/-- RS.PUSH s0 s1 ... (R131). -/
def execRsPush (samples : List Sample) (s : State) : Host.Outcome State Fault Refusal :=
  if neverEnds samples s (pushFrom 0 samples s) then .fault .interpolationNeverEnds
  else .next (finishPush samples.length (pushFrom 0 samples s))

/-- RS.POP: the oldest 160 samples of ACC move into FB, or E_UNDER (R135). That the 160 is FRAME_LEN is a DESIGN CHOICE,
log 20. -/
def rsPopStep (s : State) : State :=
  let n := s.cfg.consts.frameLen
  if s.rsmp.acc.length < n then reportError 0x11#8 .eUnder s
  else
    let t := { s with fb := fbFrom 0 (s.rsmp.acc.take n), rsmp := { s.rsmp with acc := s.rsmp.acc.drop n } }
    respond 0x11#8 codeOk (framesReady t) [] t

/-- RS.POP (R135). -/
def execRsPop (s : State) : Host.Outcome State Fault Refusal := .next (rsPopStep s)

/-- RS.RESET: LP, PREV and POS at +0 and ACC emptied; OVF_CNT stays (R136, R221). -/
def rsResetStep (s : State) : State :=
  respond 0x12#8 codeOk 0#16 []
    { s with rsmp := { s.rsmp with lp := F.zero, prev := F.zero, pos := F.zero, acc := [] } }

/-- RS.RESET (R136). -/
def execRsReset (s : State) : Host.Outcome State Fault Refusal := .next (rsResetStep s)

end Sys2Proof.Machine
end

