-- ==== Sys2Proof/Machine/System.lean ====
section
/-!
DEFINITION. The system commands and the access to the frame buffer (spec/44_system_and_frame_buffer.md): NOP, RDCSR,
WRCSR, FB.RD, FB.WR.
-/

namespace Sys2Proof.Machine

/-- NOP changes no state and answers `{0x00, 0x00, 0x0000}` (R170). -/
def execNop (s : State) : Host.Outcome State Fault Refusal := .next (respond 0x00#8 codeOk 0#16 [] s)

/-- CSR ID (R41). -/
def csrId (s : State) : Word := s.cfg.consts.idValue

/-- CSR ERR: bits [6:0] are the flags (R42). -/
def csrErr (s : State) : Word := s.err.setWidth 32

/-- CSR ACC_CNT: the number of samples in ACC (R43). -/
def csrAccCnt (s : State) : Word := BitVec.ofNat 32 s.rsmp.acc.length

/-- CSR OVF_CNT (R44). -/
def csrOvfCnt (s : State) : Word := s.rsmp.ovfCnt

/-- CSR CAL: bits [15:0] (R45). -/
def csrCal (s : State) : Word := s.filt.cal.setWidth 32

/-- CSR RSSI: bits [7:0] (R46). -/
def csrRssi (s : State) : Word := s.filt.rssi.setWidth 32

/-- CSR NOISE: bits [7:0] (R46). -/
def csrNoise (s : State) : Word := s.filt.noise.setWidth 32

/-- CSR CK_FLAGS: bit 0 HAVEFIX, bit 1 PULSESEEN, bit 2 IVALID (R47). -/
def csrCkFlags (s : State) : Word :=
  (0#29 ++ BitVec.ofBool s.clk.ivalValid ++ BitVec.ofBool s.clk.pulseSeen ++ BitVec.ofBool s.clk.haveFix).cast rfl

/-- CSR GEOM: bits [7:0] NHP, bits [15:8] NBP, bits [31:16] ACC_CAP div 160 (R48). That the 160 is FRAME_LEN is a DESIGN
CHOICE, log 20. -/
def csrGeom (s : State) : Word :=
  (BitVec.ofNat 16 (s.cfg.par.accCap / s.cfg.consts.frameLen) ++ BitVec.ofNat 8 s.cfg.par.bpTaps.length
    ++ BitVec.ofNat 8 s.cfg.par.hpTaps.length).cast rfl

/-- The register numbered `csr` as read; none for the numbers 0x09 to 0xFF, which are not implemented (R40, R49). -/
def csrRead (csr : BitVec 8) (s : State) : Option Word :=
  match csr.toNat with
  | 0 => some (csrId s)
  | 1 => some (csrErr s)
  | 2 => some (csrAccCnt s)
  | 3 => some (csrOvfCnt s)
  | 4 => some (csrCal s)
  | 5 => some (csrRssi s)
  | 6 => some (csrNoise s)
  | 7 => some (csrCkFlags s)
  | 8 => some (csrGeom s)
  | _ => none

/-- RDCSR: the register's value as one data word, or E_CSR (R171). -/
def rdcsrStep (csr : BitVec 8) (s : State) : State :=
  match csrRead csr s with
  | some v => respond 0x01#8 codeOk 0#16 [v] s
  | none => reportError 0x01#8 .eCsr s

/-- RDCSR csr (R171). -/
def execRdcsr (csr : BitVec 8) (s : State) : Host.Outcome State Fault Refusal := .next (rdcsrStep csr s)

/-- CAL takes the datum, or 0x0100 with the flag CFG where the datum is below it (R45, R172). -/
def writeCal (d : BitVec 16) (s : State) : State :=
  if d.toNat < s.cfg.consts.calMin.toNat then
    raiseFlag .cfg { s with filt := { s.filt with cal := s.cfg.consts.calMin } }
  else { s with filt := { s.filt with cal := d } }

/-- ERR loses the flags the datum names (R42, R172). -/
def writeErr (d : BitVec 16) (s : State) : State := { s with err := clearErr d s.err }

/-- WRCSR: CAL (0x04) and ERR (0x01) can be written; every other number is E_CSR (R172). -/
def wrcsrStep (csr : BitVec 8) (d : BitVec 16) (s : State) : State :=
  match csr.toNat with
  | 4 => respond 0x02#8 codeOk (writeCal d s).filt.cal [] (writeCal d s)
  | 1 => respond 0x02#8 codeOk ((writeErr d s).err.setWidth 16) [] (writeErr d s)
  | _ => reportError 0x02#8 .eCsr s

/-- WRCSR csr, d (R172). -/
def execWrcsr (csr : BitVec 8) (d : BitVec 16) (s : State) : Host.Outcome State Fault Refusal := .next (wrcsrStep csr d s)

/-- FB.RD: the sample as 16 bits, or E_IDX (R174). -/
def fbRdStep (idx : BitVec 8) (s : State) : State :=
  if idx.toNat < s.cfg.consts.frameLen then respond 0x20#8 codeOk (fbRead s.fb idx.toNat) [] s
  else reportError 0x20#8 .eIdx s

/-- FB.RD idx (R174). -/
def execFbRd (idx : BitVec 8) (s : State) : Host.Outcome State Fault Refusal := .next (fbRdStep idx s)

/-- FB.WR: one location takes the sample, or E_IDX (R175). -/
def fbWrStep (idx : BitVec 8) (d : Sample) (s : State) : State :=
  if idx.toNat < s.cfg.consts.frameLen then
    respond 0x21#8 codeOk 0#16 [] { s with fb := fbWrite s.fb idx.toNat d }
  else reportError 0x21#8 .eIdx s

/-- FB.WR idx, d (R175). -/
def execFbWr (idx : BitVec 8) (d : Sample) (s : State) : Host.Outcome State Fault Refusal := .next (fbWrStep idx d s)

end Sys2Proof.Machine
end

