-- ==== Sys2Proof/Machine/Dispatch.lean ====
section
/-!
DEFINITION. Which meaning each command has.
-/

namespace Sys2Proof.Machine

/-- The meaning of a command: the state in which its last word has been taken from the port, to the outcome. -/
def exec (i : Instr) (s : State) : Host.Outcome State Fault Refusal :=
  match i with
  | .nop => Sys2Proof.Machine.execNop s
  | .rdcsr csr => Sys2Proof.Machine.execRdcsr csr s
  | .wrcsr csr d => Sys2Proof.Machine.execWrcsr csr d s
  | .rsPush samples => Sys2Proof.Machine.execRsPush samples s
  | .rsPop => Sys2Proof.Machine.execRsPop s
  | .rsReset => Sys2Proof.Machine.execRsReset s
  | .fbRd idx => Sys2Proof.Machine.execFbRd idx s
  | .fbWr idx d => Sys2Proof.Machine.execFbWr idx d s
  | .fpProc bp de => Sys2Proof.Machine.execFpProc bp de s
  | .fpReset => Sys2Proof.Machine.execFpReset s
  | .ckNow => Sys2Proof.Machine.execCkNow s
  | .ckLocked => Sys2Proof.Machine.execCkLocked s
  | .ckJitter => Sys2Proof.Machine.execCkJitter s
  | .ckFix epoch => Sys2Proof.Machine.execCkFix epoch s

end Sys2Proof.Machine
end

