-- ==== Sys2Proof/Machine/Port.lean ====
section
/-!
DEFINITION. The command port (spec/30_encoding.md R80, R89, R90, R95, R97): a word arrives, and a command is performed
when its last word has arrived.
-/

namespace Sys2Proof.Machine

/-- A word arrives on the command port. With the words of the pending command before it, it completes a command, which
is performed; or it is an illegal command word; or the command stays pending, with no state changed and no response
(R90, R95). -/
def takeWord (w : Word) (s : State) : Host.Outcome State Fault Refusal :=
  match decode (s.pending ++ [w]) with
  | .ok (i, rest) => exec i { s with pending := rest }
  | .error (.illegal c) => .next (illegalWord c { s with pending := (s.pending ++ [w]).tail })
  | .error .incomplete => .next { s with pending := s.pending ++ [w] }

/-- The words of an instruction of the opcode table, all but the last on the port already and the last about to arrive
(log 7). -/
def placeWords : List Word → State → State
  | [], s => s
  | w :: ws, s =>
    { s with pending := (w :: ws).dropLast, inputs := .word ((w :: ws).getLast (List.cons_ne_nil w ws)) :: s.inputs }

end Sys2Proof.Machine
end

