-- ==== Sys2Proof/Machine/Step.lean ====
section
/-!
DEFINITION. One step of the block: the next input to arrive, served by the agent it belongs to (spec/00_scope.md R13,
spec/20_memory.md R69).
-/

namespace Sys2Proof.Machine

/-- One step. When nothing more arrives the block is ready and nothing changes (R205, R240). -/
def step (s : State) : Host.Outcome State Fault Refusal :=
  match s.inputs with
  | [] => .next s
  | .word w :: rest => takeWord w { s with inputs := rest }
  | .pulse :: rest => .next (pulseStep { s with inputs := rest })
  | .tick us :: rest => advanceTime us { s with inputs := rest }
  | .hwReset :: rest => .next (hardwareReset { s with inputs := rest })

/-- The state with an instruction of the opcode table placed so that the very next step performs it: its last word
arrives next, and the words before it stand on the port. Log 7. -/
def State.withFetchWord (s : State) (nbits w : Nat) : State := placeWords (tableWords nbits w) s

end Sys2Proof.Machine
end

