-- ==== Sys2Proof/Machine/Assembly.lean ====
section
/-!
DEFINITION. The assembler notation, the pseudo-instructions and the trace lines (spec/30_encoding.md R98, R99, R100), as
what each line stands for at the block's boundary.
-/

namespace Sys2Proof.Machine

/-- A line of a trace. -/
inductive Line where
  /-- A command (R98). -/
  | command (i : Instr)
  /-- The pseudo-instruction ARESET (R99). -/
  | areset
  /-- The pseudo-instruction CLRERR (R99). -/
  | clrerr
  /-- The pseudo-instruction SETCAL q (R99). -/
  | setcal (q : BitVec 16)
  /-- TICK n (R100). -/
  | tick (us : Nat)
  /-- PULSE (R100). -/
  | pulse
  /-- HWRESET (R100). -/
  | hwreset
deriving DecidableEq, Repr

/-- The commands a line assembles to: one, two for ARESET, none for a trace line (R98, R99, R100). -/
def lineCommands : Line → List Instr
  | .command i => [i]
  | .areset => [.rsReset, .fpReset]
  | .clrerr => [.wrcsr 0x01#8 0xFFFF#16]
  | .setcal q => [.wrcsr 0x04#8 q]
  | .tick _ => []
  | .pulse => []
  | .hwreset => []

/-- The words a line assembles to (R98). -/
def lineWords (l : Line) : List Word := (lineCommands l).flatMap encode

/-- What a line sends to the block: its words on the command port, or one step of another agent (R100). -/
def lineInputs : Line → List Input
  | .tick us => [.tick us]
  | .pulse => [.pulse]
  | .hwreset => [.hwReset]
  | .command i => (lineWords (.command i)).map Input.word
  | .areset => (lineWords .areset).map Input.word
  | .clrerr => (lineWords .clrerr).map Input.word
  | .setcal q => (lineWords (.setcal q)).map Input.word

/-- The mnemonic of a command (R86, R98). -/
def mnemonicOf : Instr → String
  | .nop => "NOP"
  | .rdcsr _ => "RDCSR"
  | .wrcsr _ _ => "WRCSR"
  | .rsPush _ => "RS.PUSH"
  | .rsPop => "RS.POP"
  | .rsReset => "RS.RESET"
  | .fbRd _ => "FB.RD"
  | .fbWr _ _ => "FB.WR"
  | .fpProc _ _ => "FP.PROC"
  | .fpReset => "FP.RESET"
  | .ckNow => "CK.NOW"
  | .ckLocked => "CK.LOCKED"
  | .ckJitter => "CK.JITTER"
  | .ckFix _ => "CK.FIX"

/-- A flag operand, 0 or 1 (R98). -/
def flagText (b : Bool) : String := if b then "1" else "0"

/-- The names of the implemented CSRs, in the order of their numbers (R40, R98). -/
def csrNames : List String := ["ID", "ERR", "ACC_CNT", "OVF_CNT", "CAL", "RSSI", "NOISE", "CK_FLAGS", "GEOM"]

/-- The name of an implemented CSR, which may stand for its number (R98); otherwise the number in decimal. -/
def csrText (csr : BitVec 8) : String := (csrNames[csr.toNat]?).getD (toString csr.toNat)

/-- A command as R98 writes it: the mnemonic, then the operands separated by commas (the samples of RS.PUSH by spaces),
numbers in decimal, samples signed. -/
def commandText (i : Instr) : String :=
  match i with
  | .nop => mnemonicOf i
  | .rdcsr csr => mnemonicOf i ++ " " ++ csrText csr
  | .wrcsr csr d => mnemonicOf i ++ " " ++ csrText csr ++ ", " ++ toString d.toNat
  | .rsPush samples => String.intercalate " " (mnemonicOf i :: samples.map fun s => toString s.toInt)
  | .rsPop => mnemonicOf i
  | .rsReset => mnemonicOf i
  | .fbRd idx => mnemonicOf i ++ " " ++ toString idx.toNat
  | .fbWr idx d => mnemonicOf i ++ " " ++ toString idx.toNat ++ ", " ++ toString d.toInt
  | .fpProc bp de => mnemonicOf i ++ " " ++ flagText bp ++ ", " ++ flagText de
  | .fpReset => mnemonicOf i
  | .ckNow => mnemonicOf i
  | .ckLocked => mnemonicOf i
  | .ckJitter => mnemonicOf i
  | .ckFix epoch => mnemonicOf i ++ " " ++ toString epoch.toNat

/-- A piece of a line: a word without spaces and commas, or a comma. -/
inductive Token where
  | word (cs : List Char)
  | comma
deriving DecidableEq, Repr

/-- A word in front of tokens, unless it is empty. -/
def flushWord (acc : List Char) (ts : List Token) : List Token :=
  match acc with
  | [] => ts
  | c :: cs => .word (c :: cs) :: ts

/-- The tokens of a line after the part `acc` of a word; `;` starts a comment (R98). -/
def tokensFrom : List Char → List Char → List Token
  | acc, [] => flushWord acc []
  | acc, c :: cs =>
    if c = ';' then flushWord acc []
    else if c = ',' then flushWord acc (.comma :: tokensFrom [] cs)
    else if c = ' ' ∨ c = '\t' then flushWord acc (tokensFrom [] cs)
    else tokensFrom (acc ++ [c]) cs

/-- The value of a digit, decimal or hexadecimal. -/
def digitValue (c : Char) : Option Nat :=
  if '0' ≤ c ∧ c ≤ '9' then some (c.toNat - '0'.toNat)
  else if 'a' ≤ c ∧ c ≤ 'f' then some (c.toNat - 'a'.toNat + 10)
  else if 'A' ≤ c ∧ c ≤ 'F' then some (c.toNat - 'A'.toNat + 10)
  else none

/-- The number that digits in a base continue. -/
def digitsFrom (base : Nat) : Nat → List Char → Option Nat
  | n, [] => some n
  | n, c :: cs =>
    match digitValue c with
    | some d => if d < base then digitsFrom base (n * base + d) cs else none
    | none => none

/-- A number of one or more digits in a base. -/
def readDigits (base : Nat) (cs : List Char) : Option Nat :=
  match cs with
  | [] => none
  | c :: cs => digitsFrom base 0 (c :: cs)

/-- A number in decimal, or in hexadecimal with `0x` (R98). -/
def readNumber (cs : List Char) : Option Nat :=
  match cs with
  | '0' :: 'x' :: ds => readDigits 16 ds
  | ds => readDigits 10 ds

/-- A number below a bound. -/
def readBelow (bound : Nat) (cs : List Char) : Option Nat := (readNumber cs).filter fun n => decide (n < bound)

/-- A sample: signed decimal, or its 16 bits in hexadecimal (R98, R175). -/
def readSample (cs : List Char) : Option Sample :=
  match cs with
  | '-' :: ds => ((readDigits 10 ds).filter fun n => decide (n ≤ 32768)).map fun n => BitVec.ofInt 16 (-(n : Int))
  | '0' :: 'x' :: ds => ((readDigits 16 ds).filter fun n => decide (n < 65536)).map fun n => BitVec.ofNat 16 n
  | ds => ((readDigits 10 ds).filter fun n => decide (n < 32768)).map fun n => BitVec.ofNat 16 n

/-- A CSR by its name or by its number (R98). -/
def readCsr (cs : List Char) : Option (BitVec 8) :=
  match csrNames.findIdx? fun name => name.toList == cs with
  | some k => some (BitVec.ofNat 8 k)
  | none => (readBelow 256 cs).map fun n => BitVec.ofNat 8 n

/-- A flag operand, 0 or 1 (R98). -/
def readFlag (cs : List Char) : Option Bool := (readBelow 2 cs).map fun n => n == 1

/-- The samples of RS.PUSH, separated by spaces (R98). -/
def readSamples : List Token → Option (List Sample)
  | [] => some []
  | .comma :: _ => none
  | .word cs :: ts =>
    match readSample cs, readSamples ts with
    | some x, some xs => some (x :: xs)
    | _, _ => none

/-- The line that a mnemonic and its operands spell (R98, R99, R100). -/
def readOperands (mnemonic : String) (ops : List Token) : Option Line :=
  match mnemonic, ops with
  | "NOP", [] => some (.command .nop)
  | "RDCSR", [.word c] => (readCsr c).map fun csr => .command (.rdcsr csr)
  | "WRCSR", [.word c, .comma, .word d] =>
    match readCsr c, readBelow 65536 d with
    | some csr, some n => some (.command (.wrcsr csr (BitVec.ofNat 16 n)))
    | _, _ => none
  | "RS.PUSH", ts => ((readSamples ts).filter fun xs => decide (xs.length ≤ 65535)).map fun xs => .command (.rsPush xs)
  | "RS.POP", [] => some (.command .rsPop)
  | "RS.RESET", [] => some (.command .rsReset)
  | "FB.RD", [.word i] => (readBelow 256 i).map fun n => .command (.fbRd (BitVec.ofNat 8 n))
  | "FB.WR", [.word i, .comma, .word d] =>
    match readBelow 256 i, readSample d with
    | some n, some x => some (.command (.fbWr (BitVec.ofNat 8 n) x))
    | _, _ => none
  | "FP.PROC", [.word b, .comma, .word d] =>
    match readFlag b, readFlag d with
    | some bp, some de => some (.command (.fpProc bp de))
    | _, _ => none
  | "FP.RESET", [] => some (.command .fpReset)
  | "CK.NOW", [] => some (.command .ckNow)
  | "CK.LOCKED", [] => some (.command .ckLocked)
  | "CK.JITTER", [] => some (.command .ckJitter)
  | "CK.FIX", [.word e] => (readBelow (2 ^ 32) e).map fun n => .command (.ckFix (BitVec.ofNat 32 n))
  | "ARESET", [] => some .areset
  | "CLRERR", [] => some .clrerr
  | "SETCAL", [.word q] => (readBelow 65536 q).map fun n => .setcal (BitVec.ofNat 16 n)
  | "TICK", [.word n] => (readNumber n).map .tick
  | "PULSE", [] => some .pulse
  | "HWRESET", [] => some .hwreset
  | _, _ => none

/-- The line that a text is (R98, R99, R100); none where it is no line, or only a comment. -/
def readLine (text : String) : Option Line :=
  match tokensFrom [] text.toList with
  | .word m :: ops => readOperands (String.ofList m) ops
  | _ => none

/-- A line as R98 to R100 write it. -/
def lineText : Line → String
  | .command i => commandText i
  | .areset => "ARESET"
  | .clrerr => "CLRERR"
  | .setcal q => "SETCAL " ++ toString q.toNat
  | .tick us => "TICK " ++ toString us
  | .pulse => "PULSE"
  | .hwreset => "HWRESET"

end Sys2Proof.Machine
end

