-- ==== Sys2Proof/Safety.lean ====
section
/-!
DEFINITION. What claims about TVSP speak of: the invariants of spec/10_state.md R51, the states a run reaches, the
literal values of R7, the loops of spec/42_resampler.md R131 as a relation, and the tap sums of spec/43_filter_chain.md R151 in their
mathematical form.
-/

namespace Sys2Proof.Machine

/-- The state with words sent on the response port and nothing else changed. -/
def State.sends (s : State) (ws : List Word) : State := { s with responses := s.responses ++ ws }

/-- The constants of R7 have R7's values. Every state a run reaches from `State.reset` has them, since no step changes
the configuration. -/
abbrev State.AtR7 (s : State) : Prop := s.cfg.consts = Consts.r7

/-- R51 parts (e), (f), (g): LASTP is no later than MONO; before the first pulse LASTP and IVALID are 0; a measured
interval is no shorter than the debounce. -/
abbrev Clk.Ok (c : Config) (k : Clk) : Prop :=
  k.lastp.toNat ≤ k.mono.toNat
    ∧ (k.pulseSeen = false → k.lastp = 0#64 ∧ k.ivalValid = false)
    ∧ (k.ivalValid = true → c.consts.debounceUs ≤ k.ival.toNat)

/-- R51 part (a): ACC holds at most ACC_CAP samples. -/
abbrev Rsmp.Ok (c : Config) (u : Rsmp) : Prop := u.acc.length ≤ c.par.accCap

/-- R51 part (i): POS is not negative. -/
abbrev Rsmp.PosOk (u : Rsmp) : Prop := flt u.pos F.zero = false

/-- R51 parts (b), (c), (d), and R32: RSSI and NOISE are complements, RSSI is 0 or lies between the clamps, CAL is at
least 1.0, and the delay lines have a place for each tap. -/
abbrev Filt.Ok (c : Config) (u : Filt) : Prop :=
  u.rssi.toNat + u.noise.toNat = 255
    ∧ (u.rssi = 0#8 ∨ c.consts.rssiMin ≤ u.rssi.toNat ∧ u.rssi.toNat ≤ c.consts.rssiMax)
    ∧ c.consts.calMin.toNat ≤ u.cal.toNat
    ∧ u.hpz.length = c.par.hpTaps.length
    ∧ u.bpz.length = c.par.bpTaps.length

/-- R90: the words on the port are an incomplete command, or none. -/
abbrev State.PortOk (s : State) : Prop := decode s.pending = .error .incomplete

/-- The invariant of the block: R51 parts (a) to (g), the canonical form of FB, the lengths of the delay lines, and the
command port. Part (h) is about a response, and part (i) is `Rsmp.PosOk`. -/
abbrev State.Ok (s : State) : Prop :=
  s.clk.Ok s.cfg ∧ s.rsmp.Ok s.cfg ∧ s.filt.Ok s.cfg ∧ Memory.wf s.cfg.consts.frameLen s.fb = true ∧ s.PortOk

/-- The states a run reaches: from a block of a given configuration after a hardware reset, whatever arrives (R240). -/
inductive Reachable (c : Config) : State → Prop where
  | start (inputs : List Input) : Reachable c { State.atReset c with inputs := inputs }
  | next {s t : State} : Reachable c s → step s = .next t → Reachable c t

/-- The inner loop of R131 as it is written, `while flt(POS, i2f(i+1))`: from one state to the state it leaves. A pass
stores `clip16(fadd(PREV, fmul(fsub(cur, PREV), fsub(POS, i2f(i)))))` and then adds STEP to POS. -/
inductive LoopRuns (i : Nat) (cur : F) : State → State → Prop where
  | done {s : State} : flt s.rsmp.pos (i2f (i + 1)) = false → LoopRuns i cur s s
  | pass {s u t : State} : flt s.rsmp.pos (i2f (i + 1)) = true →
      u = accStore (clip16 (fadd s.rsmp.prev (fmul (fsub cur s.rsmp.prev) (fsub s.rsmp.pos (i2f i))))) s →
      LoopRuns i cur { u with rsmp := { u.rsmp with pos := fadd s.rsmp.pos s.cfg.par.step } } t → LoopRuns i cur s t

/-- R130's new LP as it is written, `fadd(fmul(RS_ALPHA, x), fmul(RS_BETA, LP))` with
`RS_BETA = fsub(i2f(1), RS_ALPHA)`. -/
def lowPassValue (rsAlpha lp : F) (x : Sample) : F :=
  fadd (fmul rsAlpha (i2f x.toInt)) (fmul (fsub (i2f 1) rsAlpha) lp)

/-- The outer loop of R131 as it is written, from input sample `i` on: each sample is filtered, its while loop run to the
end, and its filtered value remembered. -/
inductive PushRuns : Nat → List Sample → State → State → Prop where
  | done {i : Nat} {s : State} : PushRuns i [] s s
  | sample {i : Nat} {x : Sample} {xs : List Sample} {cur : F} {s t u : State} :
      cur = lowPassValue s.cfg.par.rsAlpha s.rsmp.lp x →
      LoopRuns i cur { s with rsmp := { s.rsmp with lp := cur } } t →
      PushRuns (i + 1) xs { t with rsmp := { t.rsmp with prev := cur } } u →
      PushRuns i (x :: xs) s u

/-- The anti-alias filter's values for input samples in order (R130): LP after each. -/
def lowPassOutputs (c : Config) : F → List Sample → List F
  | _, [] => []
  | lp, x :: xs => lowPassValue c.par.rsAlpha lp x :: lowPassOutputs c (lowPassValue c.par.rsAlpha lp x) xs

/-- The input of R151's sum for output `n`, `k` places back: `x[n-k]` of this run, or what the delay line held before it
where `k` reaches past the run's first sample. -/
def firInput (z xs : List F) (n k : Nat) : F := if k ≤ n then xs.getD (n - k) F.zero else z.getD (k - n - 1) F.zero

/-- R151's sum for output `n` in its mathematical form, `h[k] * x[n-k]` added over `k` in order from +0. -/
def firOutput (taps z xs : List F) (n : Nat) : F :=
  (List.range taps.length).foldl (fun a k => fadd a (fmul (taps.getD k F.zero) (firInput z xs n k))) F.zero

/-- Every number of the list is a zero, of either sign (R158). -/
def allZero (zs : List F) : Prop := ∀ z ∈ zs, z.units = 0

/-- The commands that belong to no CLK operation and to no register that a pulse step writes: what they do and what they
leave does not depend on where a pulse falls (R69, R196). RDCSR of ERR and of CK_FLAGS and WRCSR of ERR reach what a
pulse writes (log 17). -/
def apartFromClk : Instr → Bool
  | .nop => true
  | .rdcsr csr => !(csr == 0x01#8) && !(csr == 0x07#8)
  | .wrcsr csr _ => !(csr == 0x01#8)
  | .rsPush _ => true
  | .rsPop => true
  | .rsReset => true
  | .fbRd _ => true
  | .fbWr _ _ => true
  | .fpProc _ _ => true
  | .fpReset => true
  | .ckNow => false
  | .ckLocked => false
  | .ckJitter => false
  | .ckFix _ => false

/-- The commands that read or write the flags of ERR on purpose: RDCSR ERR and WRCSR ERR. -/
def namesErr : Instr → Bool
  | .rdcsr csr => csr == 0x01#8
  | .wrcsr csr _ => csr == 0x01#8
  | .nop => false
  | .rsPush _ => false
  | .rsPop => false
  | .rsReset => false
  | .fbRd _ => false
  | .fbWr _ _ => false
  | .fpProc _ _ => false
  | .fpReset => false
  | .ckNow => false
  | .ckLocked => false
  | .ckJitter => false
  | .ckFix _ => false

end Sys2Proof.Machine
end

