-- ==== Sys2Proof/Certificates/Slice0/Obligations.lean ====
section
/-!
DEFINITION. The statements about TVSP for the provers. Each docstring names the rules of spec/ it formalises.

`s.AtR7` says that the constants of the configuration have the values of R7; where a rule gives a number, the statement has
that number and this premise.
-/

open Sys2Proof Sys2Proof.Machine

/-! ### Encoding -/

/-- Words written out from the tables of R81 to R88 decode to the commands they stand for. -/
def Obligations.WrittenOutWordsDecode : Prop :=
  decode [0x00000000#32] = .ok (.nop, [])
    ∧ decode [0x01060000#32] = .ok (.rdcsr 0x06#8, [])
    ∧ decode [0x02040180#32] = .ok (.wrcsr 0x04#8 0x0180#16, [])
    ∧ decode [0x10000002#32, 0x00000001#32, 0xABCDFFFF#32] = .ok (.rsPush [0x0001#16, 0xFFFF#16], [])
    ∧ decode [0x2101FC18#32] = .ok (.fbWr 1#8 0xFC18#16, [])
    ∧ decode [0x30000002#32] = .ok (.fpProc false true, [])
    ∧ decode [0x43000000#32, 0x6553F100#32] = .ok (.ckFix 0x6553F100#32, [])

/-- R80 to R90: the words of a well-formed command decode to that command, whatever words come after them. -/
def Obligations.EncodedCommandDecodesToItself : Prop :=
  ∀ (i : Instr) (rest : List Word), i.WellFormed → decode (encode i ++ rest) = .ok (i, rest)

/-- R86, R88: words that decode to a command are its command word, as many payload words as its encoding has, with the
same operands in them, and the words left over. Each command word has one meaning, and no decoded command is ill-formed. -/
def Obligations.DecodedWordsAreItsEncoding : Prop :=
  ∀ (ws : List Word) (i : Instr) (rest : List Word), decode ws = .ok (i, rest) →
    i.WellFormed ∧ ∃ (w : Word) (payload : List Word), ws = w :: (payload ++ rest) ∧ (encode i).head? = some w
      ∧ payload.length + 1 = (encode i).length ∧ payload.map payloadSample = (encode i).tail.map payloadSample
      ∧ ((∀ samples : List Sample, i ≠ .rsPush samples) → payload = (encode i).tail)

/-- R86: a word is a command exactly when `w AND mask = match`. -/
def Obligations.RowSelectedByMaskAndMatch : Prop :=
  ∀ (o : Op) (w : Word), (decodeOp w = some o ↔ w &&& o.maskWord = o.matchWord)

/-- R89: the length of a command from its command word alone. -/
def Obligations.LengthFromCommandWordAlone : Prop :=
  ∀ w : Word,
    (w &&& 0xFFFF0000#32 = 0x10000000#32 → commandLength w = 1 + w.toNat % 65536)
      ∧ (w = 0x43000000#32 → commandLength w = 2)
      ∧ (w &&& 0xFFFF0000#32 ≠ 0x10000000#32 → w ≠ 0x43000000#32 → commandLength w = 1)

/-- R96: the 242 unused opcodes are illegal, whatever the other bits hold. -/
def Obligations.UnusedOpcodesAreIllegal : Prop :=
  ∀ w : Word,
    (0x03 ≤ w.toNat / 2 ^ 24 ∧ w.toNat / 2 ^ 24 ≤ 0x0F ∨ 0x13 ≤ w.toNat / 2 ^ 24 ∧ w.toNat / 2 ^ 24 ≤ 0x1F
      ∨ 0x22 ≤ w.toNat / 2 ^ 24 ∧ w.toNat / 2 ^ 24 ≤ 0x2F ∨ 0x32 ≤ w.toNat / 2 ^ 24 ∧ w.toNat / 2 ^ 24 ≤ 0x3F
      ∨ 0x44 ≤ w.toNat / 2 ^ 24) → ∀ ws : List Word, decode (w :: ws) = .error (.illegal w)

/-- R99: the words of the three pseudo-instructions, and that CLRERR clears all seven flags. -/
def Obligations.PseudoInstructionsAssemble : Prop :=
  lineWords .areset = [0x12000000#32, 0x31000000#32] ∧ lineWords .clrerr = [0x0201FFFF#32]
    ∧ (∀ q : BitVec 16, lineWords (.setcal q) = encode (.wrcsr 0x04#8 q))
    ∧ ∀ s : State, ∃ t, exec (.wrcsr 0x01#8 0xFFFF#16) s = .next t ∧ t.err = 0#7

/-! ### The command port and the agents -/

/-- R80, R90: when the words that have arrived are a command, the step is the command's meaning at the state with the word
taken from the inputs and the port holding what is left over. -/
def Obligations.StepRunsDecodedCommand : Prop :=
  ∀ (s : State) (w : Word) (rest : List Input) (i : Instr) (left : List Word),
    s.inputs = .word w :: rest → decode (s.pending ++ [w]) = .ok (i, left) →
      step s = exec i { s with inputs := rest, pending := left }

/-- R80, R90: the words of a well-formed command, delivered one after the other to a port with nothing pending, perform
that command and nothing else: as many steps as it has words end where its meaning ends. -/
def Obligations.DeliveredCommandIsPerformedOnce : Prop :=
  ∀ (i : Instr) (s : State) (rest : List Input), i.WellFormed → s.pending = [] →
    s.inputs = (encode i).map Input.word ++ rest →
      Sys2Proof.core.run (encode i).length s = exec i { s with inputs := rest }

/-- R90: a command whose payload has not all arrived has changed no state and sent no response. -/
def Obligations.IncompleteCommandIsPending : Prop :=
  ∀ (s : State) (w : Word) (rest : List Input), s.inputs = .word w :: rest →
    decode (s.pending ++ [w]) = .error .incomplete →
      step s = .next { s with inputs := rest, pending := s.pending ++ [w] }

/-- R95: a word that matches no row of R86 sets ILL, changes nothing else, answers `{w[31:24], 0x01, 0x0000}` and leaves the
port free for the next word. -/
def Obligations.IllegalWordIsReported : Prop :=
  ∀ (s : State) (w : Word) (rest : List Input), s.pending = [] → s.inputs = .word w :: rest →
    (∀ o : Op, w &&& o.maskWord ≠ o.matchWord) →
      step s = .next { s with
        inputs := rest
        err := s.err ||| 0x04#7
        responses := s.responses ++ [BitVec.ofNat 32 (w.toNat / 2 ^ 24 * 2 ^ 24 + 0x010000)] }

/-- R13, R21: an advance of MONO changes nothing but MONO, whatever is pending. An advance that would pass the top of MONO,
which R21 says never comes, is refused (the model's choice, log 9). -/
def Obligations.TimeMovesOnlyMono : Prop :=
  ∀ (s : State) (us : Nat) (rest : List Input), s.inputs = .tick us :: rest →
    (s.clk.mono.toNat + us < 2 ^ 64 → ∃ m : BitVec 64, m.toNat = s.clk.mono.toNat + us
      ∧ step s = .next { s with inputs := rest, clk := { s.clk with mono := m } })
    ∧ (2 ^ 64 ≤ s.clk.mono.toNat + us → step s = .refused .timePastEnd)

/-- R220, R50: after a hardware reset every piece of state has the value of R50's table and no command is pending; the
responses already sent are not recalled. -/
def Obligations.HardwareResetPutsEveryValue : Prop :=
  ∀ (s : State) (rest : List Input), s.AtR7 → s.inputs = .hwReset :: rest →
    step s = .next {
      cfg := s.cfg
      clk := { mono := 0#64, secs := 0#32, lastp := 0#64, ival := 1000000#64,
               haveFix := false, pulseSeen := false, ivalValid := false }
      rsmp := { lp := F.zero, prev := F.zero, pos := F.zero, acc := [], ovfCnt := 0#32 }
      filt := { hpz := List.replicate s.cfg.par.hpTaps.length F.zero,
                bpz := List.replicate s.cfg.par.bpTaps.length F.zero,
                dey := F.zero, rssi := 0#8, noise := 255#8, cal := 0x0100#16 }
      fb := []
      err := 0#7
      pending := []
      inputs := rest
      responses := s.responses }

/-- R50, R7: the block as built starts with the values of R50's table and R7's constants, every location of FB holding 0.
(That nothing arrives and nothing has been sent is the model's, log 4 and log 5.) -/
def Obligations.ResetStateHasTableValues : Prop :=
  State.reset.AtR7 ∧ State.reset.cfg.deAlpha.bits = 0x3E4CCCCD#32
    ∧ State.reset.clk = { mono := 0#64, secs := 0#32, lastp := 0#64, ival := 1000000#64,
                          haveFix := false, pulseSeen := false, ivalValid := false }
    ∧ State.reset.rsmp = { lp := F.zero, prev := F.zero, pos := F.zero, acc := [], ovfCnt := 0#32 }
    ∧ (∀ z ∈ State.reset.filt.hpz, z = F.zero) ∧ State.reset.filt.hpz.length = State.reset.cfg.par.hpTaps.length
    ∧ (∀ z ∈ State.reset.filt.bpz, z = F.zero) ∧ State.reset.filt.bpz.length = State.reset.cfg.par.bpTaps.length
    ∧ State.reset.filt.dey = F.zero ∧ State.reset.filt.rssi = 0#8 ∧ State.reset.filt.noise = 255#8
    ∧ State.reset.filt.cal = 0x0100#16 ∧ (∀ a : Nat, fbRead State.reset.fb a = 0#16) ∧ State.reset.err = 0#7
    ∧ State.reset.pending = []

/-! ### The clock -/

/-- R110, R111: the pulse step, with its debounce, its increment by the nearest whole seconds and its stop at the top. -/
def Obligations.PulseStepAsWritten : Prop :=
  ∀ (s : State) (rest : List Input), s.AtR7 → s.inputs = .pulse :: rest →
    let e := s.clk.mono.toNat - s.clk.lastp.toNat
    let sum := s.clk.secs.toNat + max 1 ((e + 500000) / 1000000)
    (s.clk.pulseSeen = true ∧ e < 900000 → step s = .next { s with inputs := rest })
    ∧ (¬ (s.clk.pulseSeen = true ∧ e < 900000) → step s = .next { s with
        inputs := rest
        clk := { s.clk with
          secs := if 0xFFFFFFFF < sum then 0xFFFFFFFF#32 else BitVec.ofNat 32 sum
          ival := if s.clk.pulseSeen = true then BitVec.ofNat 64 e else s.clk.ival
          ivalValid := s.clk.pulseSeen || s.clk.ivalValid
          lastp := s.clk.mono
          pulseSeen := true }
        err := if 0xFFFFFFFF < sum then s.err ||| 0x40#7 else s.err })

/-- R112, and R51 part (h): CK.NOW answers whole seconds and nanoseconds below 1,000,000,000, and changes no state. -/
def Obligations.CkNowAnswersTimestamp : Prop :=
  ∀ s : State, s.AtR7 →
    let e := s.clk.mono.toNat - s.clk.lastp.toNat
    exec .ckNow s = .next (s.sends [0x40000000#32,
      BitVec.ofNat 32 (min (s.clk.secs.toNat + e / 1000000) 0xFFFFFFFF), BitVec.ofNat 32 (e % 1000000 * 1000)])
      ∧ (BitVec.ofNat 32 (e % 1000000 * 1000)).toNat = e % 1000000 * 1000 ∧ e % 1000000 * 1000 < 1000000000

/-- R113: CK.LOCKED answers 1 exactly when a fix and a pulse have been and the pulse is at most 1,100,000 microseconds old,
and changes no state. -/
def Obligations.CkLockedAnswersLock : Prop :=
  ∀ s : State, s.AtR7 →
    (s.clk.haveFix = true ∧ s.clk.pulseSeen = true ∧ s.clk.mono.toNat - s.clk.lastp.toNat ≤ 1100000 →
      exec .ckLocked s = .next (s.sends [0x41000001#32]))
    ∧ (¬ (s.clk.haveFix = true ∧ s.clk.pulseSeen = true ∧ s.clk.mono.toNat - s.clk.lastp.toNat ≤ 1100000) →
      exec .ckLocked s = .next (s.sends [0x41000000#32]))

/-- R114: CK.JITTER answers `abs(IVAL - 1,000,000)`, stopped at 0xFFFFFFFF, and changes no state. -/
def Obligations.CkJitterAnswersDeviation : Prop :=
  ∀ s : State, s.AtR7 →
    exec .ckJitter s = .next (s.sends [0x42000000#32,
      BitVec.ofNat 32 (min ((s.clk.ival.toNat : Int) - 1000000).natAbs 0xFFFFFFFF)])

/-- R115: CK.FIX overwrites SECS if the clock is not locked or the fix is more than 2 seconds away, and sets HAVEFIX either
way; nothing else changes. -/
def Obligations.CkFixOverwritesOrKeeps : Prop :=
  ∀ (s : State) (epoch : BitVec 32), s.AtR7 →
    let kept := s.clk.haveFix = true ∧ s.clk.pulseSeen = true ∧ s.clk.mono.toNat - s.clk.lastp.toNat ≤ 1100000
      ∧ ((epoch.toNat : Int) - s.clk.secs.toNat).natAbs ≤ 2
    (kept → exec (.ckFix epoch) s = .next { s with
        clk := { s.clk with haveFix := true }, responses := s.responses ++ [0x43000000#32] })
    ∧ (¬ kept → exec (.ckFix epoch) s = .next { s with
        clk := { s.clk with secs := epoch, haveFix := true }, responses := s.responses ++ [0x43000001#32] })

/-- R116: with no write of the clock between, the Timestamp does not fall as MONO moves on, and rises whenever MONO has
moved, as long as the seconds have not stopped at the top. -/
def Obligations.TimestampRisesWithMono : Prop :=
  ∀ (c : Config) (k : Clk) (later : BitVec 64), c.consts = Consts.r7 → k.lastp.toNat ≤ k.mono.toNat →
    k.mono.toNat < later.toNat →
    k.secs.toNat + elapsed { k with mono := later } / 1000000 ≤ 0xFFFFFFFF →
      nowSeconds c k * 1000000000 + nowNanoseconds c k
        < nowSeconds c { k with mono := later } * 1000000000 + nowNanoseconds c { k with mono := later }

/-- R116, R233: across an accepted pulse that comes `q` seconds and `r` microseconds after the last (or, for the first
pulse, after reset) the Timestamp steps back by `r` microseconds, which is not at all for `r` = 0, if `q` is at least 1 and
`r` below 500,000; otherwise (`r` from 500,000 up, or `q` = 0, a pulse 0.9 to 1.0 s after the last or a first pulse within
a second of reset) it jumps forward by `1,000,000 - r`, as long as the seconds do not stop at the top. -/
def Obligations.TimestampAcrossAcceptedPulse : Prop :=
  ∀ (s : State) (q r : Nat), s.AtR7 → debounced s.cfg s.clk = false → elapsed s.clk = 1000000 * q + r →
    r < 1000000 → s.clk.secs.toNat + q + 1 ≤ 0xFFFFFFFF →
      let stamp := fun t : State => nowSeconds t.cfg t.clk * 1000000000 + nowNanoseconds t.cfg t.clk
      (1 ≤ q ∧ r < 500000 → stamp (pulseStep s) + r * 1000 = stamp s)
        ∧ (q = 0 ∨ 500000 ≤ r → stamp (pulseStep s) = stamp s + (1000000 - r) * 1000)

/-! ### System commands and the frame buffer -/

/-- R170: NOP changes no state and answers `{0x00, 0x00, 0x0000}`. -/
def Obligations.NopChangesNothing : Prop := ∀ s : State, exec .nop s = .next (s.sends [0x00000000#32])

/-- R171 for the implemented numbers, with R41 to R48 for the values: each register as one data word, no state changed. -/
def Obligations.RdcsrReadsEachRegister : Prop :=
  ∀ s : State, s.AtR7 →
    exec (.rdcsr 0x00#8) s = .next (s.sends [0x01000000#32, 0x54560007#32])
    ∧ exec (.rdcsr 0x01#8) s = .next (s.sends [0x01000000#32, BitVec.ofNat 32 s.err.toNat])
    ∧ exec (.rdcsr 0x02#8) s = .next (s.sends [0x01000000#32, BitVec.ofNat 32 s.rsmp.acc.length])
    ∧ exec (.rdcsr 0x03#8) s = .next (s.sends [0x01000000#32, s.rsmp.ovfCnt])
    ∧ exec (.rdcsr 0x04#8) s = .next (s.sends [0x01000000#32, BitVec.ofNat 32 s.filt.cal.toNat])
    ∧ exec (.rdcsr 0x05#8) s = .next (s.sends [0x01000000#32, BitVec.ofNat 32 s.filt.rssi.toNat])
    ∧ exec (.rdcsr 0x06#8) s = .next (s.sends [0x01000000#32, BitVec.ofNat 32 s.filt.noise.toNat])
    ∧ exec (.rdcsr 0x07#8) s = .next (s.sends [0x01000000#32,
        BitVec.ofNat 32 (s.clk.haveFix.toNat + 2 * s.clk.pulseSeen.toNat + 4 * s.clk.ivalValid.toNat)])
    ∧ exec (.rdcsr 0x08#8) s = .next (s.sends [0x01000000#32,
        BitVec.ofNat 32 (s.cfg.par.hpTaps.length + 256 * s.cfg.par.bpTaps.length + 65536 * (s.cfg.par.accCap / 160))])

/-- R49: RDCSR of an unimplemented number and WRCSR of an unimplemented or read-only one set CSR, answer E_CSR, and change
nothing else. -/
def Obligations.CsrAccessRefusedWithECsr : Prop :=
  (∀ (s : State) (csr : BitVec 8), 0x09 ≤ csr.toNat →
    exec (.rdcsr csr) s = .next { s with err := s.err ||| 0x08#7, responses := s.responses ++ [0x01020000#32] })
  ∧ ∀ (s : State) (csr : BitVec 8) (d : BitVec 16), csr.toNat ≠ 0x01 → csr.toNat ≠ 0x04 →
    exec (.wrcsr csr d) s = .next { s with err := s.err ||| 0x08#7, responses := s.responses ++ [0x02020000#32] }

/-- R45: WRCSR CAL stores `max(d, 0x0100)`, sets CFG if it clamped, and answers the value stored; nothing else changes. -/
def Obligations.WrcsrCalStoresClamped : Prop :=
  ∀ (s : State) (d : BitVec 16), s.AtR7 →
    (d.toNat < 0x0100 → exec (.wrcsr 0x04#8 d) s = .next { s with
        filt := { s.filt with cal := 0x0100#16 }, err := s.err ||| 0x02#7,
        responses := s.responses ++ [0x02000100#32] })
    ∧ (0x0100 ≤ d.toNat → exec (.wrcsr 0x04#8 d) s = .next { s with
        filt := { s.filt with cal := d }, responses := s.responses ++ [BitVec.ofNat 32 (0x02000000 + d.toNat)] })

/-- R42, R172: WRCSR ERR clears exactly the flags whose bit in the datum is 1, and answers the flags that remain; nothing
else changes. -/
def Obligations.WrcsrErrClearsNamedFlags : Prop :=
  ∀ (s : State) (d : BitVec 16), ∃ e : Err,
    exec (.wrcsr 0x01#8 d) s = .next { s with
      err := e, responses := s.responses ++ [BitVec.ofNat 32 (0x02000000 + e.toNat)] }
    ∧ ∀ k < 7, e.getLsbD k = (s.err.getLsbD k && !d.getLsbD k)

/-- R174: FB.RD of a location that exists answers its sample and changes no state; of any other it is E_IDX. -/
def Obligations.FbRdAnswersSample : Prop :=
  ∀ (s : State) (idx : BitVec 8), s.AtR7 →
    (idx.toNat ≤ 159 → exec (.fbRd idx) s = .next
      (s.sends [BitVec.ofNat 32 (0x20000000 + (fbRead s.fb idx.toNat).toNat)]))
    ∧ (160 ≤ idx.toNat → exec (.fbRd idx) s = .next { s with
        err := s.err ||| 0x20#7, responses := s.responses ++ [0x20040000#32] })

/-- R175: FB.WR of a location that exists stores the sample there and leaves every other location as it was; of any other it
is E_IDX with nothing written. The frame buffer is taken in its canonical form, which every step keeps. -/
def Obligations.FbWrStoresOneSample : Prop :=
  ∀ (s : State) (idx : BitVec 8) (d : Sample), s.AtR7 → Memory.wf 160 s.fb = true →
    (idx.toNat ≤ 159 → ∃ m : Memory, exec (.fbWr idx d) s = .next { s with
        fb := m, responses := s.responses ++ [0x21000000#32] }
      ∧ fbRead m idx.toNat = d ∧ (∀ a : Nat, a ≠ idx.toNat → fbRead m a = fbRead s.fb a) ∧ Memory.wf 160 m = true)
    ∧ (160 ≤ idx.toNat → exec (.fbWr idx d) s = .next { s with
        err := s.err ||| 0x20#7, responses := s.responses ++ [0x21040000#32] })

/-! ### The resampler -/

/-- R135: RS.POP with 160 samples or more moves the oldest 160 into FB and answers the frames left; with fewer it is
E_UNDER. Nothing else changes. -/
def Obligations.RsPopMovesOldestFrame : Prop :=
  ∀ s : State, s.AtR7 →
    (160 ≤ s.rsmp.acc.length → ∃ m : Memory, exec .rsPop s = .next { s with
        fb := m
        rsmp := { s.rsmp with acc := s.rsmp.acc.drop 160 }
        responses := s.responses ++ [BitVec.ofNat 32 (0x11000000 + min ((s.rsmp.acc.length - 160) / 160) 65535)] }
      ∧ (∀ a < 160, some (fbRead m a) = s.rsmp.acc[a]?) ∧ Memory.wf 160 m = true)
    ∧ (s.rsmp.acc.length < 160 → exec .rsPop s = .next { s with
        err := s.err ||| 0x10#7, responses := s.responses ++ [0x11030000#32] })

/-- R136: RS.RESET puts LP, PREV and POS at +0 and empties ACC, and leaves everything else, OVF_CNT among it. -/
def Obligations.RsResetReachesResamplerOnly : Prop :=
  ∀ s : State, exec .rsReset s = .next { s with
    rsmp := { lp := F.zero, prev := F.zero, pos := F.zero, acc := [], ovfCnt := s.rsmp.ovfCnt }
    responses := s.responses ++ [0x12000000#32] }

/-- R133: an append to an ACC with room adds at the tail; one to a full ACC drops everything in it, counts up to the top,
sets OVF, and the sample becomes the first of a new frame. LP, PREV, POS and everything else stay. -/
def Obligations.AccStoreAppendsOrStartsOver : Prop :=
  ∀ (s : State) (v : Sample),
    (s.rsmp.acc.length ≠ s.cfg.par.accCap → accStore v s = { s with
        rsmp := { s.rsmp with acc := s.rsmp.acc ++ [v] } })
    ∧ (s.rsmp.acc.length = s.cfg.par.accCap → accStore v s = { s with
        rsmp := { s.rsmp with
          acc := [v]
          ovfCnt := if s.rsmp.ovfCnt = 0xFFFFFFFF#32 then 0xFFFFFFFF#32 else s.rsmp.ovfCnt + 1#32 }
        err := s.err ||| 0x01#7 })

/-- R130, R131, R133, R134: RS.PUSH from a POS that is not negative completes for every block; it leaves CLK, FILT, FB, the port
and every flag but OVF as they were, no flag is lost and the overflow count does not fall, LP is the filter run over the
samples in order, PREV is the last of its values, and the answer is the number of whole frames in ACC. -/
def Obligations.RsPushCompletesWithinResampler : Prop :=
  ∀ (s : State) (samples : List Sample), s.AtR7 → s.rsmp.PosOk → ∃ t : State, exec (.rsPush samples) s = .next t
    ∧ t.cfg = s.cfg ∧ t.clk = s.clk ∧ t.filt = s.filt ∧ t.fb = s.fb ∧ t.pending = s.pending ∧ t.inputs = s.inputs
    ∧ (t.err = s.err ∨ t.err = s.err ||| 0x01#7) ∧ s.rsmp.ovfCnt.toNat ≤ t.rsmp.ovfCnt.toNat
    ∧ t.rsmp.lp = samples.foldl (fun lp x => fadd (fmul s.cfg.par.rsAlpha (i2f x.toInt))
        (fmul (fsub (i2f 1) s.cfg.par.rsAlpha) lp)) s.rsmp.lp
    ∧ t.rsmp.prev = (if samples = [] then s.rsmp.prev else t.rsmp.lp)
    ∧ t.responses = s.responses ++ [BitVec.ofNat 32 (0x10000000 + min (t.rsmp.acc.length / 160) 65535)]

/-- R131 (corner case `len` = 0): the empty push changes nothing and answers with the frames already available. -/
def Obligations.EmptyPushChangesNothing : Prop :=
  ∀ s : State, s.AtR7 → exec (.rsPush []) s = .next
    (s.sends [BitVec.ofNat 32 (0x10000000 + min (s.rsmp.acc.length / 160) 65535)])

/-- R130, R131: from a POS that is not negative, RS.PUSH is the two loops of the pseudocode, with the filter and the
interpolation written out (`lowPassValue`, `LoopRuns`): each while loop ends because its
condition is false and not before, POS is then reduced by the block length, and the whole frames are answered (R134). -/
def Obligations.RsPushRunsTheWhileLoops : Prop :=
  ∀ (s : State) (samples : List Sample), s.AtR7 → s.rsmp.PosOk → samples.length ≤ 65535 →
    ∃ t : State, PushRuns 0 samples s t ∧ exec (.rsPush samples) s = .next { t with
      rsmp := { t.rsmp with pos := fsub t.rsmp.pos (i2f samples.length) }
      responses := t.responses ++ [BitVec.ofNat 32 (0x10000000 + min (t.rsmp.acc.length / 160) 65535)] }

/-- R131 (corner case STEP = 1): every input sample produces exactly one output, the clipped filtered value of the sample
before, and POS is +0 again, when the outputs fit into ACC. That POS is the zero of positive sign is the model's choice
where R10 leaves the sign of a zero result open (log 13); V-RS-1 of spec/95_test_vectors.md reads POS = +0. -/
def Obligations.UnitStepDelaysByOneSample : Prop :=
  ∀ (s : State) (samples : List Sample), s.cfg.par.step.bits = 0x3F800000#32 → s.rsmp.pos = F.zero →
    samples.length ≤ 65535 → s.rsmp.acc.length + samples.length ≤ s.cfg.par.accCap →
      ∃ t : State, exec (.rsPush samples) s = .next t ∧ t.rsmp.pos = F.zero ∧ t.err = s.err
        ∧ t.rsmp.ovfCnt = s.rsmp.ovfCnt
        ∧ t.rsmp.acc = s.rsmp.acc
            ++ ((s.rsmp.prev :: lowPassOutputs s.cfg s.rsmp.lp samples).take samples.length).map clip16

/-- R51 part (i): POS is not negative, and every step keeps it so. -/
def Obligations.PosNeverTurnsNegative : Prop :=
  ∀ s t : State, s.rsmp.PosOk → step s = .next t → t.rsmp.PosOk

/-! ### The filter chain -/

/-- R150, R152, R156: FP.PROC completes for every frame and both flags; it leaves CLK, RSMP, ERR, CAL and the port as they
were, BPZ too when `bp` is 0 and DEY too when `de` is 0; HPZ holds the newest samples of the frame as it came in, before
what it held; RSSI is 10 to 255, NOISE its complement, and the answer carries RSSI. -/
def Obligations.FpProcCompletesWithinFilter : Prop :=
  ∀ (s : State) (bp de : Bool), s.AtR7 → ∃ t : State, exec (.fpProc bp de) s = .next t
    ∧ t.cfg = s.cfg ∧ t.clk = s.clk ∧ t.rsmp = s.rsmp ∧ t.err = s.err ∧ t.pending = s.pending ∧ t.inputs = s.inputs
    ∧ t.filt.cal = s.filt.cal ∧ (bp = false → t.filt.bpz = s.filt.bpz) ∧ (de = false → t.filt.dey = s.filt.dey)
    ∧ t.filt.hpz = (((List.range 160).map fun n => i2f (fbRead s.fb n).toInt).reverse ++ s.filt.hpz).take
        s.cfg.par.hpTaps.length
    ∧ 10 ≤ t.filt.rssi.toNat ∧ t.filt.rssi.toNat + t.filt.noise.toNat = 255 ∧ Memory.wf 160 t.fb = true
    ∧ t.responses = s.responses ++ [BitVec.ofNat 32 (0x30000000 + t.filt.rssi.toNat)]

/-- R155: with both flags 0 the frame comes back exactly as it went in. -/
def Obligations.BothStagesOffKeepTheFrame : Prop :=
  ∀ s : State, s.AtR7 → Memory.wf 160 s.fb = true →
    ∃ t : State, exec (.fpProc false false) s = .next t ∧ t.fb = s.fb

/-- R158, first sentence: with every delay line, DEY and FB all zero, FP.PROC with any flags leaves FB all zero, gives RSSI
255 and NOISE 0, and leaves the filter state all zeros. CAL is taken as legal, which every step keeps (R51 part (d)). -/
def Obligations.SilenceGivesFullRssi : Prop :=
  ∀ (s : State) (bp de : Bool), s.AtR7 → s.fb = [] → allZero s.filt.hpz → allZero s.filt.bpz → s.filt.dey.units = 0 →
    0x0100 ≤ s.filt.cal.toNat →
      ∃ t : State, exec (.fpProc bp de) s = .next t ∧ t.fb = [] ∧ t.filt.rssi = 255#8 ∧ t.filt.noise = 0#8
        ∧ allZero t.filt.hpz ∧ allZero t.filt.bpz ∧ t.filt.dey.units = 0

/-- R159: the result for sample `n` depends on the samples 0 to `n` of the frame and on the filter state, never on later
samples. -/
def Obligations.LaterSamplesDoNotMatter : Prop :=
  ∀ (s : State) (m : Memory) (n : Nat) (bp de : Bool), n < s.cfg.consts.frameLen →
    (∀ a ≤ n, fbRead m a = fbRead s.fb a) →
      ∃ t u : State, exec (.fpProc bp de) s = .next t ∧ exec (.fpProc bp de) { s with fb := m } = .next u
        ∧ ∀ a ≤ n, fbRead u.fb a = fbRead t.fb a

/-- R151: over a run of samples the FIR primitive answers for each the sum of its mathematical form, and leaves a delay
line of the newest samples, the newest first, before what it held. -/
def Obligations.FirAnswersTapSums : Prop :=
  ∀ (taps z xs : List F), z.length = taps.length →
    (firRun taps z xs).1 = (List.range xs.length).map (firOutput taps z xs)
      ∧ (firRun taps z xs).2 = (xs.reverse ++ z).take taps.length

/-- R150, R153, R154, R155, R156: the frame FP.PROC leaves, and the states of the two stages of the audio path. `v` is the
value after the band-pass stage, `y` the value after the de-emphasis stage. -/
def Obligations.FpProcFrameAsWritten : Prop :=
  ∀ (s : State) (bp de : Bool), s.AtR7 → s.filt.bpz.length = s.cfg.par.bpTaps.length →
    let xin := (List.range 160).map fun n => i2f (fbRead s.fb n).toInt
    ∃ (t : State) (v y : Nat → F), exec (.fpProc bp de) s = .next t
      ∧ (∀ n < 160, v n = if bp then firOutput s.cfg.par.bpTaps s.filt.bpz xin n else i2f (fbRead s.fb n).toInt)
      ∧ (∀ n < 160, y n = if de then
            fadd (fmul s.cfg.deAlpha (v n)) (fmul (fsub (i2f 1) s.cfg.deAlpha) (if n = 0 then s.filt.dey else y (n - 1)))
          else v n)
      ∧ (∀ n < 160, fbRead t.fb n = clip16 (y n))
      ∧ t.filt.bpz = (if bp then (xin.reverse ++ s.filt.bpz).take s.cfg.par.bpTaps.length else s.filt.bpz)
      ∧ t.filt.dey = (if de then y 159 else s.filt.dey)

/-- R152: the RSSI byte FP.PROC writes, from the frame as it came in, NOISE, and the delay line HPZ. -/
def Obligations.FpProcRssiAsWritten : Prop :=
  ∀ (s : State) (bp de : Bool), s.AtR7 → s.filt.hpz.length = s.cfg.par.hpTaps.length →
    let xin := (List.range 160).map fun n => i2f (fbRead s.fb n).toInt
    let ss := (List.range 160).foldl (fun a n => fadd a
      (fmul (firOutput s.cfg.par.hpTaps s.filt.hpz xin n) (firOutput s.cfg.par.hpTaps s.filt.hpz xin n))) F.zero
    let rms := fsqrt (fdiv ss (i2f 160))
    let calf := fdiv (i2f s.filt.cal.toNat) (i2f 256)
    let v := fsub (i2f 255) (fdiv (fmul rms s.cfg.par.rssiScale) calf)
    ∃ t : State, exec (.fpProc bp de) s = .next t
      ∧ t.filt.rssi = (if flt v (i2f 10) then 10#8 else if flt (i2f 255) v then 255#8 else BitVec.ofInt 8 (ftrunc v))
      ∧ t.filt.noise.toNat = 255 - t.filt.rssi.toNat
      ∧ t.filt.hpz = (xin.reverse ++ s.filt.hpz).take s.cfg.par.hpTaps.length

/-- R157: FP.RESET puts every HPZ[k], every BPZ[k] and DEY at +0 and leaves everything else. -/
def Obligations.FpResetReachesFiltersOnly : Prop :=
  ∀ s : State, exec .fpReset s = .next { s with
    filt := { s.filt with
      hpz := List.replicate s.cfg.par.hpTaps.length F.zero
      bpz := List.replicate s.cfg.par.bpTaps.length F.zero
      dey := F.zero }
    responses := s.responses ++ [0x31000000#32] }

/-! ### The numeric configuration -/

/-- R10 (NUM = binary32, round to nearest, ties to even): no finite number is nearer to an exact sum than `fadd`'s, and of
two equally near ones it is the one of even pattern, when the exact sum is within the finite numbers. -/
def Obligations.FaddRoundsToNearestEven : Prop :=
  ∀ a b c : F, (a.scaled + b.scaled).natAbs ≤ (2 ^ 24 - 1) * 2 ^ 253 →
    ((fadd a b).scaled - (a.scaled + b.scaled)).natAbs ≤ (c.scaled - (a.scaled + b.scaled)).natAbs
      ∧ (((fadd a b).scaled - (a.scaled + b.scaled)).natAbs = (c.scaled - (a.scaled + b.scaled)).natAbs →
          c.scaled ≠ (fadd a b).scaled → (fadd a b).mag.val % 2 = 0)

/-- R10, the same of `fmul`, whose exact product is a multiple of 2^-298. -/
def Obligations.FmulRoundsToNearestEven : Prop :=
  ∀ a b c : F, (a.scaled * b.scaled).natAbs ≤ (2 ^ 24 - 1) * 2 ^ 253 * 2 ^ 149 →
    ((fmul a b).scaled * 2 ^ 149 - a.scaled * b.scaled).natAbs ≤ (c.scaled * 2 ^ 149 - a.scaled * b.scaled).natAbs
      ∧ (((fmul a b).scaled * 2 ^ 149 - a.scaled * b.scaled).natAbs
            = (c.scaled * 2 ^ 149 - a.scaled * b.scaled).natAbs →
          c.scaled ≠ (fmul a b).scaled → (fmul a b).mag.val % 2 = 0)

/-- R10, nearness of `fdiv`: the distances to the exact quotient, each times the divisor. -/
def Obligations.FdivRoundsToNearest : Prop :=
  ∀ a b c : F, b.units ≠ 0 → a.units * 2 ^ 149 ≤ b.units * ((2 ^ 24 - 1) * 2 ^ 253) →
    ((fdiv a b).scaled * b.scaled - a.scaled * 2 ^ 149).natAbs ≤ (c.scaled * b.scaled - a.scaled * 2 ^ 149).natAbs

/-- R10, nearness of `fsqrt`: the root is compared as a real number, in units of 2^-149. -/
def Obligations.FsqrtRoundsToNearest : Prop :=
  ∀ a c : F, a.neg = false →
    |((fsqrt a).scaled : ℝ) - Real.sqrt ((a.units : ℝ) * 2 ^ 149)| ≤ |(c.scaled : ℝ) - Real.sqrt ((a.units : ℝ) * 2 ^ 149)|

/-- R11: `clip16` saturates to -32768..32767 and truncates toward zero. -/
def Obligations.Clip16SaturatesAndTruncates : Prop :=
  ∀ v : F, (clip16 v).toInt = max (-32768) (min 32767 (v.scaled.tdiv (2 ^ 149)))

/-! ### The whole machine -/

/-- R51 parts (a) to (g) (of part (c) the range of RSSI, not its history), the canonical form of FB, the lengths of the delay lines (R32) and the command port (R90): every
step from a state that meets them ends in one that does. -/
def Obligations.EveryStepKeepsInvariant : Prop := ∀ s t : State, s.Ok → step s = .next t → t.Ok

/-- R51: the invariant holds after a hardware reset of a block of any configuration, and so of the block as built. -/
def Obligations.InvariantHoldsAtReset : Prop := (∀ c : Config, (State.atReset c).Ok) ∧ State.reset.Ok

/-- R39: no step changes the configuration. -/
def Obligations.NoStepChangesConfiguration : Prop := ∀ s t : State, step s = .next t → t.cfg = s.cfg

/-- R21, R23: only time and a hardware reset move MONO, and MONO never falls but at a hardware reset. -/
def Obligations.MonoFallsOnlyAtHardwareReset : Prop :=
  ∀ s t : State, step s = .next t → s.inputs.head? ≠ some .hwReset →
    s.clk.mono.toNat ≤ t.clk.mono.toNat ∧ ((∀ us : Nat, s.inputs.head? ≠ some (.tick us)) → t.clk.mono = s.clk.mono)

/-- R20, the column "written by", for the commands: each piece of state is changed by no command but those the table
names. ERR is changed by a failing command (one whose answer has a code other than 0), RS.PUSH and WRCSR alone. -/
def Obligations.OnlyNamedCommandsWrite : Prop :=
  ∀ (i : Instr) (s t : State), exec i s = .next t →
    t.cfg = s.cfg ∧ t.pending = s.pending ∧ t.inputs = s.inputs
    ∧ t.clk.mono = s.clk.mono ∧ t.clk.lastp = s.clk.lastp ∧ t.clk.ival = s.clk.ival
    ∧ t.clk.pulseSeen = s.clk.pulseSeen ∧ t.clk.ivalValid = s.clk.ivalValid
    ∧ ((∀ epoch : BitVec 32, i ≠ .ckFix epoch) → t.clk = s.clk)
    ∧ ((∀ xs : List Sample, i ≠ .rsPush xs) → i ≠ .rsReset →
        t.rsmp.lp = s.rsmp.lp ∧ t.rsmp.prev = s.rsmp.prev ∧ t.rsmp.pos = s.rsmp.pos)
    ∧ ((∀ xs : List Sample, i ≠ .rsPush xs) → i ≠ .rsReset → i ≠ .rsPop → t.rsmp.acc = s.rsmp.acc)
    ∧ ((∀ xs : List Sample, i ≠ .rsPush xs) → t.rsmp.ovfCnt = s.rsmp.ovfCnt)
    ∧ ((∀ bp de : Bool, i ≠ .fpProc bp de) → t.filt.rssi = s.filt.rssi ∧ t.filt.noise = s.filt.noise)
    ∧ ((∀ bp de : Bool, i ≠ .fpProc bp de) → i ≠ .fpReset →
        t.filt.hpz = s.filt.hpz ∧ t.filt.bpz = s.filt.bpz ∧ t.filt.dey = s.filt.dey)
    ∧ ((∀ d : BitVec 16, i ≠ .wrcsr 0x04#8 d) → t.filt.cal = s.filt.cal)
    ∧ ((∀ bp de : Bool, i ≠ .fpProc bp de) → i ≠ .rsPop → (∀ (idx : BitVec 8) (d : Sample), i ≠ .fbWr idx d) →
        t.fb = s.fb)
    ∧ ((∀ xs : List Sample, i ≠ .rsPush xs) → (∀ (csr : BitVec 8) (d : BitVec 16), i ≠ .wrcsr csr d) →
        (∀ (status : Word) (data : List Word), t.responses = s.responses ++ status :: data → fieldA status = 0#8) →
        t.err = s.err)

/-- R37: a flag that is set stays set through every command but WRCSR ERR. -/
def Obligations.FlagsStayUntilCleared : Prop :=
  ∀ (i : Instr) (s t : State), (∀ d : BitVec 16, i ≠ .wrcsr 0x01#8 d) → exec i s = .next t → s.err &&& t.err = s.err

/-- R91, R94: a command that is performed sends exactly one response, its status word repeating the opcode, with as many
data words as the status word says. -/
def Obligations.OneResponseForEachCommand : Prop :=
  ∀ (i : Instr) (s t : State), exec i s = .next t →
    ∃ (status : Word) (data : List Word), t.responses = s.responses ++ status :: data
      ∧ opcodeOf status = i.op.opcode ∧ data.length = dataWordsOf status

/-- R92: a response with a code other than 0 carries one of the codes 1 to 4, `val` 0 and no data words, and its command
changed no state except that it set the flag of its code. -/
def Obligations.FailedCommandSetsOnlyItsFlag : Prop :=
  ∀ (i : Instr) (s t : State) (status : Word) (data : List Word), exec i s = .next t →
    t.responses = s.responses ++ status :: data → fieldA status ≠ 0#8 →
      fieldD status = 0#16 ∧ data = [] ∧ ∃ e : CmdError, fieldA status = errorCode e
        ∧ t = { s with err := setErr (errorFlag e) s.err, responses := s.responses ++ [status] }

/-- R190, R198: the flags of ERR decide nothing. Whatever flags are set, a command other than RDCSR ERR and WRCSR ERR ends
the same way, sends the same response, and sets the same flags. -/
def Obligations.FlagsNeverDecide : Prop :=
  ∀ (i : Instr) (s t : State) (e : Err), namesErr i = false → exec i s = .next t →
    ∃ raised : Err, t.err = s.err ||| raised ∧ exec i { s with err := e } = .next { t with err := e ||| raised }

/-- R69, R74: a pulse before a command that keeps apart from CLK and one after it give the same state. -/
def Obligations.PulseCommutesWithOtherCommands : Prop :=
  ∀ (i : Instr) (s t : State), apartFromClk i = true → exec i s = .next t →
    exec i (pulseStep s) = .next (pulseStep t)

/-- R190, R205: no command stops the block. Only RS.PUSH from a negative POS, which no run reaches, can fail to answer a
next state, and the model then faults (log 8). -/
def Obligations.NoCommandStopsTheBlock : Prop :=
  ∀ (i : Instr) (s : State),
    (∃ t, exec i s = .next t)
      ∨ exec i s = .fault .interpolationNeverEnds ∧ ¬ s.rsmp.PosOk ∧ ∃ samples : List Sample, i = .rsPush samples
end

