-- ==== Sys2Proof/Laws/Memory.lean ====
section
/-!
SUPPORT. The laws of the frame buffer: a read after a write, the locations a write leaves alone, and that every
operation keeps the canonical form.
-/

namespace Sys2Proof.Machine

/-- Reading through an entry that may have been left out. -/
theorem fbRead_fbCons (i : Nat) (v : Sample) (m : Memory) (a : Nat) (h : a = i → fbRead m a = fbUnlisted) :
    fbRead (fbCons i v m) a = if a = i then v else fbRead m a := by
  unfold fbCons
  by_cases hv : v = fbUnlisted
  · by_cases ha : a = i
    · simp only [hv, if_true, ha, ← h ha]
    · simp [hv, ha]
  · simp [hv, fbRead]

/-- A location below every index of a canonical list is not listed. -/
theorem fbRead_below {n : Nat} : ∀ {lo : Nat} {m : Memory} {a : Nat}, fbWfFrom n lo m = true → a < lo →
    fbRead m a = fbUnlisted
  | _, [], _, _, _ => rfl
  | lo, (j, x) :: m, a, h, ha => by
    simp only [fbWfFrom, Bool.and_eq_true, decide_eq_true_eq] at h
    have hj : a ≠ j := by omega
    simp only [fbRead, hj, if_false]
    exact fbRead_below h.2 (by omega)

/-- A canonical list stays canonical when it is allowed to begin earlier. -/
theorem fbWfFrom_mono {n lo lo' : Nat} {m : Memory} (h : fbWfFrom n lo m = true) (hl : lo' ≤ lo) :
    fbWfFrom n lo' m = true := by
  cases m with
  | nil => rfl
  | cons p m =>
    obtain ⟨j, x⟩ := p
    simp only [fbWfFrom, Bool.and_eq_true, decide_eq_true_eq] at h ⊢
    exact ⟨⟨⟨by omega, h.1.1.2⟩, h.1.2⟩, h.2⟩

/-- An entry put before a canonical list that begins later. -/
theorem fbWfFrom_fbCons {n lo i : Nat} {v : Sample} {m : Memory} (h : fbWfFrom n (i + 1) m = true) (hl : lo ≤ i)
    (hi : i < n) : fbWfFrom n lo (fbCons i v m) = true := by
  unfold fbCons
  split
  · exact fbWfFrom_mono h (by omega)
  · simp [fbWfFrom, *]

/-- A write leaves every other location alone (R175). -/
theorem fbRead_fbWrite_other : ∀ (m : Memory) (i : Nat) (v : Sample) (a : Nat), a ≠ i →
    fbRead (fbWrite m i v) a = fbRead m a
  | [], i, v, a, h => by
    simp only [fbWrite]
    rw [fbRead_fbCons _ _ _ _ (fun e => absurd e h)]
    simp [h]
  | (j, x) :: m, i, v, a, h => by
    simp only [fbWrite]
    split
    · rw [fbRead_fbCons _ _ _ _ (fun e => absurd e h)]
      simp [h]
    · split
      · subst_vars
        rw [fbRead_fbCons _ _ _ _ (fun e => absurd e h)]
        simp [h, fbRead]
      · simp only [fbRead]
        rw [fbRead_fbWrite_other m i v a h]

/-- A read after a write to the same location gives the value written (R175). -/
theorem fbRead_fbWrite_same {n : Nat} : ∀ {lo : Nat} {m : Memory} (i : Nat) (v : Sample), fbWfFrom n lo m = true →
    fbRead (fbWrite m i v) i = v
  | _, [], i, v, _ => by
    simp only [fbWrite]
    rw [fbRead_fbCons _ _ _ _ (fun _ => rfl)]
    simp
  | lo, (j, x) :: m, i, v, h => by
    have h' := h
    simp only [fbWfFrom, Bool.and_eq_true, decide_eq_true_eq] at h'
    simp only [fbWrite]
    split
    · have hb : fbRead ((j, x) :: m) i = fbUnlisted :=
        fbRead_below (lo := j) (n := n) (by simp [fbWfFrom, h'.1.1.2, h'.1.2, h'.2]) (by assumption)
      rw [fbRead_fbCons _ _ _ _ (fun _ => hb)]
      simp
    · split
      · subst_vars
        rw [fbRead_fbCons _ _ _ _ (fun _ => fbRead_below h'.2 (by omega))]
        simp
      · have hij : i ≠ j := by assumption
        simp only [fbRead, hij, if_false]
        exact fbRead_fbWrite_same i v h'.2

/-- A write keeps the canonical form. -/
theorem fbWfFrom_fbWrite {n : Nat} : ∀ {lo : Nat} {m : Memory} (i : Nat) (v : Sample), fbWfFrom n lo m = true →
    lo ≤ i → i < n → fbWfFrom n lo (fbWrite m i v) = true
  | _, [], i, v, _, hl, hi => fbWfFrom_fbCons rfl hl hi
  | lo, (j, x) :: m, i, v, h, hl, hi => by
    have h' := h
    simp only [fbWfFrom, Bool.and_eq_true, decide_eq_true_eq] at h'
    simp only [fbWrite]
    split
    · exact fbWfFrom_fbCons (by simp [fbWfFrom, h'.1.1.2, h'.1.2, h'.2]; omega) hl hi
    · split
      · subst_vars
        exact fbWfFrom_fbCons h'.2 hl hi
      · simp only [fbWfFrom, Bool.and_eq_true, decide_eq_true_eq]
        exact ⟨⟨⟨h'.1.1.1, h'.1.1.2⟩, h'.1.2⟩, fbWfFrom_fbWrite i v h'.2 (by omega) hi⟩

/-- A frame written whole is canonical. -/
theorem fbWfFrom_fbFrom {n : Nat} : ∀ (vs : List Sample) (i : Nat), i + vs.length ≤ n → fbWfFrom n i (fbFrom i vs) = true
  | [], _, _ => rfl
  | v :: vs, i, h => by
    simp only [List.length_cons] at h
    exact fbWfFrom_fbCons (fbWfFrom_fbFrom vs (i + 1) (by omega)) (by omega) (by omega)

/-- What a frame written whole reads as. -/
theorem fbRead_fbFrom : ∀ (vs : List Sample) (i a : Nat), i ≤ a →
    fbRead (fbFrom i vs) a = (vs[a - i]?).getD fbUnlisted
  | [], _, _, _ => rfl
  | v :: vs, i, a, h => by
    simp only [fbFrom]
    rw [fbRead_fbCons _ _ _ _ (fun e => fbRead_below
      (fbWfFrom_fbFrom (n := i + 1 + vs.length) vs (i + 1) (by omega)) (by omega))]
    by_cases ha : a = i
    · simp [ha]
    · rw [fbRead_fbFrom vs (i + 1) a (by omega)]
      have : a - i = a - (i + 1) + 1 := by omega
      simp [ha, this]

/-- A write to FB keeps the canonical form. -/
theorem wf_fbWrite {n : Nat} {m : Memory} (i : Nat) (v : Sample) (h : Memory.wf n m = true) (hi : i < n) :
    Memory.wf n (fbWrite m i v) = true :=
  fbWfFrom_fbWrite i v h (Nat.zero_le i) hi

/-- A frame of at most `n` samples written whole is canonical. -/
theorem wf_fbFrom {n : Nat} (vs : List Sample) (h : vs.length ≤ n) : Memory.wf n (fbFrom 0 vs) = true :=
  fbWfFrom_fbFrom vs 0 (by omega)

/-- FB after a hardware reset is canonical. -/
theorem wf_reset (n : Nat) : Memory.wf n (State.reset).fb = true := rfl

end Sys2Proof.Machine
end

