-- ==== Sys2Proof/Laws/Num.lean ====
section
/-!
SUPPORT. The laws of the rounding of spec/00_scope.md R10: patterns rise with their numbers, a result lies between any two
finite numbers that its exact value lies between, a finite exact value is kept, and integers to 2^24 are exact.
-/

namespace Sys2Proof.Machine

/-! ### Patterns and their units -/

/-- The units of a pattern, also past the finite ones; `F.units` is this of `mag`. -/
def patternUnits (k : Nat) : Nat := if k < 2 ^ 24 then k else (2 ^ 23 + k % 2 ^ 23) * 2 ^ (k / 2 ^ 23 - 1)

theorem units_eq_patternUnits (a : F) : a.units = patternUnits a.mag.val := rfl

/-- A pattern made of an exponent and a significand of 24 bits, or one that has just carried. -/
theorem patternUnits_patternOf {e m : Nat} (hm : m ≤ 2 ^ 24) (he : e = 0 ∨ 2 ^ 23 ≤ m) :
    patternUnits (patternOf e m) = m * 2 ^ e := by
  unfold patternUnits patternOf
  by_cases hc : m = 2 ^ 24
  · subst hc
    have h1 : ¬ e * 2 ^ 23 + 2 ^ 24 < 2 ^ 24 := by omega
    have h2 : (e * 2 ^ 23 + 2 ^ 24) % 2 ^ 23 = 0 := by omega
    have h3 : (e * 2 ^ 23 + 2 ^ 24) / 2 ^ 23 - 1 = e + 1 := by omega
    rw [if_neg h1, h2, h3, Nat.pow_succ]
    ring
  · by_cases h0 : e = 0
    · subst h0
      have h1 : 0 * 2 ^ 23 + m < 2 ^ 24 := by omega
      rw [if_pos h1]
      omega
    · have hm' : 2 ^ 23 ≤ m := by omega
      have h1 : ¬ e * 2 ^ 23 + m < 2 ^ 24 := by omega
      have h2 : 2 ^ 23 + (e * 2 ^ 23 + m) % 2 ^ 23 = m := by omega
      have h3 : (e * 2 ^ 23 + m) / 2 ^ 23 - 1 = e := by omega
      rw [if_neg h1, h2, h3]

/-- Every pattern is made of an exponent and a significand of 24 bits. -/
theorem pattern_split (k : Nat) : ∃ e m, m < 2 ^ 24 ∧ (e = 0 ∨ 2 ^ 23 ≤ m) ∧ k = patternOf e m := by
  by_cases h : k < 2 ^ 24
  · exact ⟨0, k, h, .inl rfl, by simp [patternOf]⟩
  · exact ⟨k / 2 ^ 23 - 1, 2 ^ 23 + k % 2 ^ 23, by omega, .inr (by omega), by unfold patternOf; omega⟩

/-- Patterns rise with their numbers, one step at a time. -/
theorem patternUnits_succ (k : Nat) : patternUnits k < patternUnits (k + 1) := by
  obtain ⟨e, m, hm, he, rfl⟩ := pattern_split k
  have h : patternOf e m + 1 = patternOf e (m + 1) := by unfold patternOf; omega
  rw [h, patternUnits_patternOf (by omega) he, patternUnits_patternOf (by omega) (he.imp_right (by omega))]
  exact Nat.mul_lt_mul_of_pos_right (Nat.lt_succ_self m) (Nat.two_pow_pos e)

/-- Patterns rise with their numbers. -/
theorem patternUnits_strictMono : StrictMono patternUnits := strictMono_nat_of_lt_succ patternUnits_succ

theorem patternUnits_le {j k : Nat} : patternUnits j ≤ patternUnits k ↔ j ≤ k := patternUnits_strictMono.le_iff_le

theorem patternUnits_lt {j k : Nat} : patternUnits j < patternUnits k ↔ j < k := patternUnits_strictMono.lt_iff_lt

/-! ### Rounding -/

/-- What `roundRatio` does, said once: it keeps a significand `m` of 24 bits at an exponent `e`, the exact value lies from
`m` up to but not including `m + 1` at that exponent, and the nearer of the two is taken, the even one at the middle. -/
theorem roundRatio_cases (n d : Nat) (hd : 0 < d) : ∃ e m r, m < 2 ^ 24 ∧ (e = 0 ∨ 2 ^ 23 ≤ m)
    ∧ roundRatio n d = patternOf e r ∧ m * (d * 2 ^ e) ≤ n ∧ n < (m + 1) * (d * 2 ^ e)
    ∧ ((r = m ∧ (2 * n < (2 * m + 1) * (d * 2 ^ e) ∨ (2 * n = (2 * m + 1) * (d * 2 ^ e) ∧ m % 2 = 0)))
      ∨ (r = m + 1 ∧ ((2 * m + 1) * (d * 2 ^ e) < 2 * n ∨ (2 * n = (2 * m + 1) * (d * 2 ^ e) ∧ m % 2 = 1)))) := by
  obtain ⟨e, he⟩ : ∃ e, e = Nat.log2 (n / d) - 23 := ⟨_, rfl⟩
  obtain ⟨u, hu⟩ : ∃ u, u = d * 2 ^ e := ⟨_, rfl⟩
  obtain ⟨m, hm⟩ : ∃ m, m = n / u := ⟨_, rfl⟩
  have hu0 : 0 < u := hu ▸ Nat.mul_pos hd (Nat.two_pow_pos e)
  have hmq : m = n / d / 2 ^ e := by rw [hm, hu, Nat.div_div_eq_div_mul]
  have hn : u * m + n % u = n := hm ▸ Nat.div_add_mod n u
  have hr : n % u < u := Nat.mod_lt n hu0
  have hlt : n / d < 2 ^ (e + 24) := by
    by_cases hq : n / d = 0
    · rw [hq]; exact Nat.two_pow_pos _
    · exact lt_of_lt_of_le ((Nat.log2_lt hq).mp (Nat.lt_succ_self _)) (Nat.pow_le_pow_right (by omega) (by omega))
  have hm24 : m < 2 ^ 24 := by
    rw [hmq]
    refine (Nat.div_lt_iff_lt_mul (Nat.two_pow_pos e)).mpr ?_
    rwa [← Nat.pow_add, Nat.add_comm]
  have hm23 : e = 0 ∨ 2 ^ 23 ≤ m := by
    by_cases h0 : e = 0
    · exact .inl h0
    · refine .inr ?_
      have hq : n / d ≠ 0 := by
        intro h
        rw [h] at he
        simp at he
        omega
      rw [hmq]
      refine (Nat.le_div_iff_mul_le (Nat.two_pow_pos e)).mpr ?_
      rw [← Nat.pow_add]
      exact (Nat.le_log2 hq).mp (by omega)
  refine ⟨e, m, (if 2 * (n % u) > u || (2 * (n % u) == u && m % 2 == 1) then m + 1 else m), hm24, hm23, ?_, ?_, ?_, ?_⟩
  · unfold roundRatio
    simp only [← he, ← hu, ← hm]
  · rw [← hu, Nat.mul_comm]
    omega
  · rw [← hu, Nat.add_mul, Nat.one_mul, Nat.mul_comm m u]
    omega
  · rw [← hu]
    have h2 : (2 * m + 1) * u = 2 * (u * m) + u := by ring
    rw [h2]
    by_cases hgt : 2 * (n % u) > u
    · exact .inr ⟨by simp [hgt], .inl (by omega)⟩
    · by_cases heq : 2 * (n % u) = u
      · rcases Nat.mod_two_eq_zero_or_one m with hp | hp
        · exact .inl ⟨by simp [heq, hp], .inr ⟨by omega, hp⟩⟩
        · exact .inr ⟨by simp [heq, hp], .inr ⟨by omega, hp⟩⟩
      · exact .inl ⟨by simp [hgt, heq], .inl (by omega)⟩

/-- A pattern whose number the exact value reaches is not above the rounded pattern. -/
theorem le_roundRatio {n d k : Nat} (hd : 0 < d) (h : d * patternUnits k ≤ n) : k ≤ roundRatio n d := by
  obtain ⟨e, m, r, hm, he, hr, -, hhi, hcase⟩ := roundRatio_cases n d hd
  by_contra hk
  have hle : patternOf e (m + 1) ≤ k := by
    rw [hr] at hk
    unfold patternOf at hk ⊢
    omega
  have hu := patternUnits_le.mpr hle
  rw [patternUnits_patternOf (by omega) (he.imp_right (by omega))] at hu
  have := Nat.mul_le_mul_left d hu
  have h2 : d * ((m + 1) * 2 ^ e) = (m + 1) * (d * 2 ^ e) := by ring
  omega

/-- A pattern whose number is not below the exact value is not below the rounded pattern. -/
theorem roundRatio_le {n d k : Nat} (hd : 0 < d) (h : n ≤ d * patternUnits k) : roundRatio n d ≤ k := by
  obtain ⟨e, m, r, hm, he, hr, hlo, -, hcase⟩ := roundRatio_cases n d hd
  by_contra hk
  have hu0 : 0 < d * 2 ^ e := Nat.mul_pos hd (Nat.two_pow_pos e)
  have h2 : d * (m * 2 ^ e) = m * (d * 2 ^ e) := by ring
  have hpm : patternUnits (patternOf e m) = m * 2 ^ e := patternUnits_patternOf (by omega) he
  rcases hcase with ⟨rfl, -⟩ | ⟨rfl, hup⟩
  · have hlt : k < patternOf e r := by omega
    have hu := patternUnits_lt.mpr hlt
    rw [hpm] at hu
    have := Nat.mul_lt_mul_of_pos_left hu hd
    omega
  · have hle : k ≤ patternOf e m := by
      rw [hr] at hk
      unfold patternOf at hk ⊢
      omega
    have hu := patternUnits_le.mpr hle
    rw [hpm] at hu
    have := Nat.mul_le_mul_left d hu
    have h3 : (2 * m + 1) * (d * 2 ^ e) = 2 * (m * (d * 2 ^ e)) + d * 2 ^ e := by ring
    omega

/-- An exact value that a pattern stands for rounds to that pattern. -/
theorem roundRatio_exact {d k : Nat} (hd : 0 < d) : roundRatio (d * patternUnits k) d = k :=
  Nat.le_antisymm (roundRatio_le hd (le_refl _)) (le_roundRatio hd (le_refl _))

/-! ### Finite numbers -/

/-- The greatest finite pattern's number. -/
def maxUnits : Nat := patternUnits 2139095039

theorem units_le_maxUnits (a : F) : a.units ≤ maxUnits := by
  rw [units_eq_patternUnits]
  have := a.mag.isLt
  exact patternUnits_le.mpr (by omega)

/-- A value no greater than the greatest finite number rounds to a finite pattern. -/
theorem packMag_finite {n d : Nat} (hd : 0 < d) (h : n ≤ d * maxUnits) (neg : Bool) (other : F) :
    ∃ hlt : roundRatio n d < 2139095040, packMag neg (roundRatio n d) other = ⟨neg, ⟨roundRatio n d, hlt⟩⟩ := by
  have hlt : roundRatio n d < 2139095040 := by
    have := roundRatio_le hd h
    omega
  exact ⟨hlt, by rw [packMag, dif_pos hlt]⟩

@[simp] theorem scaled_fneg (a : F) : (fneg a).scaled = -a.scaled := by
  unfold F.scaled fneg F.units
  cases a.neg <;> simp

theorem natAbs_scaled (a : F) : a.scaled.natAbs = a.units := by
  unfold F.scaled
  cases a.neg <;> simp

@[simp] theorem scaled_zero : F.zero.scaled = 0 := by decide

/-- A sum that lies within the finite numbers, by its sign and the rounded size of its exact value. -/
theorem fadd_form (a b : F) (h : (a.scaled + b.scaled).natAbs ≤ maxUnits) :
    (fadd a b).units = patternUnits (roundRatio (a.scaled + b.scaled).natAbs 1)
      ∧ (fadd a b).neg = (if a.scaled + b.scaled = 0 then a.neg && b.neg else decide (a.scaled + b.scaled < 0)) := by
  obtain ⟨hlt, hp⟩ := packMag_finite (n := (a.scaled + b.scaled).natAbs) (d := 1) Nat.one_pos (by omega)
    (if a.scaled + b.scaled = 0 then a.neg && b.neg else decide (a.scaled + b.scaled < 0)) (Config.unstated .add a b)
  unfold fadd
  simp only
  rw [hp]
  exact ⟨rfl, rfl⟩

/-- The order facts below are about integers alone: in a proof, a result such as `fadd a b` is named before `omega` sees
it (the kernel would otherwise try to compute it). -/
theorem sum_form (a b : F) (h : (a.scaled + b.scaled).natAbs ≤ maxUnits) : ∃ k : Nat,
    k = roundRatio (a.scaled + b.scaled).natAbs 1
      ∧ (fadd a b).scaled = (if a.scaled + b.scaled < 0 then -(patternUnits k : Int) else (patternUnits k : Int)) := by
  obtain ⟨hu, hn⟩ := fadd_form a b h
  refine ⟨_, rfl, ?_⟩
  rw [F.scaled.eq_1 (fadd a b), hn, hu]
  rcases lt_trichotomy (a.scaled + b.scaled) 0 with hs | hs | hs
  · rw [if_neg (ne_of_lt hs), if_pos hs]
    simp only [hs, decide_true, if_true]
  · rw [hs]
    have h0 : patternUnits (roundRatio (0 : Int).natAbs 1) = 0 := by decide
    rw [h0]
    simp
  · rw [if_neg (ne_of_gt hs), if_neg (not_lt.mpr hs.le)]
    simp only [not_lt.mpr hs.le, decide_false, Bool.false_eq_true, if_false]

/-- A number below the exact sum, or equal to it, is not above the sum. -/
theorem le_fadd {a b c : F} (h : (a.scaled + b.scaled).natAbs ≤ maxUnits) (hc : c.scaled ≤ a.scaled + b.scaled) :
    c.scaled ≤ (fadd a b).scaled := by
  obtain ⟨k, hk, hs⟩ := sum_form a b h
  have hc' := natAbs_scaled c
  rw [units_eq_patternUnits] at hc'
  rw [hs]
  generalize c.scaled = x at *
  generalize a.scaled + b.scaled = y at *
  split
  · have hle : y.natAbs ≤ 1 * patternUnits c.mag.val := by omega
    have := patternUnits_le.mpr (roundRatio_le Nat.one_pos hle)
    rw [← hk] at this
    omega
  · by_cases hx : x ≤ 0
    · omega
    · have hle : 1 * patternUnits c.mag.val ≤ y.natAbs := by omega
      have := patternUnits_le.mpr (le_roundRatio Nat.one_pos hle)
      rw [← hk] at this
      omega

/-- A number above the exact sum, or equal to it, is not below the sum. -/
theorem fadd_le {a b c : F} (h : (a.scaled + b.scaled).natAbs ≤ maxUnits) (hc : a.scaled + b.scaled ≤ c.scaled) :
    (fadd a b).scaled ≤ c.scaled := by
  obtain ⟨k, hk, hs⟩ := sum_form a b h
  have hc' := natAbs_scaled c
  rw [units_eq_patternUnits] at hc'
  rw [hs]
  generalize c.scaled = x at *
  generalize a.scaled + b.scaled = y at *
  split
  · by_cases hx : 0 ≤ x
    · omega
    · have hle : 1 * patternUnits c.mag.val ≤ y.natAbs := by omega
      have := patternUnits_le.mpr (le_roundRatio Nat.one_pos hle)
      rw [← hk] at this
      omega
  · have hle : y.natAbs ≤ 1 * patternUnits c.mag.val := by omega
    have := patternUnits_le.mpr (roundRatio_le Nat.one_pos hle)
    rw [← hk] at this
    omega

/-- A sum whose exact value is a finite number is that number. -/
theorem fadd_exact {a b c : F} (hc : a.scaled + b.scaled = c.scaled) : (fadd a b).scaled = c.scaled := by
  have h : (a.scaled + b.scaled).natAbs ≤ maxUnits := by rw [hc, natAbs_scaled]; exact units_le_maxUnits c
  exact le_antisymm (fadd_le h hc.le) (le_fadd h hc.ge)

/-- A natural number of at most 24 bits, doubled any number of times, is the number of some pattern. -/
theorem exists_pattern {m : Nat} (hm : m ≤ 2 ^ 24) (e : Nat) : ∃ k, patternUnits k = m * 2 ^ e ∧ (m ≠ 0 → k ≤ patternOf e m) := by
  induction e generalizing m with
  | zero => exact ⟨patternOf 0 m, patternUnits_patternOf hm (.inl rfl), fun _ => le_refl _⟩
  | succ e ih =>
    by_cases h : 2 ^ 23 ≤ m
    · exact ⟨patternOf (e + 1) m, patternUnits_patternOf hm (.inr h), fun _ => le_refl _⟩
    · obtain ⟨k, hk, hb⟩ := ih (m := 2 * m) (by omega)
      refine ⟨k, by rw [hk, Nat.pow_succ]; ring, fun h0 => (hb (by omega)).trans ?_⟩
      unfold patternOf
      omega

/-- `i2f` is exact on every integer of magnitude at most 2^24 (R10). -/
theorem scaled_i2f {n : Int} (h : n.natAbs ≤ 2 ^ 24) : (i2f n).scaled = n * 2 ^ 149 := by
  obtain ⟨k, hk, hb⟩ := exists_pattern h 149
  have hr : roundRatio (n.natAbs * 2 ^ 149) 1 = k := by
    have := roundRatio_exact (d := 1) (k := k) Nat.one_pos
    rwa [Nat.one_mul, hk] at this
  have hlt : k < 2139095040 := by
    by_cases h0 : n.natAbs = 0
    · rw [h0, Nat.zero_mul] at hk
      have h00 : patternUnits 0 = 0 := by decide
      have := patternUnits_strictMono.injective (hk.trans h00.symm)
      omega
    · have hle := hb h0
      have hp : patternOf 149 n.natAbs ≤ 149 * 2 ^ 23 + 2 ^ 24 := by unfold patternOf; omega
      generalize patternOf 149 n.natAbs = p at *
      omega
  unfold i2f
  rw [hr, packMag, dif_pos hlt]
  unfold F.scaled
  rw [units_eq_patternUnits]
  simp only [hk]
  by_cases hn : n < 0
  · simp only [hn, decide_true, if_true]
    push_cast
    rw [← neg_mul, abs_of_neg hn, neg_neg]
  · simp only [hn, decide_false, Bool.false_eq_true, if_false]
    push_cast
    rw [abs_of_nonneg (not_lt.mp hn)]

/-- `flt` is the order of the numbers, exact (R10). -/
theorem flt_eq_true {a b : F} : flt a b = true ↔ a.scaled < b.scaled := by simp [flt]

theorem flt_eq_false {a b : F} : flt a b = false ↔ b.scaled ≤ a.scaled := by simp [flt]

end Sys2Proof.Machine
end

