-- ==== Sys2Proof/Laws/Operands.lean ====
section
/-!
SUPPORT. The fields of the words the encoder makes, one lemma for each field (spec/30_encoding.md R81 to R88).
-/

namespace Sys2Proof.Machine

@[simp] theorem opcodeOf_mkWord (opcode a : BitVec 8) (d : BitVec 16) : opcodeOf (mkWord opcode a d) = opcode := by
  apply BitVec.eq_of_getLsbD_eq
  intro i hi
  rw [opcodeOf, mkWord, BitVec.getLsbD_extractLsb', BitVec.getLsbD_cast, BitVec.getLsbD_append, BitVec.getLsbD_append]
  have h1 : ¬ 24 + i < 16 := by omega
  have h2 : ¬ 24 + i - 16 < 8 := by omega
  have h3 : 24 + i - 16 - 8 = i := by omega
  simp [hi, h1, h2, h3]

@[simp] theorem fieldA_mkWord (opcode a : BitVec 8) (d : BitVec 16) : fieldA (mkWord opcode a d) = a := by
  apply BitVec.eq_of_getLsbD_eq
  intro i hi
  rw [fieldA, mkWord, BitVec.getLsbD_extractLsb', BitVec.getLsbD_cast, BitVec.getLsbD_append, BitVec.getLsbD_append]
  have h1 : ¬ 16 + i < 16 := by omega
  have h2 : 16 + i - 16 = i := by omega
  simp [hi, h1, h2]

@[simp] theorem fieldD_mkWord (opcode a : BitVec 8) (d : BitVec 16) : fieldD (mkWord opcode a d) = d := by
  apply BitVec.eq_of_getLsbD_eq
  intro i hi
  rw [fieldD, mkWord, BitVec.getLsbD_extractLsb', BitVec.getLsbD_cast, BitVec.getLsbD_append]
  simp [hi]

/-- The reserved bits of format N are the fields `a` and `d` together (R81, R82). -/
theorem reservedN_mkWord_zero (opcode : BitVec 8) : reservedN (mkWord opcode 0#8 0#16) = 0#24 := by
  apply BitVec.eq_of_getLsbD_eq
  intro i hi
  rw [reservedN, mkWord, BitVec.getLsbD_extractLsb', BitVec.getLsbD_cast, BitVec.getLsbD_append, BitVec.getLsbD_append]
  simp
  omega

@[simp] theorem payloadSample_mkPayload (s : Sample) : payloadSample (mkPayload s) = s := by
  apply BitVec.eq_of_getLsbD_eq
  intro i hi
  rw [payloadSample, mkPayload, BitVec.getLsbD_extractLsb', BitVec.getLsbD_cast, BitVec.getLsbD_append]
  simp [hi]

/-- The four legal words of FP.PROC carry their flags, and their other fields are as format P has them (R84). -/
theorem mkWordP_fields (bp de : Bool) : opcodeOf (mkWordP 0x30#8 bp de) = 0x30#8
    ∧ reservedP (mkWordP 0x30#8 bp de) = 0#22 ∧ flagBp (mkWordP 0x30#8 bp de) = bp
    ∧ flagDe (mkWordP 0x30#8 bp de) = de := by
  revert bp de; decide

/-- The number of a word made of its fields. -/
theorem mkWord_toNat (opcode a : BitVec 8) (d : BitVec 16) :
    (mkWord opcode a d).toNat = opcode.toNat * 2 ^ 24 + a.toNat * 2 ^ 16 + d.toNat := by
  rw [mkWord, BitVec.toNat_cast, BitVec.toNat_append, BitVec.toNat_append, ← Nat.shiftLeft_add_eq_or_of_lt d.isLt,
    ← Nat.shiftLeft_add_eq_or_of_lt a.isLt]
  simp only [Nat.shiftLeft_eq]
  omega

end Sys2Proof.Machine
end

