-- ==== Sys2Proof/Laws/State.lean ====
section
/-!
SUPPORT. One lemma for each field of the state under each shared update, so that no proof unfolds a record update.
-/

namespace Sys2Proof.Machine

/-! ### `respond` -/

@[simp] theorem respond_cfg (op code : BitVec 8) (val : BitVec 16) (data : List Word) (s : State) : (respond op code val data s).cfg = s.cfg := rfl
@[simp] theorem respond_clk (op code : BitVec 8) (val : BitVec 16) (data : List Word) (s : State) : (respond op code val data s).clk = s.clk := rfl
@[simp] theorem respond_rsmp (op code : BitVec 8) (val : BitVec 16) (data : List Word) (s : State) : (respond op code val data s).rsmp = s.rsmp := rfl
@[simp] theorem respond_filt (op code : BitVec 8) (val : BitVec 16) (data : List Word) (s : State) : (respond op code val data s).filt = s.filt := rfl
@[simp] theorem respond_fb (op code : BitVec 8) (val : BitVec 16) (data : List Word) (s : State) : (respond op code val data s).fb = s.fb := rfl
@[simp] theorem respond_err (op code : BitVec 8) (val : BitVec 16) (data : List Word) (s : State) : (respond op code val data s).err = s.err := rfl
@[simp] theorem respond_pending (op code : BitVec 8) (val : BitVec 16) (data : List Word) (s : State) : (respond op code val data s).pending = s.pending := rfl
@[simp] theorem respond_inputs (op code : BitVec 8) (val : BitVec 16) (data : List Word) (s : State) : (respond op code val data s).inputs = s.inputs := rfl
@[simp] theorem respond_responses (op code : BitVec 8) (val : BitVec 16) (data : List Word) (s : State) : (respond op code val data s).responses = s.responses ++ statusWord op code val :: data := rfl

/-! ### `raiseFlag` -/

@[simp] theorem raiseFlag_cfg (f : ErrFlag) (s : State) : (raiseFlag f s).cfg = s.cfg := rfl
@[simp] theorem raiseFlag_clk (f : ErrFlag) (s : State) : (raiseFlag f s).clk = s.clk := rfl
@[simp] theorem raiseFlag_rsmp (f : ErrFlag) (s : State) : (raiseFlag f s).rsmp = s.rsmp := rfl
@[simp] theorem raiseFlag_filt (f : ErrFlag) (s : State) : (raiseFlag f s).filt = s.filt := rfl
@[simp] theorem raiseFlag_fb (f : ErrFlag) (s : State) : (raiseFlag f s).fb = s.fb := rfl
@[simp] theorem raiseFlag_err (f : ErrFlag) (s : State) : (raiseFlag f s).err = setErr f s.err := rfl
@[simp] theorem raiseFlag_pending (f : ErrFlag) (s : State) : (raiseFlag f s).pending = s.pending := rfl
@[simp] theorem raiseFlag_inputs (f : ErrFlag) (s : State) : (raiseFlag f s).inputs = s.inputs := rfl
@[simp] theorem raiseFlag_responses (f : ErrFlag) (s : State) : (raiseFlag f s).responses = s.responses := rfl

/-! ### `reportError` -/

@[simp] theorem reportError_cfg (op : BitVec 8) (e : CmdError) (s : State) : (reportError op e s).cfg = s.cfg := rfl
@[simp] theorem reportError_clk (op : BitVec 8) (e : CmdError) (s : State) : (reportError op e s).clk = s.clk := rfl
@[simp] theorem reportError_rsmp (op : BitVec 8) (e : CmdError) (s : State) : (reportError op e s).rsmp = s.rsmp := rfl
@[simp] theorem reportError_filt (op : BitVec 8) (e : CmdError) (s : State) : (reportError op e s).filt = s.filt := rfl
@[simp] theorem reportError_fb (op : BitVec 8) (e : CmdError) (s : State) : (reportError op e s).fb = s.fb := rfl
@[simp] theorem reportError_err (op : BitVec 8) (e : CmdError) (s : State) : (reportError op e s).err = setErr (errorFlag e) s.err := rfl
@[simp] theorem reportError_pending (op : BitVec 8) (e : CmdError) (s : State) : (reportError op e s).pending = s.pending := rfl
@[simp] theorem reportError_inputs (op : BitVec 8) (e : CmdError) (s : State) : (reportError op e s).inputs = s.inputs := rfl
@[simp] theorem reportError_responses (op : BitVec 8) (e : CmdError) (s : State) : (reportError op e s).responses = s.responses ++ [statusWord op (errorCode e) 0#16] := rfl

/-! ### `State.sends` -/

@[simp] theorem sends_cfg (s : State) (ws : List Word) : (s.sends ws).cfg = s.cfg := rfl
@[simp] theorem sends_clk (s : State) (ws : List Word) : (s.sends ws).clk = s.clk := rfl
@[simp] theorem sends_rsmp (s : State) (ws : List Word) : (s.sends ws).rsmp = s.rsmp := rfl
@[simp] theorem sends_filt (s : State) (ws : List Word) : (s.sends ws).filt = s.filt := rfl
@[simp] theorem sends_fb (s : State) (ws : List Word) : (s.sends ws).fb = s.fb := rfl
@[simp] theorem sends_err (s : State) (ws : List Word) : (s.sends ws).err = s.err := rfl
@[simp] theorem sends_pending (s : State) (ws : List Word) : (s.sends ws).pending = s.pending := rfl
@[simp] theorem sends_inputs (s : State) (ws : List Word) : (s.sends ws).inputs = s.inputs := rfl
@[simp] theorem sends_responses (s : State) (ws : List Word) : (s.sends ws).responses = s.responses ++ ws := rfl

/-! ### `hardwareReset` -/

@[simp] theorem hardwareReset_cfg (s : State) : (hardwareReset s).cfg = s.cfg := rfl
@[simp] theorem hardwareReset_clk (s : State) : (hardwareReset s).clk = Clk.atReset s.cfg := rfl
@[simp] theorem hardwareReset_rsmp (s : State) : (hardwareReset s).rsmp = Rsmp.atReset := rfl
@[simp] theorem hardwareReset_filt (s : State) : (hardwareReset s).filt = Filt.atReset s.cfg := rfl
@[simp] theorem hardwareReset_fb (s : State) : (hardwareReset s).fb = [] := rfl
@[simp] theorem hardwareReset_err (s : State) : (hardwareReset s).err = 0#7 := rfl
@[simp] theorem hardwareReset_pending (s : State) : (hardwareReset s).pending = [] := rfl
@[simp] theorem hardwareReset_inputs (s : State) : (hardwareReset s).inputs = s.inputs := rfl
@[simp] theorem hardwareReset_responses (s : State) : (hardwareReset s).responses = s.responses := rfl

/-! ### `State.atReset` -/

@[simp] theorem atReset_cfg (c : Config) : (State.atReset c).cfg = c := rfl
@[simp] theorem atReset_clk (c : Config) : (State.atReset c).clk = Clk.atReset c := rfl
@[simp] theorem atReset_rsmp (c : Config) : (State.atReset c).rsmp = Rsmp.atReset := rfl
@[simp] theorem atReset_filt (c : Config) : (State.atReset c).filt = Filt.atReset c := rfl
@[simp] theorem atReset_fb (c : Config) : (State.atReset c).fb = [] := rfl
@[simp] theorem atReset_err (c : Config) : (State.atReset c).err = 0#7 := rfl
@[simp] theorem atReset_pending (c : Config) : (State.atReset c).pending = [] := rfl
@[simp] theorem atReset_inputs (c : Config) : (State.atReset c).inputs = [] := rfl
@[simp] theorem atReset_responses (c : Config) : (State.atReset c).responses = [] := rfl

/-! ### The pulse step -/

/-- Everything a pulse step can do (R110, R111). -/
theorem pulseStep_cases (s : State) :
    (debounced s.cfg s.clk = true ∧ pulseStep s = s)
      ∨ (debounced s.cfg s.clk = false ∧ ∃ e, (e = s.err ∨ e = setErr .sat s.err)
          ∧ pulseStep s = { s with clk := acceptPulse s.cfg s.clk, err := e }) := by
  unfold pulseStep
  cases hd : debounced s.cfg s.clk
  · cases hs : pulseSaturates s.cfg s.clk
    · exact .inr ⟨rfl, s.err, .inl rfl, by simp⟩
    · exact .inr ⟨rfl, setErr .sat s.err, .inr rfl, by simp [raiseFlag]⟩
  · exact .inl ⟨rfl, by simp⟩

@[simp] theorem pulseStep_cfg (s : State) : (pulseStep s).cfg = s.cfg := by
  obtain ⟨-, h⟩ | ⟨-, e, -, h⟩ := pulseStep_cases s <;> rw [h]

@[simp] theorem pulseStep_rsmp (s : State) : (pulseStep s).rsmp = s.rsmp := by
  obtain ⟨-, h⟩ | ⟨-, e, -, h⟩ := pulseStep_cases s <;> rw [h]

@[simp] theorem pulseStep_filt (s : State) : (pulseStep s).filt = s.filt := by
  obtain ⟨-, h⟩ | ⟨-, e, -, h⟩ := pulseStep_cases s <;> rw [h]

@[simp] theorem pulseStep_fb (s : State) : (pulseStep s).fb = s.fb := by
  obtain ⟨-, h⟩ | ⟨-, e, -, h⟩ := pulseStep_cases s <;> rw [h]

@[simp] theorem pulseStep_pending (s : State) : (pulseStep s).pending = s.pending := by
  obtain ⟨-, h⟩ | ⟨-, e, -, h⟩ := pulseStep_cases s <;> rw [h]

@[simp] theorem pulseStep_inputs (s : State) : (pulseStep s).inputs = s.inputs := by
  obtain ⟨-, h⟩ | ⟨-, e, -, h⟩ := pulseStep_cases s <;> rw [h]

@[simp] theorem pulseStep_responses (s : State) : (pulseStep s).responses = s.responses := by
  obtain ⟨-, h⟩ | ⟨-, e, -, h⟩ := pulseStep_cases s <;> rw [h]

end Sys2Proof.Machine
end

