-- ==== Sys2Proof/Laws/Ops.lean ====
section
/-!
SUPPORT. What each shared operation of RSMP, FILT, CLK and the port can do, said once.
-/

namespace Sys2Proof.Machine

/-! ### `accStore` -/

/-- Everything an append to ACC can do (R133). -/
theorem accStore_cases (v : Sample) (s : State) :
    (s.rsmp.acc.length = s.cfg.par.accCap ∧ (accStore v s).rsmp.acc = [v] ∧ (accStore v s).err = setErr .ovf s.err
        ∧ (accStore v s).rsmp.ovfCnt = BitVec.ofNat 32 (min (s.rsmp.ovfCnt.toNat + 1) u32Max))
      ∨ (s.rsmp.acc.length ≠ s.cfg.par.accCap ∧ (accStore v s).rsmp.acc = s.rsmp.acc ++ [v] ∧ (accStore v s).err = s.err
        ∧ (accStore v s).rsmp.ovfCnt = s.rsmp.ovfCnt) := by
  by_cases h : s.rsmp.acc.length = s.cfg.par.accCap
  · exact .inl ⟨h, by simp [accStore, h], by simp [accStore, h], by simp [accStore, h]⟩
  · exact .inr ⟨h, by simp [accStore, h], by simp [accStore, h], by simp [accStore, h]⟩

@[simp] theorem accStore_cfg (v : Sample) (s : State) : (accStore v s).cfg = s.cfg := by
  unfold accStore; split <;> rfl

@[simp] theorem accStore_clk (v : Sample) (s : State) : (accStore v s).clk = s.clk := by
  unfold accStore; split <;> rfl

@[simp] theorem accStore_filt (v : Sample) (s : State) : (accStore v s).filt = s.filt := by
  unfold accStore; split <;> rfl

@[simp] theorem accStore_fb (v : Sample) (s : State) : (accStore v s).fb = s.fb := by
  unfold accStore; split <;> rfl

@[simp] theorem accStore_pending (v : Sample) (s : State) : (accStore v s).pending = s.pending := by
  unfold accStore; split <;> rfl

@[simp] theorem accStore_inputs (v : Sample) (s : State) : (accStore v s).inputs = s.inputs := by
  unfold accStore; split <;> rfl

@[simp] theorem accStore_responses (v : Sample) (s : State) : (accStore v s).responses = s.responses := by
  unfold accStore; split <;> rfl

@[simp] theorem accStore_lp (v : Sample) (s : State) : (accStore v s).rsmp.lp = s.rsmp.lp := by
  unfold accStore; split <;> rfl

@[simp] theorem accStore_prev (v : Sample) (s : State) : (accStore v s).rsmp.prev = s.rsmp.prev := by
  unfold accStore; split <;> rfl

@[simp] theorem accStore_pos (v : Sample) (s : State) : (accStore v s).rsmp.pos = s.rsmp.pos := by
  unfold accStore; split <;> rfl

/-! ### The loops of RS.PUSH -/

@[simp] theorem interpolateOnce_cfg (i : Nat) (cur : F) (s : State) : (interpolateOnce i cur s).cfg = s.cfg := by
  simp [interpolateOnce]

@[simp] theorem interpolateOnce_clk (i : Nat) (cur : F) (s : State) : (interpolateOnce i cur s).clk = s.clk := by
  simp [interpolateOnce]

@[simp] theorem interpolateOnce_filt (i : Nat) (cur : F) (s : State) : (interpolateOnce i cur s).filt = s.filt := by
  simp [interpolateOnce]

@[simp] theorem interpolateOnce_fb (i : Nat) (cur : F) (s : State) : (interpolateOnce i cur s).fb = s.fb := by
  simp [interpolateOnce]

@[simp] theorem interpolateOnce_pending (i : Nat) (cur : F) (s : State) : (interpolateOnce i cur s).pending = s.pending := by
  simp [interpolateOnce]

@[simp] theorem interpolateOnce_inputs (i : Nat) (cur : F) (s : State) : (interpolateOnce i cur s).inputs = s.inputs := by
  simp [interpolateOnce]

@[simp] theorem interpolateOnce_responses (i : Nat) (cur : F) (s : State) : (interpolateOnce i cur s).responses = s.responses := by
  simp [interpolateOnce]

@[simp] theorem interpolateOnce_lp (i : Nat) (cur : F) (s : State) :
    (interpolateOnce i cur s).rsmp.lp = s.rsmp.lp := by
  simp [interpolateOnce]

@[simp] theorem interpolateOnce_prev (i : Nat) (cur : F) (s : State) :
    (interpolateOnce i cur s).rsmp.prev = s.rsmp.prev := by
  simp [interpolateOnce]

@[simp] theorem interpolateOnce_pos (i : Nat) (cur : F) (s : State) :
    (interpolateOnce i cur s).rsmp.pos = fadd s.rsmp.pos s.cfg.par.step := by
  simp [interpolateOnce]

/-- The model's filter is R130's recursion as `lowPassValue` writes it. -/
theorem antiAlias_eq_lowPassValue (c : Config) (lp : F) (x : Sample) :
    antiAlias c lp (sampleToF x) = lowPassValue c.par.rsAlpha lp x := by
  simp only [antiAlias, sampleToF, rsBeta, lowPassValue]

/-- A pass of the model's loop is a pass of the loop as R131 writes it. -/
theorem LoopRuns_interpolateOnce {i : Nat} {cur : F} {s t : State} (below : flt s.rsmp.pos (i2f (i + 1)) = true)
    (rest : LoopRuns i cur (interpolateOnce i cur s) t) : LoopRuns i cur s t := by
  refine .pass below rfl ?_
  simpa only [interpolateOnce, interpolated, accStore_pos, accStore_cfg] using rest

/-- A fact that one pass keeps, the whole inner loop keeps: the induction of R131's inner loop, once. -/
theorem interpolate_keeps {P : State → Prop} (i : Nat) (cur : F) (pass : ∀ s, P s → P (interpolateOnce i cur s)) :
    ∀ (n : Nat) (s : State), P s → P (interpolate n i cur s)
  | 0, _, h => h
  | n + 1, s, h => by
    unfold interpolate
    split
    · exact interpolate_keeps i cur pass n _ (pass s h)
    · exact h

@[simp] theorem interpolate_cfg (n i : Nat) (cur : F) (s : State) :
    (interpolate n i cur s).cfg = s.cfg :=
  interpolate_keeps (P := fun t => t.cfg = s.cfg) i cur (fun t h => by simpa using h) n s rfl

@[simp] theorem interpolate_clk (n i : Nat) (cur : F) (s : State) :
    (interpolate n i cur s).clk = s.clk :=
  interpolate_keeps (P := fun t => t.clk = s.clk) i cur (fun t h => by simpa using h) n s rfl

@[simp] theorem interpolate_filt (n i : Nat) (cur : F) (s : State) :
    (interpolate n i cur s).filt = s.filt :=
  interpolate_keeps (P := fun t => t.filt = s.filt) i cur (fun t h => by simpa using h) n s rfl

@[simp] theorem interpolate_fb (n i : Nat) (cur : F) (s : State) :
    (interpolate n i cur s).fb = s.fb :=
  interpolate_keeps (P := fun t => t.fb = s.fb) i cur (fun t h => by simpa using h) n s rfl

@[simp] theorem interpolate_pending (n i : Nat) (cur : F) (s : State) :
    (interpolate n i cur s).pending = s.pending :=
  interpolate_keeps (P := fun t => t.pending = s.pending) i cur (fun t h => by simpa using h) n s rfl

@[simp] theorem interpolate_inputs (n i : Nat) (cur : F) (s : State) :
    (interpolate n i cur s).inputs = s.inputs :=
  interpolate_keeps (P := fun t => t.inputs = s.inputs) i cur (fun t h => by simpa using h) n s rfl

@[simp] theorem interpolate_responses (n i : Nat) (cur : F) (s : State) :
    (interpolate n i cur s).responses = s.responses :=
  interpolate_keeps (P := fun t => t.responses = s.responses) i cur (fun t h => by simpa using h) n s rfl

@[simp] theorem interpolate_lp (n i : Nat) (cur : F) (s : State) :
    (interpolate n i cur s).rsmp.lp = s.rsmp.lp :=
  interpolate_keeps (P := fun t => t.rsmp.lp = s.rsmp.lp) i cur (fun t h => by simpa using h) n s rfl

@[simp] theorem interpolate_prev (n i : Nat) (cur : F) (s : State) :
    (interpolate n i cur s).rsmp.prev = s.rsmp.prev :=
  interpolate_keeps (P := fun t => t.rsmp.prev = s.rsmp.prev) i cur (fun t h => by simpa using h) n s rfl

@[simp] theorem pushSample_cfg (i : Nat) (x : Sample) (s : State) : (pushSample i x s).cfg = s.cfg := by
  simp [pushSample]

@[simp] theorem pushSample_clk (i : Nat) (x : Sample) (s : State) : (pushSample i x s).clk = s.clk := by
  simp [pushSample]

@[simp] theorem pushSample_filt (i : Nat) (x : Sample) (s : State) : (pushSample i x s).filt = s.filt := by
  simp [pushSample]

@[simp] theorem pushSample_fb (i : Nat) (x : Sample) (s : State) : (pushSample i x s).fb = s.fb := by
  simp [pushSample]

@[simp] theorem pushSample_pending (i : Nat) (x : Sample) (s : State) : (pushSample i x s).pending = s.pending := by
  simp [pushSample]

@[simp] theorem pushSample_inputs (i : Nat) (x : Sample) (s : State) : (pushSample i x s).inputs = s.inputs := by
  simp [pushSample]

@[simp] theorem pushSample_responses (i : Nat) (x : Sample) (s : State) : (pushSample i x s).responses = s.responses := by
  simp [pushSample]

@[simp] theorem pushSample_lp (i : Nat) (x : Sample) (s : State) :
    (pushSample i x s).rsmp.lp = antiAlias s.cfg s.rsmp.lp (sampleToF x) := by
  simp [pushSample]

@[simp] theorem pushSample_prev (i : Nat) (x : Sample) (s : State) :
    (pushSample i x s).rsmp.prev = antiAlias s.cfg s.rsmp.lp (sampleToF x) := by
  simp only [pushSample]

/-- A fact that the work for one input sample keeps, the whole push keeps: the induction of R131's outer loop, once. -/
theorem pushFrom_keeps {P : State → Prop} (sample : ∀ i x s, P s → P (pushSample i x s)) :
    ∀ (xs : List Sample) (i : Nat) (s : State), P s → P (pushFrom i xs s)
  | [], _, _, h => h
  | x :: xs, i, s, h => pushFrom_keeps sample xs (i + 1) _ (sample i x s h)

@[simp] theorem pushFrom_cfg (xs : List Sample) (i : Nat) (s : State) : (pushFrom i xs s).cfg = s.cfg :=
  pushFrom_keeps (P := fun t => t.cfg = s.cfg) (fun _ _ t h => by simpa using h) xs i s rfl

@[simp] theorem pushFrom_clk (xs : List Sample) (i : Nat) (s : State) : (pushFrom i xs s).clk = s.clk :=
  pushFrom_keeps (P := fun t => t.clk = s.clk) (fun _ _ t h => by simpa using h) xs i s rfl

@[simp] theorem pushFrom_filt (xs : List Sample) (i : Nat) (s : State) : (pushFrom i xs s).filt = s.filt :=
  pushFrom_keeps (P := fun t => t.filt = s.filt) (fun _ _ t h => by simpa using h) xs i s rfl

@[simp] theorem pushFrom_fb (xs : List Sample) (i : Nat) (s : State) : (pushFrom i xs s).fb = s.fb :=
  pushFrom_keeps (P := fun t => t.fb = s.fb) (fun _ _ t h => by simpa using h) xs i s rfl

@[simp] theorem pushFrom_pending (xs : List Sample) (i : Nat) (s : State) : (pushFrom i xs s).pending = s.pending :=
  pushFrom_keeps (P := fun t => t.pending = s.pending) (fun _ _ t h => by simpa using h) xs i s rfl

@[simp] theorem pushFrom_inputs (xs : List Sample) (i : Nat) (s : State) : (pushFrom i xs s).inputs = s.inputs :=
  pushFrom_keeps (P := fun t => t.inputs = s.inputs) (fun _ _ t h => by simpa using h) xs i s rfl

@[simp] theorem pushFrom_responses (xs : List Sample) (i : Nat) (s : State) : (pushFrom i xs s).responses = s.responses :=
  pushFrom_keeps (P := fun t => t.responses = s.responses) (fun _ _ t h => by simpa using h) xs i s rfl

/-! ### The command port and the step -/

/-- Everything the arrival of a word can do (R90, R95). -/
theorem takeWord_cases (w : Word) (s : State) :
    (∃ i rest, decode (s.pending ++ [w]) = .ok (i, rest) ∧ takeWord w s = exec i { s with pending := rest })
      ∨ (∃ c, decode (s.pending ++ [w]) = .error (.illegal c)
          ∧ takeWord w s = .next (illegalWord c { s with pending := (s.pending ++ [w]).tail }))
      ∨ (decode (s.pending ++ [w]) = .error .incomplete
          ∧ takeWord w s = .next { s with pending := s.pending ++ [w] }) := by
  unfold takeWord
  cases h : decode (s.pending ++ [w]) with
  | ok p => exact .inl ⟨p.1, p.2, rfl, rfl⟩
  | error e =>
    cases e with
    | incomplete => exact .inr (.inr ⟨rfl, rfl⟩)
    | illegal c => exact .inr (.inl ⟨c, rfl, rfl⟩)

/-- Everything a step that answers a next state can be (R13). -/
theorem step_cases {s t : State} (h : step s = .next t) :
    (s.inputs = [] ∧ t = s)
      ∨ (∃ w rest, s.inputs = .word w :: rest ∧ takeWord w { s with inputs := rest } = .next t)
      ∨ (∃ rest, s.inputs = .pulse :: rest ∧ t = pulseStep { s with inputs := rest })
      ∨ (∃ us rest, s.inputs = .tick us :: rest ∧ s.clk.mono.toNat + us < 2 ^ 64
          ∧ t = { s with inputs := rest,
                         clk := { s.clk with mono := BitVec.ofNat 64 (s.clk.mono.toNat + us) } })
      ∨ (∃ rest, s.inputs = .hwReset :: rest ∧ t = hardwareReset { s with inputs := rest }) := by
  unfold step at h
  split at h
  · exact .inl ⟨‹_›, by cases h; rfl⟩
  · exact .inr (.inl ⟨_, _, ‹_›, h⟩)
  · exact .inr (.inr (.inl ⟨_, ‹_›, by cases h; rfl⟩))
  · refine .inr (.inr (.inr (.inl ⟨_, _, ‹_›, ?_⟩)))
    simp only [advanceTime] at h
    split at h
    · exact ⟨‹_›, by cases h; rfl⟩
    · cases h
  · exact .inr (.inr (.inr (.inr ⟨_, ‹_›, by cases h; rfl⟩)))

/-- An invariant that a block has after a hardware reset, whatever is to arrive, and that every step keeps, holds in every
state a run reaches: the induction over runs, once (R240). -/
theorem reachable_invariant {c : Config} {P : State → Prop}
    (start : ∀ inputs, P { State.atReset c with inputs := inputs })
    (keeps : ∀ s t, P s → step s = .next t → P t) {s : State} (h : Reachable c s) : P s := by
  induction h with
  | start inputs => exact start inputs
  | next _ hs ih => exact keeps _ _ ih hs

end Sys2Proof.Machine
end

