-- ==== Sys2Proof/Laws/PerInstr.lean ====
section
/-!
SUPPORT. Statements for all commands, made command by command.
-/

namespace Sys2Proof.Laws

/-- The encoding of a command has as many words as its row takes (spec/30_encoding.md R80, R89). -/
def EncodedLength.Statement (i : Instr) : Prop :=
  i.WellFormed → ∃ w ws, encode i = w :: ws ∧ ws.length = i.op.payloadWords w

theorem EncodedLength.nop : EncodedLength.Statement .nop := fun _ => ⟨_, _, rfl, rfl⟩
theorem EncodedLength.rdcsr (csr : BitVec 8) : EncodedLength.Statement (.rdcsr csr) := fun _ => ⟨_, _, rfl, rfl⟩
theorem EncodedLength.wrcsr (csr : BitVec 8) (d : BitVec 16) : EncodedLength.Statement (.wrcsr csr d) :=
  fun _ => ⟨_, _, rfl, rfl⟩
theorem EncodedLength.rsPop : EncodedLength.Statement .rsPop := fun _ => ⟨_, _, rfl, rfl⟩
theorem EncodedLength.rsReset : EncodedLength.Statement .rsReset := fun _ => ⟨_, _, rfl, rfl⟩
theorem EncodedLength.fbRd (idx : BitVec 8) : EncodedLength.Statement (.fbRd idx) := fun _ => ⟨_, _, rfl, rfl⟩
theorem EncodedLength.fbWr (idx : BitVec 8) (d : Sample) : EncodedLength.Statement (.fbWr idx d) :=
  fun _ => ⟨_, _, rfl, rfl⟩
theorem EncodedLength.fpProc (bp de : Bool) : EncodedLength.Statement (.fpProc bp de) := fun _ => ⟨_, _, rfl, rfl⟩
theorem EncodedLength.fpReset : EncodedLength.Statement .fpReset := fun _ => ⟨_, _, rfl, rfl⟩
theorem EncodedLength.ckNow : EncodedLength.Statement .ckNow := fun _ => ⟨_, _, rfl, rfl⟩
theorem EncodedLength.ckLocked : EncodedLength.Statement .ckLocked := fun _ => ⟨_, _, rfl, rfl⟩
theorem EncodedLength.ckJitter : EncodedLength.Statement .ckJitter := fun _ => ⟨_, _, rfl, rfl⟩
theorem EncodedLength.ckFix (epoch : BitVec 32) : EncodedLength.Statement (.ckFix epoch) := fun _ => ⟨_, _, rfl, rfl⟩

theorem EncodedLength.rsPush (samples : List Sample) : EncodedLength.Statement (.rsPush samples) := fun h => by
  refine ⟨_, _, rfl, ?_⟩
  have hl : samples.length ≤ 65535 := by simpa [Instr.WellFormed, Instr.wellFormed] using h
  simp only [Instr.op, Op.payloadWords, Machine.pushLen, Machine.fieldD_mkWord, List.length_map, BitVec.toNat_ofNat]
  omega

end Sys2Proof.Laws
end

