-- ==== Sys2Proof/Tests/Slice0.lean ====
section
/-!
SUPPORT. Tests of the model, and for each obligation with hypotheses a state and operands that meet them.

The expected values are those of spec/95_test_vectors.md (named in each comment) or worked by hand from the rule named.
-/

namespace Sys2Proof.Tests

open Sys2Proof Sys2Proof.Machine

/-! ### Helpers -/

/-- CFG_T, the test configuration of 95_test_vectors.md section 1. -/
def cfgT : Config where
  consts := Consts.r7
  deAlpha := ⟨false, 0x3E800000⟩
  par := OpenParams.testT
  constsFit := by decide
  parFit := by decide

/-- The block with CFG_T after a hardware reset. -/
def s0 : State := State.atReset cfgT

/-- A view of the next state; none where the machine stops. -/
def after {α : Type} (f : State → α) (o : Host.Outcome State Fault Refusal) : Option α :=
  match o with
  | .next t => some (f t)
  | .fault _ => none
  | .refused _ => none

/-- The words sent. -/
def answered (o : Host.Outcome State Fault Refusal) : Option (List Word) := after State.responses o

/-- The state with a clock that was last pulsed `e` microseconds ago, showing `secs`, with or without a fix. -/
def clocked (secs : BitVec 32) (e : Nat) (fix : Bool) : State :=
  { s0 with clk := { s0.clk with mono := BitVec.ofNat 64 (5000000 + e), lastp := 5000000#64, secs := secs,
                                 haveFix := fix, pulseSeen := true } }

/-- The state with `n` samples in ACC: 1, 2, 3, ... -/
def holding (n : Nat) : State :=
  { s0 with rsmp := { s0.rsmp with acc := (List.range n).map fun k => BitVec.ofNat 16 (k + 1) } }

/-- The state with a frame of samples in FB. -/
def framed (xs : List Sample) : State := { s0 with fb := fbFrom 0 xs }

/-- The state to which inputs still arrive. -/
def given (s : State) (inputs : List Input) : State := { s with inputs := inputs }

/-! ### Well-formedness -/

/-- A push of `n` samples is well-formed up to the length field's greatest value. -/
theorem push_wellFormed (n : Nat) : (Instr.rsPush (List.replicate n 0#16)).wellFormed = decide (n ≤ 65535) := by
  simp only [Instr.wellFormed, List.length_replicate]

/-- The check of RS.PUSH refuses a block that the 16-bit length field cannot carry (R83). -/
theorem test_wellFormed_refuses_long_push : (Instr.rsPush (List.replicate 65536 0#16)).wellFormed = false :=
  (push_wellFormed 65536).trans (by decide)

/-- The longest block is well-formed. -/
theorem test_wellFormed_takes_longest_push : (Instr.rsPush (List.replicate 65535 0#16)).wellFormed = true :=
  (push_wellFormed 65535).trans (by decide)

/-! ### Decoding: words of the assembly table of 95_test_vectors.md 3.5 and of its programs -/

theorem test_decode_nop : decode [0x00000000#32] = .ok (.nop, []) := by decide
theorem test_decode_rdcsr : decode [0x01060000#32] = .ok (.rdcsr 0x06#8, []) := by decide
theorem test_decode_wrcsr : decode [0x02040180#32] = .ok (.wrcsr 0x04#8 0x0180#16, []) := by decide
theorem test_decode_rsPush :
    decode [0x10000002#32, 0xABCD8000#32, 0x43000000#32, 0x01020000#32]
      = .ok (.rsPush [0x8000#16, 0x0000#16], [0x01020000#32]) := by decide
theorem test_decode_rsPop : decode [0x11000000#32] = .ok (.rsPop, []) := by decide
theorem test_decode_rsReset : decode [0x12000000#32] = .ok (.rsReset, []) := by decide
theorem test_decode_fbRd : decode [0x20030000#32] = .ok (.fbRd 3#8, []) := by decide
theorem test_decode_fbWr : decode [0x2101FC18#32] = .ok (.fbWr 1#8 (BitVec.ofInt 16 (-1000)), []) := by decide
theorem test_decode_fpProc_bp : decode [0x30000001#32] = .ok (.fpProc true false, []) := by decide
theorem test_decode_fpProc_de : decode [0x30000002#32] = .ok (.fpProc false true, []) := by decide
theorem test_decode_fpReset : decode [0x31000000#32] = .ok (.fpReset, []) := by decide
theorem test_decode_ckNow : decode [0x40000000#32] = .ok (.ckNow, []) := by decide
theorem test_decode_ckLocked : decode [0x41000000#32] = .ok (.ckLocked, []) := by decide
theorem test_decode_ckJitter : decode [0x42000000#32] = .ok (.ckJitter, []) := by decide
theorem test_decode_ckFix : decode [0x43000000#32, 0x6553F100#32] = .ok (.ckFix 1700000000#32, []) := by decide

/-- The twelve illegal words of trace V-EN, and P4's push with a bad reserved field. -/
theorem test_decode_illegal :
    ([0x00000001#32, 0x01000001#32, 0x03000000#32, 0x11000001#32, 0x12800000#32, 0x20030001#32, 0x30000004#32,
        0x31000100#32, 0x40000001#32, 0x43000001#32, 0x44000000#32, 0xFFFFFFFF#32, 0x10010002#32].all
      fun w => decide (decode [w] = .error (.illegal w))) = true := by decide +kernel

/-- R98, R99: lines, their text and their words. -/
theorem test_assembly :
    lineWords (.command (.rsPush [1#16, 0xFFFF#16])) = [0x10000002#32, 0x00000001#32, 0x0000FFFF#32]
      ∧ commandText (.rsPush [1#16, 0xFFFF#16]) = "RS.PUSH 1 -1" ∧ commandText (.rdcsr 6#8) = "RDCSR NOISE"
      ∧ commandText (.fbWr 1#8 0xFC18#16) = "FB.WR 1, -1000" ∧ commandText (.fpProc false true) = "FP.PROC 0, 1" := by
  decide +kernel

/-- R98, R99, R100: lines of the traces read back, with a comment, a CSR by name, and hexadecimal. -/
theorem test_read_lines :
    readLine "WRCSR CAL, 0x0180 ; a comment" = some (.command (.wrcsr 4#8 0x0180#16))
      ∧ readLine "RS.PUSH 100 200 -300" = some (.command (.rsPush [100#16, 200#16, 0xFED4#16]))
      ∧ readLine "FB.WR 0, -32768" = some (.command (.fbWr 0#8 0x8000#16)) ∧ readLine "TICK 999999" = some (.tick 999999)
      ∧ readLine "FP.PROC 1, 2" = none := by
  decide +kernel

/-- R7, U5: a configuration that names neither has RSSI_SCALE 1.0 and DE_ALPHA 0x3E4CCCCD. -/
theorem test_defaults (p : OpenParams) (h : p.fits 160 = true) :
    ({ step := p.step, rsAlpha := p.rsAlpha, hpTaps := p.hpTaps, bpTaps := p.bpTaps, accCap := p.accCap } :
        OpenParams).rssiScale.bits = 0x3F800000#32
      ∧ ({ par := p, constsFit := by decide, parFit := h } : Config).deAlpha.bits = 0x3E4CCCCD#32 := by
  exact ⟨(by decide : rssiScaleDefault.bits = 0x3F800000#32), (by decide : deAlphaR7.bits = 0x3E4CCCCD#32)⟩

/-! ### Numbers: the binary32 patterns of 95_test_vectors.md -/

/-- RS_BETA and DE_BETA of CFG_T, and DE_BETA of the constant 0x3E4CCCCD (R154). -/
theorem test_betas : (rsBeta cfgT).bits = 0#32 ∧ (deBeta cfgT).bits = 0x3F400000#32
    ∧ (fsub (i2f 1) deAlphaR7).bits = 0x3F4CCCCD#32 := by decide +kernel

/-- The intermediates of V-FP-2: 524288, sqrt(3276.8), and 255 less that root. -/
theorem test_root_and_quotient :
    (i2f 524288).bits = 0x49000000#32 ∧ (fsqrt (fdiv (i2f 524288) (i2f 160))).bits = 0x4264F92E#32
      ∧ (fsub (i2f 255) (fsqrt (fdiv (i2f 524288) (i2f 160)))).bits = 0x4345C1B4#32 := by decide +kernel

/-- R11 and R155: 841.75, -2.5 and 40000 as samples. -/
theorem test_clip16 : clip16 (fdiv (i2f 3367) (i2f 4)) = 841#16
    ∧ clip16 (fdiv (i2f (-5)) (i2f 2)) = BitVec.ofInt 16 (-2) ∧ clip16 (i2f 40000) = 32767#16 := by decide +kernel

/-! ### One step of each command -/

/-- V-SY. -/
theorem test_nop : answered (exec .nop s0) = some [0x00000000#32] := by decide

/-- V-SY: GEOM of CFG_T. -/
theorem test_rdcsr_geom : answered (exec (.rdcsr 8#8) s0) = some [0x01000000#32, 0x00020302#32] := by decide

/-- V-SY: CSR 9 is not implemented. -/
theorem test_rdcsr_unimplemented :
    answered (exec (.rdcsr 9#8) s0) = some [0x01020000#32] ∧ after State.err (exec (.rdcsr 9#8) s0) = some 0x08#7 := by
  decide

/-- V-SY: CAL clamps, with code 0 and the flag CFG. -/
theorem test_wrcsr_cal :
    answered (exec (.wrcsr 4#8 0x0080#16) s0) = some [0x02000100#32]
      ∧ after (fun t => (t.err, t.filt.cal)) (exec (.wrcsr 4#8 0x0080#16) s0) = some (0x02#7, 0x0100#16) := by decide

/-- V-SY: from CFG | CSR, WRCSR ERR, 0x0002 leaves CSR and answers it. -/
theorem test_wrcsr_err :
    answered (exec (.wrcsr 1#8 0x0002#16) { s0 with err := 0x0A#7 }) = some [0x02000008#32] := by decide

/-- V-RS-1: one output for each input, delayed by one sample; PREV = LP = -32768. -/
theorem test_rsPush_unit_step :
    after (fun t => (t.rsmp.acc.map BitVec.toInt, t.rsmp.lp.bits, t.rsmp.prev.bits, t.rsmp.pos.bits))
        (exec (.rsPush [100#16, 200#16, 0xFED4#16, 0x7FFF#16, 0x8000#16]) s0)
      = some ([0, 100, 200, -300, 32767], 0xC7000000#32, 0xC7000000#32, 0#32) := by decide +kernel

/-- R133: a store into a full ACC starts over, counts and sets OVF. -/
theorem test_rsPush_overflow :
    after (fun t => (t.rsmp.acc, t.rsmp.ovfCnt, t.err)) (exec (.rsPush [7#16]) (holding 320))
      = some ([0#16], 1#32, 0x01#7) := by decide +kernel

/-- V-RS-11: nothing to pop. -/
theorem test_rsPop_under :
    answered (exec .rsPop s0) = some [0x11030000#32] ∧ after State.err (exec .rsPop s0) = some 0x10#7 := by decide

/-- R135: of 161 samples the oldest 160 become the frame and one stays. -/
theorem test_rsPop_frame :
    after (fun t => (t.rsmp.acc, fbRead t.fb 0, fbRead t.fb 159)) (exec .rsPop (holding 161))
      = some ([161#16], 1#16, 160#16) := by decide +kernel

/-- V-RS-12: ACC is emptied and OVF_CNT kept. -/
theorem test_rsReset :
    after (fun t => (t.rsmp.acc, t.rsmp.ovfCnt, t.responses))
        (exec .rsReset { s0 with rsmp := { (holding 3).rsmp with ovfCnt := 5#32 } })
      = some ([], 5#32, [0x12000000#32]) := by decide

/-- V-SY: a negative sample read back, and index 255. -/
theorem test_fbRd :
    answered (exec (.fbRd 1#8) (framed [0#16, 0xFC18#16])) = some [0x2000FC18#32]
      ∧ answered (exec (.fbRd 255#8) s0) = some [0x20040000#32] := by decide

/-- V-SY: the last location, and the first that does not exist. -/
theorem test_fbWr :
    after (fun t => fbRead t.fb 159) (exec (.fbWr 159#8 0x7FFF#16) s0) = some 0x7FFF#16
      ∧ answered (exec (.fbWr 160#8 5#16) s0) = some [0x21040000#32] := by decide

/-- V-FP-2: an impulse through both stages; RSSI 197, and DEY's pattern at the end. -/
theorem test_fpProc_impulse :
    after (fun t => ((fbFrame 8 t.fb).map BitVec.toInt, t.filt.dey.bits, t.responses))
        (exec (.fpProc true true) (framed [1024#16]))
      = some ([64, 176, 196, 147, 110, 82, 62, 46], 0x22AF512A#32, [0x300000C5#32]) := by decide +kernel

/-- V-FP-5: all 400 through the band-pass; RSSI 239, BPZ all 400, DEY as it was. -/
theorem test_fpProc_bandPass :
    after (fun t => ((fbFrame 4 t.fb).map BitVec.toInt, t.filt.bpz.map F.bits, t.filt.dey, t.responses))
        (exec (.fpProc true false) (framed (List.replicate 160 400#16)))
      = some ([100, 300, 400, 400], [0x43C80000#32, 0x43C80000#32, 0x43C80000#32], F.zero, [0x300000EF#32]) := by
  decide +kernel

/-- R157. -/
theorem test_fpReset :
    after (fun t => (t.filt.hpz, t.filt.dey, t.filt.rssi, t.responses))
        (exec .fpReset { s0 with filt := { s0.filt with hpz := [i2f 3, i2f 4], dey := i2f 1, rssi := 77#8 } })
      = some ([F.zero, F.zero], F.zero, 77#8, [0x31000000#32]) := by decide +kernel

/-- P3 at 5,599,999: 1700000003 seconds and 99,999,000 nanoseconds, from a pulse at 4,500,000. -/
theorem test_ckNow :
    answered (exec .ckNow (clocked 0x6553F102#32 1099999 true)) = some [0x40000000#32, 0x6553F103#32, 0x05F5DD18#32] := by
  decide

/-- P3: locked at 1,100,000 microseconds, not locked one later. -/
theorem test_ckLocked :
    answered (exec .ckLocked (clocked 5#32 1100000 true)) = some [0x41000001#32]
      ∧ answered (exec .ckLocked (clocked 5#32 1100001 true)) = some [0x41000000#32] := by decide

/-- P3: 37 microseconds too long; V-CK-2: 100,000 too short. -/
theorem test_ckJitter :
    answered (exec .ckJitter { s0 with clk := { s0.clk with ival := 1000037#64 } }) = some [0x42000000#32, 0x25#32]
      ∧ answered (exec .ckJitter { s0 with clk := { s0.clk with ival := 900000#64 } })
          = some [0x42000000#32, 0x000186A0#32] := by decide

/-- V-CK-5: difference 2 is kept, difference 3 overwrites, backward too. -/
theorem test_ckFix :
    after (fun t => (t.clk.secs, t.responses)) (exec (.ckFix 503#32) (clocked 501#32 0 true))
        = some (501#32, [0x43000000#32])
      ∧ after (fun t => (t.clk.secs, t.responses)) (exec (.ckFix 498#32) (clocked 501#32 0 true))
        = some (498#32, [0x43000001#32]) := by decide

/-! ### Steps of the other agents -/

/-- V-CK-3: 1,499,999 microseconds are one second and 1,500,000 are two. -/
theorem test_pulse_rounds :
    (pulseStep (clocked 1#32 1499999 false)).clk.secs = 2#32 ∧ (pulseStep (clocked 1#32 1500000 false)).clk.secs = 3#32 := by
  decide

/-- V-CK-2 and V-CK-6: the debounce boundary, and the stop at the top with SAT. -/
theorem test_pulse_debounce_and_top :
    (pulseStep (clocked 1#32 899999 false)).clk.secs = 1#32 ∧ (pulseStep (clocked 1#32 900000 false)).clk.secs = 2#32
      ∧ (pulseStep (clocked 0xFFFFFFFF#32 1000000 true)).clk.secs = 0xFFFFFFFF#32
      ∧ (pulseStep (clocked 0xFFFFFFFF#32 1000000 true)).err = 0x40#7 := by decide

/-- The first step of a program placed after reset runs it (log 7). -/
theorem test_withFetchWord :
    answered (step (State.reset.withFetchWord 32 0x01000000)) = some [0x01000000#32, 0x54560007#32] := by
  decide +kernel

/-! ### Witnesses: for each obligation with hypotheses, and each clause of one, a state and operands that meet them -/

theorem witness_EncodedCommandDecodesToItself :
    (Instr.rsPush (List.replicate 65535 0#16)).WellFormed ∧ (Instr.ckFix 0xFFFFFFFF#32).WellFormed :=
  ⟨test_wellFormed_takes_longest_push, rfl⟩

theorem witness_DecodedWordsAreItsEncoding :
    decode [0x10000001#32, 0xABCD8000#32, 0x11000000#32] = .ok (.rsPush [0x8000#16], [0x11000000#32])
      ∧ decode [0x43000000#32, 0x10000002#32] = .ok (.ckFix 0x10000002#32, []) := by decide +kernel

/-- The three clauses, each at the ends of its range. -/
theorem witness_LengthFromCommandWordAlone :
    ([0x10000000#32, 0x1000FFFF#32].all fun w => decide (w &&& 0xFFFF0000#32 = 0x10000000#32)) = true
      ∧ commandLength 0x10000000#32 = 1 ∧ commandLength 0x1000FFFF#32 = 65536 ∧ commandLength 0x43000000#32 = 2
      ∧ ([0x43000001#32, 0x10010000#32, 0x0FFFFFFF#32, 0x11000000#32].all fun w =>
          decide (w &&& 0xFFFF0000#32 ≠ 0x10000000#32 ∧ w ≠ 0x43000000#32 ∧ commandLength w = 1)) = true := by decide +kernel

/-- The first and the last opcode of each of the five ranges of R96. -/
theorem witness_UnusedOpcodesAreIllegal :
    ([0x03000000#32, 0x0FFFFFFF#32, 0x13000000#32, 0x1FFFFFFF#32, 0x22000000#32, 0x2FFFFFFF#32, 0x32000000#32,
        0x3FFFFFFF#32, 0x44000000#32, 0xFFFFFFFF#32].all fun w => decide (decodeOp w = none)) = true := by decide +kernel

theorem witness_StepRunsDecodedCommand :
    (given { s0 with pending := [0x43000000#32] } [.word 7#32, .pulse]).inputs = .word 7#32 :: [.pulse]
      ∧ decode ([0x43000000#32] ++ [7#32]) = .ok (.ckFix 7#32, []) := by decide +kernel

theorem witness_DeliveredCommandIsPerformedOnce :
    (Instr.ckFix 7#32).WellFormed ∧ s0.pending = []
      ∧ (given s0 [.word 0x43000000#32, .word 7#32, .pulse]).inputs = (encode (.ckFix 7#32)).map Input.word ++ [.pulse] := by
  decide +kernel

theorem witness_IncompleteCommandIsPending :
    (given { s0 with pending := [0x10000002#32] } [.word 1#32]).inputs = [.word 1#32]
      ∧ decode ([0x10000002#32] ++ [1#32]) = .error .incomplete := by decide +kernel

theorem witness_IllegalWordIsReported :
    (given s0 [.word 0x10010002#32]).pending = [] ∧ (given s0 [.word 0x10010002#32]).inputs = [.word 0x10010002#32]
      ∧ ∀ o ∈ Op.all, 0x10010002#32 &&& o.maskWord ≠ o.matchWord := by decide +kernel

/-- An advance to the top of MONO, and one past it. -/
theorem witness_TimeMovesOnlyMono :
    (given (clocked 0#32 0 false) [.tick (2 ^ 64 - 5000001)]).clk.mono.toNat + (2 ^ 64 - 5000001) < 2 ^ 64
      ∧ 2 ^ 64 ≤ (given (clocked 0#32 0 false) [.tick (2 ^ 64 - 5000000)]).clk.mono.toNat + (2 ^ 64 - 5000000) := by decide +kernel

theorem witness_HardwareResetPutsEveryValue :
    (given { holding 3 with pending := [0x43000000#32] } [.hwReset, .pulse]).AtR7
      ∧ (given { holding 3 with pending := [0x43000000#32] } [.hwReset, .pulse]).inputs = .hwReset :: [.pulse] := by decide +kernel

/-- Both clauses at the debounce boundary, the second also at the top of SECS and on the first pulse. -/
theorem witness_PulseStepAsWritten :
    (given (clocked 1#32 899999 false) [.pulse]).AtR7
      ∧ debounced cfgT (clocked 1#32 899999 false).clk = true ∧ debounced cfgT (clocked 1#32 900000 false).clk = false
      ∧ debounced cfgT (clocked 0xFFFFFFFF#32 1000000 true).clk = false ∧ debounced cfgT s0.clk = false := by decide +kernel

theorem witness_CkNowAnswersTimestamp : (clocked 0xFFFFFFFF#32 1000000 true).AtR7 := by decide +kernel

/-- Both clauses where they meet. -/
theorem witness_CkLockedAnswersLock :
    (clocked 5#32 1100000 true).AtR7 ∧ locked cfgT (clocked 5#32 1100000 true).clk = true
      ∧ (clocked 5#32 1100001 true).AtR7 ∧ locked cfgT (clocked 5#32 1100001 true).clk = false
      ∧ locked cfgT (clocked 5#32 0 false).clk = false := by decide +kernel

theorem witness_CkJitterAnswersDeviation : (clocked 5#32 0 true).AtR7 := by decide +kernel

/-- Both clauses where they meet: a difference of 2 and of 3, and a lock just lost. -/
theorem witness_CkFixOverwritesOrKeeps :
    (clocked 501#32 0 true).AtR7 ∧ fixOverwrites cfgT (clocked 501#32 0 true).clk 503#32 = false
      ∧ fixOverwrites cfgT (clocked 501#32 0 true).clk 504#32 = true
      ∧ fixOverwrites cfgT (clocked 501#32 1100001 true).clk 501#32 = true := by decide +kernel

theorem witness_TimestampRisesWithMono :
    cfgT.consts = Consts.r7 ∧ (clocked 0xFFFFFFFE#32 0 true).clk.lastp.toNat ≤ (clocked 0xFFFFFFFE#32 0 true).clk.mono.toNat
      ∧ (clocked 0xFFFFFFFE#32 0 true).clk.mono.toNat < 6999999
      ∧ 0xFFFFFFFE + elapsed { (clocked 0xFFFFFFFE#32 0 true).clk with mono := 6999999#64 } / 1000000 ≤ 0xFFFFFFFF := by
  decide +kernel

/-- Both clauses at their bounds: r = 0, r = 499,999, r = 500,000, r = 999,999, with q = 1 and q = 2; q = 0 at the debounce
boundary, and for a first pulse at reset, at r = 499,999 and at r = 999,999. -/
theorem witness_TimestampAcrossAcceptedPulse :
    ∀ r ∈ [0, 499999, 500000, 999999], ∀ q ∈ [1, 2],
      (clocked 7#32 (1000000 * q + r) true).AtR7 ∧ debounced cfgT (clocked 7#32 (1000000 * q + r) true).clk = false
        ∧ elapsed (clocked 7#32 (1000000 * q + r) true).clk = 1000000 * q + r ∧ 7 + q + 1 ≤ 0xFFFFFFFF := by decide +kernel

theorem witness_TimestampAcrossAcceptedPulse_within_a_second :
    (debounced cfgT (clocked 7#32 900000 true).clk = false ∧ elapsed (clocked 7#32 900000 true).clk = 1000000 * 0 + 900000)
      ∧ ∀ r ∈ [0, 499999, 999999], debounced cfgT { s0.clk with mono := BitVec.ofNat 64 r } = false
          ∧ elapsed { s0.clk with mono := BitVec.ofNat 64 r } = 1000000 * 0 + r := by decide +kernel

theorem witness_RdcsrReadsEachRegister : (holding 5).AtR7 := by decide +kernel

/-- The first clause at both ends; the second for an unimplemented number and for read-only ones on both sides of 0x01
and 0x04. -/
theorem witness_CsrAccessRefusedWithECsr :
    (0x09 ≤ (0x09#8).toNat ∧ 0x09 ≤ (0xFF#8).toNat)
      ∧ ([0x00#8, 0x02#8, 0x03#8, 0x05#8, 0x09#8, 0xFF#8].all fun csr =>
          decide (csr.toNat ≠ 0x01 ∧ csr.toNat ≠ 0x04)) = true := by decide +kernel

theorem witness_WrcsrCalStoresClamped :
    s0.AtR7 ∧ (0x00FF#16).toNat < 0x0100 ∧ 0x0100 ≤ (0x0100#16).toNat ∧ 0x0100 ≤ (0xFFFF#16).toNat := by decide +kernel

theorem witness_FbRdAnswersSample : s0.AtR7 ∧ (159#8).toNat ≤ 159 ∧ 160 ≤ (160#8).toNat := by decide +kernel

theorem witness_FbWrStoresOneSample :
    (framed [1#16, 0#16, 3#16]).AtR7 ∧ Memory.wf 160 (framed [1#16, 0#16, 3#16]).fb = true
      ∧ (159#8).toNat ≤ 159 ∧ 160 ≤ (160#8).toNat := by decide +kernel

theorem witness_RsPopMovesOldestFrame :
    (holding 160).AtR7 ∧ 160 ≤ (holding 160).rsmp.acc.length ∧ (holding 159).AtR7 ∧ (holding 159).rsmp.acc.length < 160 := by
  decide +kernel

theorem witness_AccStoreAppendsOrStartsOver :
    (holding 319).rsmp.acc.length ≠ (holding 319).cfg.par.accCap
      ∧ (holding 320).rsmp.acc.length = (holding 320).cfg.par.accCap := by decide +kernel

theorem witness_RsPushCompletesWithinResampler :
    (holding 320).AtR7 ∧ (holding 320).rsmp.PosOk
      ∧ Rsmp.PosOk { s0.rsmp with pos := ⟨true, 0⟩ } := by decide +kernel

theorem witness_EmptyPushChangesNothing : (holding 160).AtR7 := by decide +kernel

theorem witness_RsPushRunsTheWhileLoops :
    s0.AtR7 ∧ s0.rsmp.PosOk ∧ (List.replicate 65535 (7#16 : Sample)).length ≤ 65535 :=
  ⟨by decide, by decide, Nat.le_of_eq List.length_replicate⟩

theorem witness_UnitStepDelaysByOneSample :
    (holding 315).cfg.par.step.bits = 0x3F800000#32 ∧ (holding 315).rsmp.pos = F.zero
      ∧ ([1, 2, 3, 4, 5] : List Sample).length ≤ 65535
      ∧ (holding 315).rsmp.acc.length + ([1, 2, 3, 4, 5] : List Sample).length ≤ (holding 315).cfg.par.accCap := by
  decide +kernel

/-- A push moves POS, and the premise holds before it. -/
theorem witness_PosNeverTurnsNegative :
    (given s0 [.word 0x10000000#32]).rsmp.PosOk
      ∧ ∃ t, step (given s0 [.word 0x10000000#32]) = .next t := by
  refine ⟨by decide +kernel, _, rfl⟩

theorem witness_FpProcCompletesWithinFilter : (framed [1024#16]).AtR7 := by decide +kernel

theorem witness_BothStagesOffKeepTheFrame :
    (framed [0x8000#16, 0#16, 0x7FFF#16]).AtR7 ∧ Memory.wf 160 (framed [0x8000#16, 0#16, 0x7FFF#16]).fb = true := by decide +kernel

theorem witness_SilenceGivesFullRssi :
    s0.AtR7 ∧ s0.fb = [] ∧ allZero s0.filt.hpz ∧ allZero s0.filt.bpz ∧ s0.filt.dey.units = 0 ∧ 0x0100 ≤ s0.filt.cal.toNat := by
  refine ⟨by decide +kernel, rfl, ?_, ?_, by decide +kernel, by decide +kernel⟩ <;> unfold allZero <;> decide +kernel

/-- Two frames that agree up to location 1 and differ after it. -/
theorem witness_LaterSamplesDoNotMatter :
    1 < (framed [1#16, 2#16, 3#16]).cfg.consts.frameLen
      ∧ ∀ a ≤ 1, fbRead (framed [1#16, 2#16, 9#16]).fb a = fbRead (framed [1#16, 2#16, 3#16]).fb a := by decide +kernel

theorem witness_FirAnswersTapSums : s0.filt.hpz.length = s0.cfg.par.hpTaps.length := by decide +kernel

theorem witness_FpProcFrameAsWritten :
    (framed [1024#16]).AtR7 ∧ (framed [1024#16]).filt.bpz.length = (framed [1024#16]).cfg.par.bpTaps.length := by decide +kernel

theorem witness_FpProcRssiAsWritten :
    (framed [1024#16]).AtR7 ∧ (framed [1024#16]).filt.hpz.length = (framed [1024#16]).cfg.par.hpTaps.length := by decide +kernel

/-- The greatest finite number, and a tie: 2^24 + 1 lies halfway between 2^24 and 2^24 + 2. -/
theorem witness_FaddRoundsToNearestEven :
    (F.scaled ⟨false, 0x7F7FFFFF⟩ + F.scaled F.zero).natAbs ≤ (2 ^ 24 - 1) * 2 ^ 253
      ∧ ((i2f 16777216).scaled + (i2f 1).scaled).natAbs ≤ (2 ^ 24 - 1) * 2 ^ 253
      ∧ fadd (i2f 16777216) (i2f 1) = i2f 16777216 := by decide +kernel

theorem witness_FmulRoundsToNearestEven :
    (F.scaled ⟨false, 0x7F7FFFFF⟩ * (i2f 1).scaled).natAbs ≤ (2 ^ 24 - 1) * 2 ^ 253 * 2 ^ 149
      ∧ (F.scaled ⟨false, 1⟩ * (fdiv (i2f 1) (i2f 2)).scaled).natAbs ≤ (2 ^ 24 - 1) * 2 ^ 253 * 2 ^ 149 := by
  decide +kernel

theorem witness_FdivRoundsToNearest :
    (i2f 3).units ≠ 0 ∧ (i2f 1).units * 2 ^ 149 ≤ (i2f 3).units * ((2 ^ 24 - 1) * 2 ^ 253) := by decide +kernel

theorem witness_FsqrtRoundsToNearest : (i2f 2).neg = false := by decide +kernel

theorem witness_EveryStepKeepsInvariant :
    (given s0 [.pulse]).Ok ∧ ∃ t, step (given s0 [.pulse]) = .next t := by
  refine ⟨⟨by decide +kernel, by decide +kernel, by decide +kernel, by decide +kernel, rfl⟩, _, rfl⟩

theorem witness_NoStepChangesConfiguration : ∃ t, step (given s0 [.hwReset]) = .next t := ⟨_, rfl⟩

theorem witness_MonoFallsOnlyAtHardwareReset :
    (∃ t, step (given s0 [.pulse]) = .next t) ∧ (given s0 [.pulse]).inputs.head? ≠ some .hwReset
      ∧ ∀ us : Nat, (given s0 [.pulse]).inputs.head? ≠ some (.tick us) := by
  refine ⟨⟨_, rfl⟩, by decide +kernel, fun us h => ?_⟩
  simp [given] at h

/-- NOP meets every premise on the command. -/
theorem witness_OnlyNamedCommandsWrite :
    (∃ t, exec .nop s0 = .next t) ∧ (∀ e : BitVec 32, Instr.nop ≠ .ckFix e) ∧ (∀ xs : List Sample, Instr.nop ≠ .rsPush xs)
      ∧ (∀ bp de : Bool, Instr.nop ≠ .fpProc bp de) ∧ (∀ d : BitVec 16, Instr.nop ≠ .wrcsr 0x04#8 d)
      ∧ (∀ (idx : BitVec 8) (d : Sample), Instr.nop ≠ .fbWr idx d) ∧ Instr.nop ≠ .rsReset ∧ Instr.nop ≠ .rsPop
      ∧ Instr.nop ≠ .fpReset ∧ (∀ (csr : BitVec 8) (d : BitVec 16), Instr.nop ≠ .wrcsr csr d)
      ∧ ∀ (status : Word) (data : List Word), s0.responses ++ [0x00000000#32] = s0.responses ++ status :: data →
          fieldA status = 0#8 := by
  refine ⟨⟨_, rfl⟩, ?_, ?_, ?_, ?_, ?_, ?_, ?_, ?_, ?_, ?_⟩
  case refine_10 =>
    intro status data h
    rw [← (List.cons.inj (List.append_cancel_left h)).1]
    decide
  all_goals intros; exact Instr.noConfusion

theorem witness_FlagsStayUntilCleared :
    (∀ d : BitVec 16, Instr.rsPop ≠ .wrcsr 0x01#8 d) ∧ ∃ t, exec .rsPop { s0 with err := 0x0A#7 } = .next t :=
  ⟨fun _ => Instr.noConfusion, _, rfl⟩

theorem witness_OneResponseForEachCommand : ∃ t, exec .ckNow s0 = .next t := ⟨_, rfl⟩

theorem witness_FailedCommandSetsOnlyItsFlag :
    ∃ t, exec .rsPop s0 = .next t ∧ t.responses = s0.responses ++ [0x11030000#32] ∧ fieldA 0x11030000#32 ≠ 0#8 :=
  ⟨_, rfl, by decide +kernel, by decide +kernel⟩

theorem witness_FlagsNeverDecide : namesErr .rsPop = false ∧ ∃ t, exec .rsPop s0 = .next t := ⟨rfl, _, rfl⟩

theorem witness_PulseCommutesWithOtherCommands : apartFromClk .rsPop = true ∧ ∃ t, exec .rsPop s0 = .next t :=
  ⟨rfl, _, rfl⟩

end Sys2Proof.Tests
end

section
/-!
The numeric configuration of spec/00_scope.md R10 and R11, the advance of MONO and the reset table.

Every rounding question is put to one place: a pattern whose number is nearest to an exact value that is a real number
`x ≥ 0` (`RoundsEven`). `roundRatio` rounds a quotient and `roundRoot` a root in this sense, and a number of that pattern
is then nearest to the signed exact value among all finite numbers (`RoundsEven.nearestEven`).
-/

namespace Sys2Proof.Machine

/-! ### Rounding a real number to a pattern -/

/-- `p` is the pattern of the number nearest to `x` units, the even pattern where another is as near (R10). -/
def RoundsEven (x : ℝ) (p : Nat) : Prop :=
  ∀ k : Nat, |(patternUnits p : ℝ) - x| ≤ |(patternUnits k : ℝ) - x|
    ∧ (|(patternUnits p : ℝ) - x| = |(patternUnits k : ℝ) - x| → k ≠ p → p % 2 = 0)

theorem patternUnits_cast_le {j k : Nat} : (patternUnits j : ℝ) ≤ patternUnits k ↔ j ≤ k := by
  rw [Nat.cast_le, patternUnits_le]

theorem patternUnits_cast_lt {j k : Nat} : (patternUnits j : ℝ) < patternUnits k ↔ j < k := by
  rw [Nat.cast_lt, patternUnits_lt]

/-- Between two patterns that follow each other there is no third, so rounding to the nearer of the two, to the even one
at the middle, is rounding to the nearest of all. -/
theorem roundsEven_of_between {x : ℝ} {j p : Nat} (hlo : (patternUnits j : ℝ) ≤ x) (hhi : x < patternUnits (j + 1))
    (hp : (p = j ∧ (2 * x < patternUnits j + patternUnits (j + 1)
            ∨ 2 * x = patternUnits j + patternUnits (j + 1) ∧ j % 2 = 0))
      ∨ (p = j + 1 ∧ (patternUnits j + patternUnits (j + 1) < 2 * x
            ∨ 2 * x = patternUnits j + patternUnits (j + 1) ∧ j % 2 = 1))) :
    RoundsEven x p := by
  intro k
  rcases Nat.lt_or_ge j k with hk | hk
  · have hkx : (patternUnits (j + 1) : ℝ) ≤ patternUnits k := patternUnits_cast_le.mpr hk
    rw [abs_of_pos (by linarith : 0 < (patternUnits k : ℝ) - x)]
    rcases hp with ⟨rfl, hx⟩ | ⟨rfl, hx⟩
    · rw [abs_of_nonpos (by linarith)]
      refine ⟨by rcases hx with hx | ⟨hx, -⟩ <;> linarith, fun heq _ => ?_⟩
      rcases hx with hx | ⟨-, heven⟩
      · linarith
      · exact heven
    · rw [abs_of_pos (by linarith)]
      refine ⟨by linarith, fun heq hne => ?_⟩
      have := patternUnits_cast_lt.mpr (lt_of_le_of_ne hk hne.symm)
      linarith
  · have hkx : (patternUnits k : ℝ) ≤ patternUnits j := patternUnits_cast_le.mpr hk
    rw [abs_of_nonpos (by linarith : (patternUnits k : ℝ) - x ≤ 0)]
    rcases hp with ⟨rfl, hx⟩ | ⟨rfl, hx⟩
    · rw [abs_of_nonpos (by linarith)]
      refine ⟨by linarith, fun heq hne => ?_⟩
      have := patternUnits_cast_lt.mpr (lt_of_le_of_ne hk hne)
      linarith
    · rw [abs_of_pos (by linarith)]
      refine ⟨by rcases hx with hx | ⟨hx, -⟩ <;> linarith, fun heq _ => ?_⟩
      rcases hx with hx | ⟨-, hodd⟩
      · linarith
      · omega

theorem patternOf_succ (e m : Nat) : patternOf e (m + 1) = patternOf e m + 1 := by unfold patternOf; omega

theorem patternOf_mod_two (e m : Nat) : patternOf e m % 2 = m % 2 := by unfold patternOf; omega

/-- The same with the two patterns given by a significand `m` at an exponent `e`, as the model's rounding finds them. -/
theorem roundsEven_patternOf {x : ℝ} {e m r : Nat} (hm : m < 2 ^ 24) (he : e = 0 ∨ 2 ^ 23 ≤ m)
    (hlo : (m : ℝ) * 2 ^ e ≤ x) (hhi : x < ((m : ℝ) + 1) * 2 ^ e)
    (hr : (r = m ∧ (2 * x < (2 * (m : ℝ) + 1) * 2 ^ e ∨ 2 * x = (2 * (m : ℝ) + 1) * 2 ^ e ∧ m % 2 = 0))
      ∨ (r = m + 1 ∧ ((2 * (m : ℝ) + 1) * 2 ^ e < 2 * x ∨ 2 * x = (2 * (m : ℝ) + 1) * 2 ^ e ∧ m % 2 = 1))) :
    RoundsEven x (patternOf e r) := by
  have hj : (patternUnits (patternOf e m) : ℝ) = m * 2 ^ e := by
    exact_mod_cast patternUnits_patternOf (by omega) he
  have hj1 : (patternUnits (patternOf e m + 1) : ℝ) = (m + 1) * 2 ^ e := by
    rw [← patternOf_succ]
    exact_mod_cast patternUnits_patternOf (by omega) (he.imp_right (by omega))
  have hmid : (m : ℝ) * 2 ^ e + (m + 1) * 2 ^ e = (2 * m + 1) * 2 ^ e := by ring
  apply roundsEven_of_between (j := patternOf e m)
  · rwa [hj]
  · rwa [hj1]
  · rw [hj, hj1, hmid, patternOf_mod_two]
    rcases hr with ⟨rfl, hx⟩ | ⟨rfl, hx⟩
    · exact .inl ⟨rfl, hx⟩
    · exact .inr ⟨patternOf_succ e m, hx⟩

/-- A value that does not pass a pattern's number does not round past the pattern. -/
theorem RoundsEven.le_of_le {x : ℝ} {p k : Nat} (h : RoundsEven x p) (hx : x ≤ patternUnits k) : p ≤ k := by
  by_contra hk
  have hlt : (patternUnits k : ℝ) < patternUnits p := patternUnits_cast_lt.mpr (not_le.mp hk)
  obtain ⟨hnear, -⟩ := h k
  rw [abs_of_nonneg (by linarith), abs_of_nonneg (by linarith)] at hnear
  linarith

/-- `roundRatio` rounds the quotient `n / d` (R10). -/
theorem roundsEven_roundRatio (n : Nat) {d : Nat} (hd : 0 < d) : RoundsEven ((n : ℝ) / d) (roundRatio n d) := by
  obtain ⟨e, m, r, hm, he, hr, hlo, hhi, hcase⟩ := roundRatio_cases n d hd
  have hd' : (0 : ℝ) < d := by exact_mod_cast hd
  have scale (a : ℝ) : a * 2 ^ e * d = a * (d * 2 ^ e) := by ring
  rw [hr]
  apply roundsEven_patternOf hm he
  · rw [le_div_iff₀ hd', scale]
    exact_mod_cast hlo
  · rw [div_lt_iff₀ hd', scale]
    exact_mod_cast hhi
  · rw [← mul_div_assoc, div_lt_iff₀ hd', div_eq_iff hd'.ne', lt_div_iff₀ hd', scale]
    exact_mod_cast hcase

/-! ### The square root -/

/-- Taking the bits of the root from the highest keeps the root between `acc` and `acc + 2 ^ b`. -/
theorem rootFrom_eq_sqrt {n b acc : Nat} (hlo : acc * acc ≤ n) (hhi : n < (acc + 2 ^ b) * (acc + 2 ^ b)) :
    rootFrom n b acc = Nat.sqrt n := by
  induction b generalizing acc with
  | zero => exact Nat.eq_sqrt.mpr ⟨hlo, hhi⟩
  | succ b ih =>
    rw [rootFrom]
    split
    · next hbit => exact ih hbit (by rwa [add_assoc, ← two_mul, ← Nat.pow_succ'])
    · next hbit => exact ih hlo (not_le.mp hbit)

/-- The model's integer root is the greatest number whose square is at most `n`. -/
theorem natRoot_eq_sqrt (n : Nat) : natRoot n = Nat.sqrt n := by
  apply rootFrom_eq_sqrt (Nat.zero_le n)
  calc n < 2 ^ (n.log2 + 1) := Nat.lt_log2_self
    _ ≤ 2 ^ (n.log2 / 2 + 1 + (n.log2 / 2 + 1)) := Nat.pow_le_pow_right (by omega) (by omega)
    _ = (0 + 2 ^ (n.log2 / 2 + 1)) * (0 + 2 ^ (n.log2 / 2 + 1)) := by rw [zero_add, pow_add]

/-- Dropping the bits of `q` below its 24 highest leaves a significand of 24 bits, or all of a shorter `q`. -/
theorem significand_range (q : Nat) : q / 2 ^ (q.log2 - 23) < 2 ^ 24
    ∧ (q.log2 - 23 = 0 ∨ 2 ^ 23 ≤ q / 2 ^ (q.log2 - 23)) := by
  constructor
  · rw [Nat.div_lt_iff_lt_mul (Nat.two_pow_pos _), ← Nat.pow_add]
    exact Nat.lt_log2_self.trans_le (Nat.pow_le_pow_right (by omega) (by omega))
  · refine (Nat.eq_zero_or_pos _).imp_right fun hpos => ?_
    have hq : q ≠ 0 := by rintro rfl; simp at hpos
    rw [Nat.le_div_iff_mul_le (Nat.two_pow_pos _), ← Nat.pow_add]
    exact (Nat.le_log2 hq).mp (by omega)

/-- `roundRoot` rounds the real square root of `n` (R10): the root and a midpoint compare as their squares do. -/
theorem roundsEven_roundRoot (n : Nat) : RoundsEven (√(n : ℝ)) (roundRoot n) := by
  obtain ⟨e, he⟩ : ∃ e, e = Nat.log2 (Nat.sqrt n) - 23 := ⟨_, rfl⟩
  obtain ⟨m, hm⟩ : ∃ m, m = Nat.sqrt n / 2 ^ e := ⟨_, rfl⟩
  obtain ⟨mid, hmid⟩ : ∃ mid, mid = (2 * m + 1) * 2 ^ e := ⟨_, rfl⟩
  have hround : roundRoot n
      = patternOf e (if 4 * n > mid * mid || (4 * n == mid * mid && m % 2 == 1) then m + 1 else m) := by
    simp only [roundRoot, natRoot_eq_sqrt, ← he, ← hm, ← hmid]
  obtain ⟨hm24, hm23⟩ := significand_range (Nat.sqrt n)
  rw [← he, ← hm] at hm24 hm23
  have hmid' : (2 * (m : ℝ) + 1) * 2 ^ e = mid := by rw [hmid]; push_cast; rfl
  have hsq : (2 * √(n : ℝ)) * (2 * √(n : ℝ)) = 4 * n := by
    linear_combination 4 * Real.mul_self_sqrt (Nat.cast_nonneg' (α := ℝ) n)
  have hroot : 0 ≤ 2 * √(n : ℝ) := by positivity
  have hmid0 : (0 : ℝ) ≤ mid := Nat.cast_nonneg _
  rw [hround]
  apply roundsEven_patternOf hm24 hm23
  · refine le_trans ?_ Real.nat_sqrt_le_real_sqrt
    rw [hm]
    exact_mod_cast Nat.div_mul_le_self _ _
  · refine Real.real_sqrt_lt_nat_sqrt_succ.trans_le ?_
    rw [hm, mul_comm]
    exact_mod_cast Nat.lt_mul_div_succ (Nat.sqrt n) (Nat.two_pow_pos e)
  · rw [hmid', mul_self_lt_mul_self_iff hroot hmid0, mul_self_lt_mul_self_iff hmid0 hroot,
      ← mul_self_inj hroot hmid0, hsq]
    norm_cast
    rcases lt_trichotomy (4 * n) (mid * mid) with hlt | heq | hgt
    · exact .inl ⟨by simp [hlt.not_gt, hlt.ne], .inl hlt⟩
    · rcases Nat.mod_two_eq_zero_or_one m with hpar | hpar
      · exact .inl ⟨by simp [heq, hpar], .inr ⟨heq, hpar⟩⟩
      · exact .inr ⟨by simp [heq, hpar], .inr ⟨heq, hpar⟩⟩
    · exact .inr ⟨by simp [hgt], .inl hgt⟩

/-! ### Rounding with a sign -/

/-- The magnitude `x` with a sign. -/
def withSign (neg : Bool) (x : ℝ) : ℝ := if neg then -x else x

theorem withSign_false (x : ℝ) : withSign false x = x := rfl

theorem scaled_eq_withSign (a : F) : (a.scaled : ℝ) = withSign a.neg a.units := by
  unfold F.scaled withSign
  split <;> push_cast <;> rfl

theorem withSign_mul (s t : Bool) (x y : ℝ) : withSign s x * withSign t y = withSign (s ^^ t) (x * y) := by
  cases s <;> cases t <;> simp [withSign]

theorem withSign_div (s t : Bool) (x y : ℝ) : withSign s x / withSign t y = withSign (s ^^ t) (x / y) := by
  cases s <;> cases t <;> simp [withSign, neg_div, div_neg]

/-- Numbers of one sign are as far apart as their magnitudes. -/
theorem abs_withSign_sub (s : Bool) (x y : ℝ) : |withSign s x - withSign s y| = |x - y| := by
  cases s
  · rfl
  · rw [withSign, withSign, if_pos rfl, if_pos rfl, neg_sub_neg, abs_sub_comm]

/-- Numbers of opposite signs are as far apart as their magnitudes together. -/
theorem abs_withSign_sub_opposite {s t : Bool} (hst : s ≠ t) {x y : ℝ} (hx : 0 ≤ x) (hy : 0 ≤ y) :
    |withSign s x - withSign t y| = x + y := by
  obtain rfl : s = !t := by simpa [Bool.eq_not] using hst
  cases t
  · simp only [withSign, Bool.not_false, if_true, Bool.false_eq_true, if_false]
    rw [abs_of_nonpos (by linarith)]
    ring
  · simp only [withSign, Bool.not_true, if_true, Bool.false_eq_true, if_false]
    rw [abs_of_nonneg (by linarith)]
    ring

/-- No finite number is nearer to `y` units than `r`, and where another is as near the pattern of `r` is even (R10). -/
def NearestEven (y : ℝ) (r : F) : Prop :=
  ∀ c : F, |(r.scaled : ℝ) - y| ≤ |(c.scaled : ℝ) - y|
    ∧ (|(r.scaled : ℝ) - y| = |(c.scaled : ℝ) - y| → c.scaled ≠ r.scaled → r.mag.val % 2 = 0)

/-- A number whose pattern is the rounded magnitude is nearest to the signed exact value: a number of the other sign is
no nearer than zero is. -/
theorem RoundsEven.nearestEven {x : ℝ} {r : F} (h : RoundsEven x r.mag.val) (hx : 0 ≤ x) :
    NearestEven (withSign r.neg x) r := by
  intro c
  rw [scaled_eq_withSign r, scaled_eq_withSign c, abs_withSign_sub]
  by_cases hs : c.neg = r.neg
  · obtain ⟨hle, htie⟩ := h c.mag.val
    rw [hs, abs_withSign_sub]
    refine ⟨hle, fun heq hne => htie heq fun hmag => hne ?_⟩
    rw [F.scaled, F.scaled, hs, units_eq_patternUnits, units_eq_patternUnits, hmag]
  · obtain ⟨hle, htie⟩ := h 0
    have hc : (0 : ℝ) ≤ c.units := Nat.cast_nonneg _
    have hzero : |(patternUnits 0 : ℝ) - x| = x := by simp [patternUnits, abs_of_nonneg hx]
    rw [abs_withSign_sub_opposite hs hc hx, units_eq_patternUnits r]
    rw [hzero] at hle htie
    refine ⟨by linarith, fun heq _ => ?_⟩
    by_cases hp : 0 = r.mag.val
    · rw [← hp]
    · exact htie (by linarith) hp

/-- Nearness to a quotient of integers, with the distances multiplied by the divisor. -/
theorem NearestEven.natAbs_sub {x d : Int} {r : F} (h : NearestEven ((x : ℝ) / d) r) (hd : d ≠ 0) (c : F) :
    (r.scaled * d - x).natAbs ≤ (c.scaled * d - x).natAbs
      ∧ ((r.scaled * d - x).natAbs = (c.scaled * d - x).natAbs → c.scaled ≠ r.scaled → r.mag.val % 2 = 0) := by
  have hd' : (d : ℝ) ≠ 0 := Int.cast_ne_zero.mpr hd
  have dist (z : Int) : ((z * d - x).natAbs : ℝ) = |(d : ℝ)| * |(z : ℝ) - x / d| := by
    rw [← abs_mul, mul_sub, mul_div_cancel₀ _ hd', Nat.cast_natAbs, Int.cast_abs]
    push_cast
    rw [mul_comm]
  obtain ⟨hle, htie⟩ := h c
  refine ⟨?_, fun heq => htie ?_⟩
  · rw [← Nat.cast_le (α := ℝ), dist, dist]
    exact mul_le_mul_of_nonneg_left hle (abs_nonneg _)
  · rw [← Nat.cast_inj (R := ℝ), dist, dist] at heq
    exact mul_left_cancel₀ (abs_ne_zero.mpr hd') heq

/-! ### The operations of R10 -/

/-- The greatest finite number, as R10's binary32 has it. -/
theorem maxUnits_eq : maxUnits = (2 ^ 24 - 1) * 2 ^ 253 := by
  have h : (2139095039 : Nat) = patternOf 253 (2 ^ 24 - 1) := by unfold patternOf; omega
  rw [maxUnits, h, patternUnits_patternOf (by omega) (.inr (by omega))]

/-- A rounded quotient within the finite numbers, packed with a sign, is nearest to the signed exact quotient. -/
theorem packMag_nearestEven {n d : Nat} (hd : 0 < d) (h : n ≤ d * maxUnits) (neg : Bool) (other : F) :
    NearestEven (withSign neg ((n : ℝ) / d)) (packMag neg (roundRatio n d) other) := by
  obtain ⟨hlt, hpack⟩ := packMag_finite hd h neg other
  rw [hpack]
  exact RoundsEven.nearestEven (r := ⟨neg, ⟨roundRatio n d, hlt⟩⟩) (roundsEven_roundRatio n hd) (by positivity)

/-- An integer by its size and a sign that is its own, whichever sign a zero is given. -/
theorem withSign_natAbs (x : Int) (zeroNeg : Bool) :
    withSign (if x = 0 then zeroNeg else decide (x < 0)) (x.natAbs : ℝ) = x := by
  rw [Nat.cast_natAbs, Int.cast_abs]
  rcases lt_trichotomy x 0 with hx | rfl | hx
  · rw [if_neg hx.ne, decide_eq_true hx, withSign, if_pos rfl, abs_of_neg (Int.cast_lt_zero.mpr hx), neg_neg]
  · cases zeroNeg <;> simp [withSign]
  · rw [if_neg hx.ne', decide_eq_false hx.not_gt, abs_of_pos (Int.cast_pos.mpr hx)]
    rfl

/-- `fadd` rounds the exact sum. -/
theorem fadd_nearestEven {a b : F} (h : (a.scaled + b.scaled).natAbs ≤ maxUnits) :
    NearestEven ((a.scaled + b.scaled : Int) : ℝ) (fadd a b) := by
  have hround := packMag_nearestEven Nat.one_pos (h.trans_eq (Nat.one_mul _).symm)
    (if a.scaled + b.scaled = 0 then a.neg && b.neg else decide (a.scaled + b.scaled < 0)) (Config.unstated .add a b)
  rwa [Nat.cast_one, div_one, withSign_natAbs] at hround

/-- `fmul` rounds the exact product, a multiple of 2^-298. -/
theorem fmul_nearestEven {a b : F} (h : a.units * b.units ≤ 2 ^ 149 * maxUnits) :
    NearestEven ((a.scaled * b.scaled : Int) / (2 ^ 149 : Int)) (fmul a b) := by
  have hround := packMag_nearestEven (Nat.two_pow_pos 149) h (a.neg ^^ b.neg) (Config.unstated .mul a b)
  push_cast at hround ⊢
  rwa [← Bool.xor_false (a.neg ^^ b.neg), ← withSign_div, ← withSign_mul, ← scaled_eq_withSign, ← scaled_eq_withSign,
    Bool.xor_false, withSign_false] at hround

/-- `fdiv` rounds the exact quotient, ties to even too. -/
theorem fdiv_nearestEven {a b : F} (hb : b.units ≠ 0) (h : a.units * 2 ^ 149 ≤ b.units * maxUnits) :
    NearestEven ((a.scaled * 2 ^ 149 : Int) / (b.scaled : Int)) (fdiv a b) := by
  have hround := packMag_nearestEven (Nat.pos_of_ne_zero hb) h (a.neg ^^ b.neg) (Config.unstated .div a b)
  push_cast at hround ⊢
  rw [← withSign_div, ← Bool.xor_false a.neg, ← withSign_mul, ← scaled_eq_withSign, ← scaled_eq_withSign,
    Bool.xor_false, withSign_false] at hround
  rwa [fdiv, if_neg hb]

/-- `fsqrt` rounds the real root, which never passes the greatest finite number. -/
theorem fsqrt_nearestEven {a : F} (ha : a.neg = false) : NearestEven (√((a.units : ℝ) * 2 ^ 149)) (fsqrt a) := by
  by_cases h0 : a.units = 0
  · have hscaled : a.scaled = 0 := by rwa [← Int.natAbs_eq_zero, natAbs_scaled]
    rw [fsqrt, if_pos h0, h0, Nat.cast_zero, zero_mul, Real.sqrt_zero]
    intro c
    rw [hscaled, Int.cast_zero, sub_zero, abs_zero, sub_zero]
    exact ⟨abs_nonneg _, fun heq hne => absurd (Int.cast_eq_zero.mp (abs_eq_zero.mp heq.symm)) hne⟩
  · have hround := roundsEven_roundRoot (a.units * 2 ^ 149)
    have hmax : √((a.units * 2 ^ 149 : Nat) : ℝ) ≤ maxUnits := by
      rw [Real.sqrt_le_left (Nat.cast_nonneg _)]
      have hle : a.units * 2 ^ 149 ≤ maxUnits ^ 2 := by
        rw [sq]
        exact Nat.mul_le_mul (units_le_maxUnits a) (by rw [maxUnits_eq]; norm_num)
      exact_mod_cast hle
    have hlt : roundRoot (a.units * 2 ^ 149) < 2139095040 := Nat.lt_succ_of_le (hround.le_of_le hmax)
    rw [fsqrt, if_neg h0, ha, if_neg Bool.false_ne_true, packMag, dif_pos hlt]
    rw [Nat.cast_mul, Nat.cast_pow, Nat.cast_ofNat] at hround
    exact RoundsEven.nearestEven (r := ⟨false, ⟨_, hlt⟩⟩) hround (Real.sqrt_nonneg _)

/-- Settles O45: the sum is its own quotient by one. -/
theorem faddRoundsToNearestEven : Obligations.FaddRoundsToNearestEven := by
  intro a b c h
  have hnear := fadd_nearestEven (h.trans_eq maxUnits_eq.symm)
  rw [← div_one ((a.scaled + b.scaled : Int) : ℝ), ← Int.cast_one] at hnear
  have hc := hnear.natAbs_sub one_ne_zero c
  rwa [mul_one, mul_one] at hc

/-- Settles O46: the distances are multiplied by 2^149. -/
theorem fmulRoundsToNearestEven : Obligations.FmulRoundsToNearestEven := by
  intro a b c h
  rw [Int.natAbs_mul, natAbs_scaled, natAbs_scaled, ← maxUnits_eq, Nat.mul_comm maxUnits] at h
  exact (fmul_nearestEven h).natAbs_sub (by norm_num) c

/-- Settles O47: the distances are multiplied by the divisor, whose sign does not matter. -/
theorem fdivRoundsToNearest : Obligations.FdivRoundsToNearest := by
  intro a b c hb h
  rw [← maxUnits_eq] at h
  have hb0 : b.scaled ≠ 0 := by rwa [← Int.natAbs_ne_zero, natAbs_scaled]
  exact ((fdiv_nearestEven hb h).natAbs_sub hb0 c).1

/-- Settles O48: nearness to the real root is the first half of `fsqrt_nearestEven`. -/
theorem fsqrtRoundsToNearest : Obligations.FsqrtRoundsToNearest :=
  fun _ c ha => (fsqrt_nearestEven ha c).1

/-! ### Truncation and saturation (R11) -/

/-- `ftrunc` is the exact number divided by one, rounding toward zero (R10). -/
theorem ftrunc_eq_tdiv (a : F) : ftrunc a = a.scaled.tdiv (2 ^ 149) := by
  unfold ftrunc F.scaled
  split
  · rw [Int.neg_tdiv]; rfl
  · rfl

/-- Settles O49: past either end of the range the integer part is past it too, and between them it is kept. -/
theorem clip16SaturatesAndTruncates : Obligations.Clip16SaturatesAndTruncates := by
  intro v
  have hhi : flt (i2f 32767) v = true ↔ 32767 * 2 ^ 149 < v.scaled := by rw [flt_eq_true, scaled_i2f (by decide)]
  have hlo : flt v (i2f (-32768)) = true ↔ v.scaled < -32768 * 2 ^ 149 := by rw [flt_eq_true, scaled_i2f (by decide)]
  have hpos : (0 : Int) < 2 ^ 149 := by norm_num
  have atLeast {k : Int} (h : k * 2 ^ 149 ≤ v.scaled) : k ≤ v.scaled.tdiv (2 ^ 149) :=
    Int.le_tdiv_of_mul_le hpos h
  have atMost {k : Int} (h : v.scaled ≤ k * 2 ^ 149) : v.scaled.tdiv (2 ^ 149) ≤ k :=
    (Int.tdiv_le_tdiv hpos h).trans (Int.mul_tdiv_cancel k hpos.ne').le
  by_cases habove : 32767 * 2 ^ 149 < v.scaled
  · rw [clip16, if_pos (hhi.mpr habove), min_eq_left (atLeast habove.le)]
    rfl
  · by_cases hbelow : v.scaled < -32768 * 2 ^ 149
    · rw [clip16, if_neg (habove ∘ hhi.mp), if_pos (hlo.mpr hbelow),
        max_eq_left ((min_le_right _ _).trans (atMost hbelow.le))]
      rfl
    · have hle := atMost (not_lt.mp habove)
      have hge := atLeast (not_lt.mp hbelow)
      rw [clip16, if_neg (habove ∘ hhi.mp), if_neg (hbelow ∘ hlo.mp), ftrunc_eq_tdiv,
        BitVec.toInt_ofInt_eq_self (by decide) hge (Int.lt_add_one_of_le hle), min_eq_right hle, max_eq_right hge]

/-! ### The advance of MONO and the reset table -/

/-- Settles O12: the two clauses are the two branches of `advanceTime`. -/
theorem timeMovesOnlyMono : Obligations.TimeMovesOnlyMono := by
  intro s us rest hin
  have hstep : step s = advanceTime us { s with inputs := rest } := by rw [step, hin]
  rw [hstep, advanceTime]
  refine ⟨fun hlt => ⟨BitVec.ofNat 64 (s.clk.mono.toNat + us), ?_, if_pos hlt⟩, fun hge => if_neg hge.not_gt⟩
  rw [BitVec.toNat_ofNat, Nat.mod_eq_of_lt hlt]

/-- The block as built has R7's constants and `DE_ALPHA`, whatever its OPEN parameters are. -/
theorem reset_cfg_r7 : State.reset.AtR7 ∧ State.reset.cfg.deAlpha = deAlphaR7 := ⟨rfl, rfl⟩

/-- Settles O14: the table's values are those of `State.atReset` at R7's constants. -/
theorem resetStateHasTableValues : Obligations.ResetStateHasTableValues := by
  obtain ⟨hconsts, halpha⟩ := reset_cfg_r7
  refine ⟨hconsts, by rw [halpha]; decide, rfl, rfl, ?_, ?_, ?_, ?_, rfl, rfl, rfl, rfl, fun _ => rfl, rfl, rfl⟩
  · exact fun z hz => List.eq_of_mem_replicate hz
  · exact List.length_replicate
  · exact fun z hz => List.eq_of_mem_replicate hz
  · exact List.length_replicate

end Sys2Proof.Machine
end

section
/-!
The operations that the statements about the state rest on: the answer's status word, the decoder on a growing list of
words, the ranges of the configuration, CAL, the filter chain, and the parts of RS.PUSH, each said once.
-/

namespace Sys2Proof.Machine

/-! ### Status words and the port -/

theorem statusWord_eq_mkWord (op code : BitVec 8) (val : BitVec 16) : statusWord op code val = mkWord op code val := rfl

@[simp] theorem fieldA_statusWord (op code : BitVec 8) (val : BitVec 16) : fieldA (statusWord op code val) = code := by
  rw [statusWord_eq_mkWord, fieldA_mkWord]

/-- A status word of code 0, by its number (R91). -/
theorem statusWord_codeOk (op : BitVec 8) (val : BitVec 16) :
    statusWord op codeOk val = BitVec.ofNat 32 (op.toNat * 2 ^ 24 + val.toNat) := by
  have hop := op.isLt
  have hval := val.isLt
  apply BitVec.eq_of_toNat_eq
  rw [statusWord_eq_mkWord, mkWord_toNat, codeOk, BitVec.toNat_ofNat, BitVec.toNat_ofNat]
  omega

theorem errorCode_ne_zero (e : CmdError) : errorCode e ≠ 0#8 := by cases e <;> decide

theorem hasAtLeast_iff : ∀ (n : Nat) (ws : List Word), hasAtLeast n ws = true ↔ n ≤ ws.length
  | 0, _ => by simp [hasAtLeast]
  | _ + 1, [] => by simp [hasAtLeast]
  | n + 1, _ :: ws => by simp [hasAtLeast, hasAtLeast_iff n ws]

/-- The payload of a command is at most 65535 words long (R89). -/
theorem payloadWords_le (o : Op) (w : Word) : o.payloadWords w ≤ 65535 := by
  cases o with
  | rsPush => exact Nat.le_of_lt_succ (fieldD w).isLt
  | _ => simp [Op.payloadWords]

/-- Everything the decoder can say of a list of words, by its command word (R89, R90, R95). -/
theorem decode_cons_cases (w : Word) (ws : List Word) :
    (decodeOp w = none ∧ decode (w :: ws) = .error (.illegal w))
      ∨ ∃ o, decodeOp w = some o
        ∧ ((o.payloadWords w ≤ ws.length
              ∧ decode (w :: ws) = .ok (o.assemble w (ws.take (o.payloadWords w)), ws.drop (o.payloadWords w)))
          ∨ (ws.length < o.payloadWords w ∧ decode (w :: ws) = .error .incomplete)) := by
  cases hop : decodeOp w with
  | none => exact .inl ⟨rfl, by simp only [decode, hop]⟩
  | some o =>
    refine .inr ⟨o, rfl, ?_⟩
    by_cases hlen : o.payloadWords w ≤ ws.length
    · exact .inl ⟨hlen, by simp only [decode, hop, (hasAtLeast_iff _ _).mpr hlen, if_true]⟩
    · refine .inr ⟨not_le.mp hlen, ?_⟩
      simp only [decode, hop, mt (hasAtLeast_iff _ _).mp hlen, Bool.false_eq_true, if_false]

/-- A push that the decoder reads has no more samples than its length field says (R83). -/
theorem decode_push_length {ws rest : List Word} {samples : List Sample}
    (h : decode ws = .ok (.rsPush samples, rest)) : samples.length ≤ 65535 := by
  cases ws with
  | nil => cases h
  | cons w ws =>
    obtain ⟨-, hd⟩ | ⟨o, -, ⟨-, hd⟩ | ⟨-, hd⟩⟩ := decode_cons_cases w ws <;> rw [hd] at h
    · cases h
    · obtain ⟨hpush, -⟩ := Prod.mk.inj (Except.ok.inj h)
      cases o with
      | rsPush =>
        rw [← Instr.rsPush.inj hpush, List.length_map]
        exact (List.length_take_le _ _).trans (payloadWords_le .rsPush w)
      | _ => cases hpush
    · cases h

/-- The words of an incomplete command are a command word and too short a payload (R90). -/
theorem short_of_decode_incomplete {w : Word} {ws : List Word} (h : decode (w :: ws) = .error .incomplete) :
    ∃ o, decodeOp w = some o ∧ ws.length < o.payloadWords w := by
  obtain ⟨-, hd⟩ | ⟨o, hop, ⟨-, hd⟩ | ⟨hlen, -⟩⟩ := decode_cons_cases w ws
  · cases hd.symm.trans h
  · cases hd.symm.trans h
  · exact ⟨o, hop, hlen⟩

/-- One word after an incomplete command, or after none, completes it with no word left over, or is an illegal word
with none before it (R89, R95). -/
theorem decode_concat {ws : List Word} (hport : decode ws = .error .incomplete) (w : Word) :
    (∀ i rest, decode (ws ++ [w]) = .ok (i, rest) → rest = [])
      ∧ (∀ c, decode (ws ++ [w]) = .error (.illegal c) → ws = []) := by
  cases ws with
  | nil =>
    refine ⟨fun i rest h => ?_, fun _ _ => rfl⟩
    obtain ⟨-, hd⟩ | ⟨o, -, ⟨-, hd⟩ | ⟨-, hd⟩⟩ := decode_cons_cases w [] <;> rw [List.nil_append, hd] at h
    · cases h
    · rw [← (Prod.mk.inj (Except.ok.inj h)).2, List.drop_nil]
    · cases h
  | cons v vs =>
    obtain ⟨o, hop, hshort⟩ := short_of_decode_incomplete hport
    rw [List.cons_append]
    obtain ⟨hnone, -⟩ | ⟨o', hop', ⟨-, hd⟩ | ⟨-, hd⟩⟩ := decode_cons_cases v (vs ++ [w])
    · rw [hop] at hnone; cases hnone
    · obtain rfl : o = o' := Option.some.inj (hop.symm.trans hop')
      rw [hd]
      refine ⟨fun i rest h => ?_, nofun⟩
      rw [← (Prod.mk.inj (Except.ok.inj h)).2, List.drop_eq_nil_iff, List.length_append, List.length_singleton]
      exact hshort
    · rw [hd]
      exact ⟨nofun, nofun⟩

/-! ### The configuration -/

/-- The ranges of the constants (log 11). -/
theorem consts_range (c : Config) : 1 ≤ c.consts.frameLen ∧ c.consts.rssiMin ≤ c.consts.rssiMax
    ∧ c.consts.rssiMax ≤ 255 := by
  have hfit := c.constsFit
  simp only [Consts.fits, Bool.and_eq_true, decide_eq_true_eq] at hfit
  obtain ⟨⟨⟨⟨hlen, -⟩, -⟩, hclamps⟩, hmax⟩ := hfit
  exact ⟨hlen, hclamps, hmax⟩

/-- STEP lies between 2^-6 and 2^16 (R7). -/
theorem step_scaled_range (c : Config) : 2 ^ 143 ≤ c.par.step.scaled ∧ c.par.step.scaled ≤ 2 ^ 165 := by
  have hfit := c.parFit
  simp only [OpenParams.fits, Bool.and_eq_true, decide_eq_true_eq, Bool.not_eq_true'] at hfit
  obtain ⟨⟨⟨⟨⟨⟨⟨hneg, hlo⟩, hhi⟩, -⟩, -⟩, -⟩, -⟩, -⟩ := hfit
  rw [F.scaled, hneg, if_neg Bool.false_ne_true]
  exact ⟨by exact_mod_cast hlo, by exact_mod_cast hhi⟩

/-- ACC has room for a sample (R7: ACC_CAP is at least FRAME_LEN). -/
theorem one_le_accCap (c : Config) : 1 ≤ c.par.accCap := by
  have hfit := c.parFit
  simp only [OpenParams.fits, Bool.and_eq_true, decide_eq_true_eq] at hfit
  obtain ⟨-, ⟨-, hcap⟩, -⟩ := hfit
  exact (consts_range c).1.trans hcap

/-! ### CAL -/

theorem writeCal_of_lt {d : BitVec 16} {s : State} (h : d.toNat < s.cfg.consts.calMin.toNat) :
    writeCal d s = raiseFlag .cfg { s with filt := { s.filt with cal := s.cfg.consts.calMin } } := if_pos h

theorem writeCal_of_le {d : BitVec 16} {s : State} (h : s.cfg.consts.calMin.toNat ≤ d.toNat) :
    writeCal d s = { s with filt := { s.filt with cal := d } } := if_neg h.not_gt

/-- WRCSR CAL stores a factor that is not below the least one (R45). -/
theorem writeCal_cases (d : BitVec 16) (s : State) : ∃ cal err, s.cfg.consts.calMin.toNat ≤ cal.toNat
    ∧ writeCal d s = { s with filt := { s.filt with cal := cal }, err := err } := by
  rcases lt_or_ge d.toNat s.cfg.consts.calMin.toNat with h | h
  · exact ⟨_, _, le_refl _, writeCal_of_lt h⟩
  · exact ⟨d, _, h, writeCal_of_le h⟩

/-! ### The filter chain -/

theorem length_firRun_out (taps : List F) : ∀ (xs z : List F), (firRun taps z xs).1.length = xs.length
  | [], _ => rfl
  | _ :: xs, _ => congrArg Nat.succ (length_firRun_out taps xs _)

/-- A delay line keeps the length of its tap table (R32). -/
theorem length_firRun_line {taps : List F} : ∀ (xs : List F) {z : List F}, z.length = taps.length →
    (firRun taps z xs).2.length = taps.length
  | [], _, h => h
  | x :: xs, z, h => length_firRun_line xs (z := firShift taps z x) (by simp [firShift, h])

theorem length_deEmphRun (c : Config) : ∀ (ys : List F) (dey : F), (deEmphRun c dey ys).1.length = ys.length
  | [], _ => rfl
  | _ :: ys, _ => congrArg Nat.succ (length_deEmphRun c ys _)

/-- The clamps of R152 keep a number between RSSI_MIN and RSSI_MAX. -/
theorem rssiClamp_scaled (c : Config) (v : F) :
    (c.consts.rssiMin : Int) * 2 ^ 149 ≤ (rssiClamp c v).scaled
      ∧ (rssiClamp c v).scaled ≤ (c.consts.rssiMax : Int) * 2 ^ 149 := by
  obtain ⟨-, hle, hmax⟩ := consts_range c
  have hlo : (i2f c.consts.rssiMin).scaled = (c.consts.rssiMin : Int) * 2 ^ 149 := scaled_i2f (by omega)
  have hhi : (i2f c.consts.rssiMax).scaled = (c.consts.rssiMax : Int) * 2 ^ 149 := scaled_i2f (by omega)
  simp only [rssiClamp, flt, decide_eq_true_eq]
  generalize i2f c.consts.rssiMin = lo, i2f c.consts.rssiMax = hi at hlo hhi ⊢
  split <;> split <;> omega

/-- The RSSI byte lies between the clamps (R51 part (c), R152). -/
theorem rssiByte_range (c : Config) (cal : BitVec 16) (hs : List F) :
    c.consts.rssiMin ≤ (rssiByte c cal hs).toNat ∧ (rssiByte c cal hs).toNat ≤ c.consts.rssiMax := by
  obtain ⟨hlo, hhi⟩ := rssiClamp_scaled c (rssiRaw c cal hs)
  obtain ⟨-, -, hmax⟩ := consts_range c
  have hpos : (0 : Int) < 2 ^ 149 := by norm_num
  have hge := Int.le_tdiv_of_mul_le hpos hlo
  have hle := (Int.tdiv_le_tdiv hpos hhi).trans (Int.mul_tdiv_cancel _ hpos.ne').le
  rw [← ftrunc_eq_tdiv] at hge hle
  rw [rssiByte, BitVec.toNat_ofInt]
  generalize ftrunc (rssiClamp c (rssiRaw c cal hs)) = b at *
  omega

/-- The RSSI path writes HPZ, RSSI and NOISE alone (R152). -/
theorem rssiPath_cases (c : Config) (xin : List F) (u : Filt) : ∃ hpz rssi,
    rssiPath c xin u = { u with hpz := hpz, rssi := rssi, noise := 255#8 - rssi }
      ∧ (u.hpz.length = c.par.hpTaps.length → hpz.length = c.par.hpTaps.length)
      ∧ c.consts.rssiMin ≤ rssi.toNat ∧ rssi.toNat ≤ c.consts.rssiMax :=
  ⟨_, _, rfl, length_firRun_line xin, rssiByte_range c u.cal _⟩

/-- The band-pass stage keeps the number of samples and writes BPZ alone (R153, R156). -/
theorem bandPass_cases (c : Config) (on : Bool) (ys : List F) (u : Filt) : ∃ out bpz,
    bandPass c on ys u = (out, { u with bpz := bpz }) ∧ out.length = ys.length
      ∧ (u.bpz.length = c.par.bpTaps.length → bpz.length = c.par.bpTaps.length) := by
  cases on with
  | false => exact ⟨ys, u.bpz, rfl, rfl, id⟩
  | true => exact ⟨_, _, rfl, length_firRun_out _ ys _, length_firRun_line ys⟩

/-- The de-emphasis stage keeps the number of samples and writes DEY alone (R154, R156). -/
theorem deEmphasis_cases (c : Config) (on : Bool) (ys : List F) (u : Filt) : ∃ out dey,
    deEmphasis c on ys u = (out, { u with dey := dey }) ∧ out.length = ys.length := by
  cases on with
  | false => exact ⟨ys, u.dey, rfl, rfl⟩
  | true => exact ⟨_, _, rfl, length_deEmphRun c ys _⟩

/-- The samples that FP.PROC leaves, before they are clipped, and FILT after its three paths (R150). -/
def procResult (bp de : Bool) (s : State) : List F × Filt :=
  match bandPass s.cfg bp (entryFrame s) (rssiPath s.cfg (entryFrame s) s.filt) with
  | (ys, u) => deEmphasis s.cfg de ys u

theorem fpProcStep_eq (bp de : Bool) (s : State) :
    fpProcStep bp de s = respond 0x30#8 codeOk ((procResult bp de s).2.rssi.setWidth 16) []
      { s with fb := fbFrom 0 ((procResult bp de s).1.map clip16), filt := (procResult bp de s).2 } := rfl

/-- FP.PROC leaves a frame of the same length and writes every field of FILT but CAL, each as its path does. -/
theorem procResult_cases (bp de : Bool) (s : State) : ∃ ys hpz bpz dey rssi,
    procResult bp de s
        = (ys, { s.filt with hpz := hpz, bpz := bpz, dey := dey, rssi := rssi, noise := 255#8 - rssi })
      ∧ ys.length = s.cfg.consts.frameLen
      ∧ (s.filt.hpz.length = s.cfg.par.hpTaps.length → hpz.length = s.cfg.par.hpTaps.length)
      ∧ (s.filt.bpz.length = s.cfg.par.bpTaps.length → bpz.length = s.cfg.par.bpTaps.length)
      ∧ s.cfg.consts.rssiMin ≤ rssi.toNat ∧ rssi.toNat ≤ s.cfg.consts.rssiMax := by
  obtain ⟨hpz, rssi, hrssi, hhpz, hmin, hmax⟩ := rssiPath_cases s.cfg (entryFrame s) s.filt
  obtain ⟨y1, bpz, hband, hy1, hbpz⟩ := bandPass_cases s.cfg bp (entryFrame s)
    { s.filt with hpz := hpz, rssi := rssi, noise := 255#8 - rssi }
  obtain ⟨y2, dey, hde, hy2⟩ := deEmphasis_cases s.cfg de y1
    { s.filt with hpz := hpz, bpz := bpz, rssi := rssi, noise := 255#8 - rssi }
  refine ⟨y2, hpz, bpz, dey, rssi, by simp only [procResult, hrssi, hband, hde], ?_, hhpz, hbpz, hmin, hmax⟩
  rw [hy2, hy1, entryFrame, fbFrame, List.length_map, List.length_map, List.length_range]

/-! ### The parts of RS.PUSH -/

/-- The state with another LP. -/
def State.withLp (s : State) (lp : F) : State := { s with rsmp := { s.rsmp with lp := lp } }

/-- The state with another PREV. -/
def State.withPrev (s : State) (prev : F) : State := { s with rsmp := { s.rsmp with prev := prev } }

/-- The state with another POS. -/
def State.withPos (s : State) (pos : F) : State := { s with rsmp := { s.rsmp with pos := pos } }

/-- A pass of the inner loop: an append to ACC, then POS (R131). -/
theorem interpolateOnce_eq (i : Nat) (cur : F) (s : State) : ∃ v pos,
    v = clip16 (interpolated s.rsmp.prev cur s.rsmp.pos i)
      ∧ pos = fadd (accStore v s).rsmp.pos (accStore v s).cfg.par.step
      ∧ interpolateOnce i cur s = (accStore v s).withPos pos := ⟨_, _, rfl, rfl, rfl⟩

/-- The work for one input sample: LP, the inner loop, PREV (R131). -/
theorem pushSample_eq (i : Nat) (x : Sample) (s : State) : ∃ cur, cur = antiAlias s.cfg s.rsmp.lp (sampleToF x)
    ∧ pushSample i x s = (interpolate (passBound i s.rsmp.pos) i cur (s.withLp cur)).withPrev cur := ⟨_, rfl, rfl⟩

theorem framesReady_withPos (s : State) (pos : F) : framesReady (s.withPos pos) = framesReady s := rfl

/-- The end of a push: POS, then the answer, which POS does not enter (R131, R134). -/
theorem finishPush_eq (len : Nat) (s : State) : finishPush len s
    = respond 0x10#8 codeOk (framesReady s) [] (s.withPos (fsub s.rsmp.pos (i2f len))) := by
  rw [← framesReady_withPos s (fsub s.rsmp.pos (i2f len))]
  rfl

/-- RS.PUSH answers the end of a push, or has no end (R131). -/
theorem execRsPush_cases (xs : List Sample) (s : State) :
    (neverEnds xs s (pushFrom 0 xs s) = true ∧ execRsPush xs s = .fault .interpolationNeverEnds)
      ∨ (neverEnds xs s (pushFrom 0 xs s) = false
          ∧ execRsPush xs s = .next (finishPush xs.length (pushFrom 0 xs s))) := by
  rw [execRsPush]
  cases neverEnds xs s (pushFrom 0 xs s)
  · exact .inr ⟨rfl, if_neg Bool.false_ne_true⟩
  · exact .inl ⟨rfl, if_pos rfl⟩

end Sys2Proof.Machine
end

section
/-!
What a command and a step change and what they leave (spec/10_state.md R20, R21, R39): `Performed` says once what a
command that answers a next state has done, `Stepped` what a step has done, and each claim is a case analysis of the two.
-/

namespace Sys2Proof.Machine

/-! ### What a command has done -/

/-- What a command that answers a next state has done: it failed, or it answered and changed nothing, or it changed what
its constructor writes out (R20). -/
inductive Performed (s : State) : Instr → State → Prop where
  | failed (i : Instr) (op : BitVec 8) (e : CmdError) : Performed s i (reportError op e s)
  | answered (i : Instr) (op : BitVec 8) (val : BitVec 16) (data : List Word) :
      Performed s i (respond op codeOk val data s)
  | wroteCal (d val cal : BitVec 16) (err : Err) : s.cfg.consts.calMin.toNat ≤ cal.toNat →
      Performed s (.wrcsr 0x04#8 d)
        (respond 0x02#8 codeOk val [] { s with filt := { s.filt with cal := cal }, err := err })
  | wroteErr (d val : BitVec 16) (err : Err) :
      Performed s (.wrcsr 0x01#8 d) (respond 0x02#8 codeOk val [] { s with err := err })
  | pushed (xs : List Sample) (val : BitVec 16) (u : State) (pos : F) : u = pushFrom 0 xs s →
      pos = fsub u.rsmp.pos (i2f xs.length) → Performed s (.rsPush xs) (respond 0x10#8 codeOk val [] (u.withPos pos))
  | popped (val : BitVec 16) : Performed s .rsPop (respond 0x11#8 codeOk val []
      { s with
        fb := fbFrom 0 (s.rsmp.acc.take s.cfg.consts.frameLen)
        rsmp := { s.rsmp with acc := s.rsmp.acc.drop s.cfg.consts.frameLen } })
  | resetRsmp : Performed s .rsReset (respond 0x12#8 codeOk 0#16 []
      { s with rsmp := { s.rsmp with lp := F.zero, prev := F.zero, pos := F.zero, acc := [] } })
  | wroteFb (idx : BitVec 8) (d : Sample) : idx.toNat < s.cfg.consts.frameLen →
      Performed s (.fbWr idx d) (respond 0x21#8 codeOk 0#16 [] { s with fb := fbWrite s.fb idx.toNat d })
  | processed (bp de : Bool) (val : BitVec 16) (ys : List F) (u : Filt) : procResult bp de s = (ys, u) →
      Performed s (.fpProc bp de)
        (respond 0x30#8 codeOk val [] { s with fb := fbFrom 0 (ys.map clip16), filt := u })
  | resetFilt : Performed s .fpReset (respond 0x31#8 codeOk 0#16 []
      { s with filt := { s.filt with
          hpz := List.replicate s.cfg.par.hpTaps.length F.zero
          bpz := List.replicate s.cfg.par.bpTaps.length F.zero
          dey := F.zero } })
  | fixed (epoch secs : BitVec 32) (val : BitVec 16) : Performed s (.ckFix epoch) (respond 0x43#8 codeOk val []
      { s with clk := { s.clk with secs := secs, haveFix := true } })

theorem performed_rdcsrStep (csr : BitVec 8) (s : State) : Performed s (.rdcsr csr) (rdcsrStep csr s) := by
  unfold rdcsrStep
  split
  · exact .answered ..
  · exact .failed ..

theorem performed_wrcsrStep (csr : BitVec 8) (d : BitVec 16) (s : State) :
    Performed s (.wrcsr csr d) (wrcsrStep csr d s) := by
  unfold wrcsrStep
  split
  · next h =>
    obtain rfl : csr = 0x04#8 := BitVec.eq_of_toNat_eq h
    obtain ⟨cal, err, hcal, hw⟩ := writeCal_cases d s
    rw [hw]
    exact .wroteCal d _ cal err hcal
  · next h =>
    obtain rfl : csr = 0x01#8 := BitVec.eq_of_toNat_eq h
    exact .wroteErr ..
  · exact .failed ..

theorem performed_rsPopStep (s : State) : Performed s .rsPop (rsPopStep s) := by
  simp only [rsPopStep]
  split
  · exact .failed ..
  · exact .popped _

theorem performed_fbRdStep (idx : BitVec 8) (s : State) : Performed s (.fbRd idx) (fbRdStep idx s) := by
  unfold fbRdStep
  split
  · exact .answered ..
  · exact .failed ..

theorem performed_fbWrStep (idx : BitVec 8) (d : Sample) (s : State) :
    Performed s (.fbWr idx d) (fbWrStep idx d s) := by
  unfold fbWrStep
  split
  · next h => exact .wroteFb idx d h
  · exact .failed ..

theorem performed_ckFixStep (epoch : BitVec 32) (s : State) : Performed s (.ckFix epoch) (ckFixStep epoch s) := by
  unfold ckFixStep
  split
  · exact .fixed epoch epoch 1#16
  · exact .fixed epoch s.clk.secs 0#16

theorem Performed.of_next {i : Instr} {s t u : State} (hu : Performed s i u)
    (h : (.next u : Host.Outcome State Fault Refusal) = .next t) : Performed s i t := Host.Outcome.next.inj h ▸ hu

theorem performed_execRsPush {xs : List Sample} {s t : State} (h : execRsPush xs s = .next t) :
    Performed s (.rsPush xs) t := by
  obtain ⟨-, hfault⟩ | ⟨-, hnext⟩ := execRsPush_cases xs s
  · rw [hfault] at h; cases h
  · rw [hnext, finishPush_eq] at h
    exact .of_next (.pushed xs _ _ _ rfl rfl) h

/-- Everything a command that answers a next state can have done. -/
theorem performed_of_exec {i : Instr} {s t : State} (h : exec i s = .next t) : Performed s i t := by
  cases i with
  | nop => exact .of_next (.answered ..) h
  | rdcsr csr => exact (performed_rdcsrStep csr s).of_next h
  | wrcsr csr d => exact (performed_wrcsrStep csr d s).of_next h
  | rsPush xs => exact performed_execRsPush h
  | rsPop => exact (performed_rsPopStep s).of_next h
  | rsReset => exact .of_next .resetRsmp h
  | fbRd idx => exact (performed_fbRdStep idx s).of_next h
  | fbWr idx d => exact (performed_fbWrStep idx d s).of_next h
  | fpProc bp de => exact .of_next (fpProcStep_eq bp de s ▸ .processed bp de _ _ _ rfl) h
  | fpReset => exact .of_next .resetFilt h
  | ckNow => exact .of_next (.answered ..) h
  | ckLocked => exact .of_next (.answered ..) h
  | ckJitter => exact .of_next (.answered ..) h
  | ckFix epoch => exact (performed_ckFixStep epoch s).of_next h

/-! ### What a command leaves unchanged -/

section Frame

variable {i : Instr} {s t : State}

/-- No command reaches the configuration, the port or the inputs (R39, R90). -/
theorem Performed.surroundings (h : Performed s i t) :
    t.cfg = s.cfg ∧ t.pending = s.pending ∧ t.inputs = s.inputs := by
  cases h with
  | pushed xs _ _ _ hu => subst hu; exact ⟨pushFrom_cfg xs 0 s, pushFrom_pending xs 0 s, pushFrom_inputs xs 0 s⟩
  | _ => exact ⟨rfl, rfl, rfl⟩

/-- CK.FIX alone reaches CLK, and there SECS and HAVEFIX alone (R115). -/
theorem Performed.clk_eq (h : Performed s i t) :
    ∃ secs haveFix, t.clk = { s.clk with secs := secs, haveFix := haveFix } := by
  cases h with
  | pushed xs _ _ _ hu => subst hu; exact ⟨_, _, pushFrom_clk xs 0 s⟩
  | _ => exact ⟨_, _, rfl⟩

theorem Performed.clk_of_ne_ckFix (h : Performed s i t) (hfix : ∀ epoch, i ≠ .ckFix epoch) : t.clk = s.clk := by
  cases h with
  | pushed xs _ _ _ hu => subst hu; exact pushFrom_clk xs 0 s
  | fixed epoch => exact absurd rfl (hfix epoch)
  | _ => rfl

theorem Performed.resampler_of_ne (h : Performed s i t) (hpush : ∀ xs, i ≠ .rsPush xs) (hreset : i ≠ .rsReset) :
    t.rsmp.lp = s.rsmp.lp ∧ t.rsmp.prev = s.rsmp.prev ∧ t.rsmp.pos = s.rsmp.pos := by
  cases h with
  | pushed xs => exact absurd rfl (hpush xs)
  | resetRsmp => exact absurd rfl hreset
  | _ => exact ⟨rfl, rfl, rfl⟩

theorem Performed.acc_of_ne (h : Performed s i t) (hpush : ∀ xs, i ≠ .rsPush xs) (hreset : i ≠ .rsReset)
    (hpop : i ≠ .rsPop) : t.rsmp.acc = s.rsmp.acc := by
  cases h with
  | pushed xs => exact absurd rfl (hpush xs)
  | resetRsmp => exact absurd rfl hreset
  | popped => exact absurd rfl hpop
  | _ => rfl

theorem Performed.ovfCnt_of_ne (h : Performed s i t) (hpush : ∀ xs, i ≠ .rsPush xs) :
    t.rsmp.ovfCnt = s.rsmp.ovfCnt := by
  cases h with
  | pushed xs => exact absurd rfl (hpush xs)
  | _ => rfl

theorem Performed.rssi_of_ne (h : Performed s i t) (hproc : ∀ bp de, i ≠ .fpProc bp de) :
    t.filt.rssi = s.filt.rssi ∧ t.filt.noise = s.filt.noise := by
  cases h with
  | processed bp de => exact absurd rfl (hproc bp de)
  | pushed xs _ _ _ hu => subst hu; exact pushFrom_filt xs 0 s ▸ ⟨rfl, rfl⟩
  | _ => exact ⟨rfl, rfl⟩

theorem Performed.delayLines_of_ne (h : Performed s i t) (hproc : ∀ bp de, i ≠ .fpProc bp de)
    (hreset : i ≠ .fpReset) : t.filt.hpz = s.filt.hpz ∧ t.filt.bpz = s.filt.bpz ∧ t.filt.dey = s.filt.dey := by
  cases h with
  | processed bp de => exact absurd rfl (hproc bp de)
  | resetFilt => exact absurd rfl hreset
  | pushed xs _ _ _ hu => subst hu; exact pushFrom_filt xs 0 s ▸ ⟨rfl, rfl, rfl⟩
  | _ => exact ⟨rfl, rfl, rfl⟩

theorem Performed.cal_of_ne (h : Performed s i t) (hcal : ∀ d, i ≠ .wrcsr 0x04#8 d) : t.filt.cal = s.filt.cal := by
  cases h with
  | wroteCal d => exact absurd rfl (hcal d)
  | processed bp de _ _ _ hres =>
    obtain ⟨_, _, _, _, _, hcases, -⟩ := procResult_cases bp de s
    obtain ⟨-, rfl⟩ := Prod.mk.inj (hres.symm.trans hcases)
    rfl
  | pushed xs _ _ _ hu => subst hu; exact congrArg Filt.cal (pushFrom_filt xs 0 s)
  | _ => rfl

theorem Performed.fb_of_ne (h : Performed s i t) (hproc : ∀ bp de, i ≠ .fpProc bp de) (hpop : i ≠ .rsPop)
    (hwr : ∀ idx d, i ≠ .fbWr idx d) : t.fb = s.fb := by
  cases h with
  | processed bp de => exact absurd rfl (hproc bp de)
  | popped => exact absurd rfl hpop
  | wroteFb idx d => exact absurd rfl (hwr idx d)
  | pushed xs _ _ _ hu => subst hu; exact pushFrom_fb xs 0 s
  | _ => rfl

/-- Of the commands other than RS.PUSH and WRCSR, one whose answer has code 0 leaves ERR alone. -/
theorem Performed.err_of_ne (h : Performed s i t) (hpush : ∀ xs, i ≠ .rsPush xs) (hwr : ∀ csr d, i ≠ .wrcsr csr d)
    (hok : ∀ status data, t.responses = s.responses ++ status :: data → fieldA status = 0#8) : t.err = s.err := by
  cases h with
  | failed _ op e => exact absurd ((fieldA_statusWord _ _ _).symm.trans (hok _ _ rfl)) (errorCode_ne_zero e)
  | pushed xs => exact absurd rfl (hpush xs)
  | wroteCal d => exact absurd rfl (hwr _ d)
  | wroteErr d => exact absurd rfl (hwr _ d)
  | _ => rfl

end Frame

/-- Settles O54: one frame lemma for each row of R20's table. -/
theorem onlyNamedCommandsWrite : Obligations.OnlyNamedCommandsWrite := by
  intro i s t h
  have hp := performed_of_exec h
  obtain ⟨hcfg, hpending, hinputs⟩ := hp.surroundings
  obtain ⟨secs, haveFix, hclk⟩ := hp.clk_eq
  refine ⟨hcfg, hpending, hinputs, ?_, ?_, ?_, ?_, ?_, hp.clk_of_ne_ckFix, hp.resampler_of_ne, hp.acc_of_ne,
    hp.ovfCnt_of_ne, hp.rssi_of_ne, hp.delayLines_of_ne, hp.cal_of_ne, hp.fb_of_ne, hp.err_of_ne⟩
  all_goals rw [hclk]

/-! ### What a step has done -/

/-- What a step that answers a next state has done, for each kind of input (R13). -/
inductive Stepped (s : State) : State → Prop where
  | idle : s.inputs = [] → Stepped s s
  | performed {w : Word} {rest : List Input} {i : Instr} {left : List Word} {t : State} :
      s.inputs = .word w :: rest → decode (s.pending ++ [w]) = .ok (i, left) →
      Performed { s with inputs := rest, pending := left } i t → Stepped s t
  | illegal {w : Word} {rest : List Input} {c : Word} :
      s.inputs = .word w :: rest → decode (s.pending ++ [w]) = .error (.illegal c) →
      Stepped s (illegalWord c { s with inputs := rest, pending := (s.pending ++ [w]).tail })
  | waiting {w : Word} {rest : List Input} :
      s.inputs = .word w :: rest → decode (s.pending ++ [w]) = .error .incomplete →
      Stepped s { s with inputs := rest, pending := s.pending ++ [w] }
  | pulsed {rest : List Input} : s.inputs = .pulse :: rest → Stepped s (pulseStep { s with inputs := rest })
  | ticked {us : Nat} {rest : List Input} : s.inputs = .tick us :: rest → s.clk.mono.toNat + us < 2 ^ 64 →
      Stepped s { s with
        inputs := rest, clk := { s.clk with mono := BitVec.ofNat 64 (s.clk.mono.toNat + us) } }
  | restarted {rest : List Input} : s.inputs = .hwReset :: rest →
      Stepped s (hardwareReset { s with inputs := rest })

/-- Everything a step that answers a next state can have done. -/
theorem stepped_of_step {s t : State} (h : step s = .next t) : Stepped s t := by
  obtain ⟨hin, rfl⟩ | ⟨w, rest, hin, htake⟩ | ⟨rest, hin, rfl⟩ | ⟨us, rest, hin, hlt, rfl⟩ | ⟨rest, hin, rfl⟩ :=
    step_cases h
  · exact .idle hin
  · obtain ⟨i, left, hdec, hexec⟩ | ⟨c, hdec, heq⟩ | ⟨hdec, heq⟩ := takeWord_cases w { s with inputs := rest }
    · exact .performed hin hdec (performed_of_exec (hexec.symm.trans htake))
    · exact Host.Outcome.next.inj (heq.symm.trans htake) ▸ .illegal hin hdec
    · exact Host.Outcome.next.inj (heq.symm.trans htake) ▸ .waiting hin hdec
  · exact .pulsed hin
  · exact .ticked hin hlt
  · exact .restarted hin

theorem Stepped.cfg_eq {s t : State} (h : Stepped s t) : t.cfg = s.cfg := by
  cases h with
  | performed _ _ hp => exact hp.surroundings.1
  | pulsed => exact pulseStep_cfg _
  | _ => rfl

/-- Settles O52: no case of a step writes the configuration. -/
theorem noStepChangesConfiguration : Obligations.NoStepChangesConfiguration :=
  fun _ _ h => (stepped_of_step h).cfg_eq

theorem pulseStep_mono (s : State) : (pulseStep s).clk.mono = s.clk.mono := by
  obtain ⟨-, h⟩ | ⟨-, e, -, h⟩ := pulseStep_cases s <;> rw [h]
  rfl

/-- A step is a hardware reset, or an advance that adds to MONO, or leaves MONO alone (R21). -/
theorem Stepped.mono_cases {s t : State} (h : Stepped s t) : s.inputs.head? = some .hwReset
    ∨ (∃ us, s.inputs.head? = some (.tick us) ∧ t.clk.mono.toNat = s.clk.mono.toNat + us)
    ∨ t.clk.mono = s.clk.mono := by
  cases h with
  | performed _ _ hp =>
    obtain ⟨secs, haveFix, hclk⟩ := hp.clk_eq
    exact .inr (.inr (by rw [hclk]))
  | pulsed => exact .inr (.inr (pulseStep_mono _))
  | ticked hin hlt =>
    exact .inr (.inl ⟨_, congrArg List.head? hin, (BitVec.toNat_ofNat _ _).trans (Nat.mod_eq_of_lt hlt)⟩)
  | restarted hin => exact .inl (congrArg List.head? hin)
  | _ => exact .inr (.inr rfl)

/-- Settles O53: by the three cases of `Stepped.mono_cases`. -/
theorem monoFallsOnlyAtHardwareReset : Obligations.MonoFallsOnlyAtHardwareReset := by
  intro s t h hreset
  obtain hin | ⟨us, hin, hadd⟩ | heq := (stepped_of_step h).mono_cases
  · exact absurd hin hreset
  · exact ⟨hadd ▸ Nat.le_add_right _ _, fun htick => absurd hin (htick us)⟩
  · exact ⟨heq ▸ le_refl _, fun _ => heq⟩

end Sys2Proof.Machine
end

section
/-!
POS is not negative (spec/10_state.md R51 part (i)): R131's inner loop, in the passes that the model gives it, reaches the
next input sample (`interpolate_reaches`), so that a push takes from POS no more than its loops have added.
-/

namespace Sys2Proof.Machine

/-- POS is not below zero, as a number. -/
theorem posOk_iff (u : Rsmp) : u.PosOk ↔ 0 ≤ u.pos.scaled := by rw [Rsmp.PosOk, flt_eq_false, scaled_zero]

/-- A natural number of at most 24 bits at an exponent that a finite number has, as an `F`. -/
theorem exists_scaled_eq {m e : Nat} (hm : m ≤ 2 ^ 24) (he : e ≤ 252) : ∃ c : F, c.scaled = (m * 2 ^ e : Nat) := by
  obtain ⟨k, hk, hbound⟩ := exists_pattern hm e
  have hlt : k < 2139095040 := by
    by_cases h0 : m = 0
    · subst h0
      have hzero : patternUnits 0 = 0 := by decide
      have := patternUnits_strictMono.injective ((hk.trans (Nat.zero_mul _)).trans hzero.symm)
      omega
    · have := hbound h0
      unfold patternOf at this
      omega
  exact ⟨⟨false, ⟨k, hlt⟩⟩, congrArg Int.ofNat hk⟩

/-- A pass of R131's inner loop below sample 65536 moves POS by at least 1/128 of a sample: STEP is twice that, and
rounding takes no more than the distance to the next multiple of 1/128. -/
theorem pos_advances {c : Config} {pos : F} (hlo : 0 ≤ pos.scaled) (hhi : pos.scaled ≤ 2 ^ 165) :
    pos.scaled + 2 ^ 142 ≤ (fadd pos c.par.step).scaled := by
  obtain ⟨hslo, hshi⟩ := step_scaled_range c
  have hfinite : (pos.scaled + c.par.step.scaled).natAbs ≤ maxUnits := by
    rw [maxUnits_eq]
    omega
  obtain ⟨m, hm⟩ : ∃ m : Nat, (m : Int) = (pos.scaled + 2 ^ 142 - 1) / 2 ^ 142 + 1 :=
    ⟨((pos.scaled + 2 ^ 142 - 1) / 2 ^ 142 + 1).toNat, by omega⟩
  obtain ⟨y, hy⟩ := exists_scaled_eq (m := m) (e := 142) (by omega) (by omega)
  have hle : y.scaled ≤ (fadd pos c.par.step).scaled := le_fadd hfinite (by omega)
  generalize fadd pos c.par.step = z at *
  omega

/-- R131's inner loop with enough passes reaches the next input sample, so that its condition is then false. -/
theorem interpolate_reaches {i : Nat} (cur : F) (hi : i < 65536) : ∀ (n : Nat) (s : State), 0 ≤ s.rsmp.pos.scaled →
    ((i + 1 : Nat) : Int) * 2 ^ 149 ≤ s.rsmp.pos.scaled + n * 2 ^ 142 →
      ((i + 1 : Nat) : Int) * 2 ^ 149 ≤ (interpolate n i cur s).rsmp.pos.scaled
  | 0, s, _, h => by simpa [interpolate] using h
  | n + 1, s, h0, h => by
    have hnext : (i2f ((i : Int) + 1)).scaled = ((i + 1 : Nat) : Int) * 2 ^ 149 := scaled_i2f (by omega)
    rw [interpolate]
    split
    · next hlt =>
      rw [flt_eq_true, hnext] at hlt
      have hadv := pos_advances (c := s.cfg) h0 (by omega)
      apply interpolate_reaches cur hi n
      all_goals
        rw [interpolateOnce_pos]
        omega
    · next hge => rwa [Bool.not_eq_true, flt_eq_false, hnext] at hge

/-- `passBound` is enough passes. -/
theorem passBound_enough (i : Nat) {pos : F} (h : 0 ≤ pos.scaled) :
    ((i + 1 : Nat) : Int) * 2 ^ 149 ≤ pos.scaled + passBound i pos * 2 ^ 142 := by
  rw [passBound, ftrunc_eq_tdiv, Int.tdiv_eq_ediv_of_nonneg h]
  omega

/-- After the work for input sample `i`, POS has reached sample `i + 1` (R131). -/
theorem pushSample_pos {i : Nat} (hi : i < 65536) (x : Sample) {s : State} (h : 0 ≤ s.rsmp.pos.scaled) :
    ((i + 1 : Nat) : Int) * 2 ^ 149 ≤ (pushSample i x s).rsmp.pos.scaled := by
  obtain ⟨cur, -, hpush⟩ := pushSample_eq i x s
  rw [hpush]
  exact interpolate_reaches cur hi _ (s.withLp cur) h (passBound_enough i h)

/-- After the work for a block, POS has reached the block's end (R131). -/
theorem pushFrom_pos (xs : List Sample) (i : Nat) (s : State) (hlen : i + xs.length ≤ 65536)
    (h : (i : Int) * 2 ^ 149 ≤ s.rsmp.pos.scaled) :
    ((i + xs.length : Nat) : Int) * 2 ^ 149 ≤ (pushFrom i xs s).rsmp.pos.scaled := by
  induction xs generalizing i s with
  | nil => rwa [List.length_nil, Nat.add_zero, pushFrom]
  | cons x xs ih =>
    rw [List.length_cons, Nat.add_comm xs.length, ← Nat.add_assoc] at hlen ⊢
    rw [pushFrom]
    exact ih (i + 1) _ hlen (pushSample_pos (by omega) x (by omega))

/-- A push of a block that a command can carry leaves POS at zero or above. -/
theorem posOk_after_push {xs : List Sample} {s : State} (hlen : xs.length ≤ 65535) (h : s.rsmp.PosOk) :
    0 ≤ (fsub (pushFrom 0 xs s).rsmp.pos (i2f xs.length)).scaled := by
  rw [posOk_iff] at h
  have hend := pushFrom_pos xs 0 s (by omega) (by omega)
  have hblock : (i2f xs.length).scaled = (xs.length : Int) * 2 ^ 149 := scaled_i2f (by omega)
  have hmax := units_le_maxUnits (pushFrom 0 xs s).rsmp.pos
  rw [← natAbs_scaled] at hmax
  generalize (pushFrom 0 xs s).rsmp.pos = p, i2f (xs.length : Int) = b at *
  refine scaled_zero.symm.trans_le (le_fadd ?_ ?_)
  all_goals rw [scaled_fneg, hblock]
  · omega
  · rw [scaled_zero]; omega

theorem Stepped.posOk {s t : State} (h : Stepped s t) (hpos : s.rsmp.PosOk) : t.rsmp.PosOk := by
  cases h with
  | performed _ hdec hp =>
    cases hp with
    | pushed xs _ u pos hu hend =>
      subst hu hend
      exact (posOk_iff _).mpr (posOk_after_push (decode_push_length hdec) hpos)
    | resetRsmp => exact (posOk_iff _).mpr (le_refl 0)
    | _ => exact hpos
  | pulsed => rwa [pulseStep_rsmp]
  | restarted => exact (posOk_iff _).mpr (le_refl 0)
  | _ => exact hpos

/-- Settles O36: RS.PUSH takes from POS what its loops have added, and nothing else moves POS but to zero. -/
theorem posNeverTurnsNegative : Obligations.PosNeverTurnsNegative :=
  fun _ _ hpos h => (stepped_of_step h).posOk hpos

end Sys2Proof.Machine
end

section
/-!
The invariant of the block (spec/10_state.md R51 parts (a) to (g), R32; spec/30_encoding.md R90): each unit's part of it
after each operation that writes the unit, then the whole of it after a command and after a step.
-/

namespace Sys2Proof.Machine

/-! ### CLK -/

/-- The invariant of CLK does not depend on SECS and HAVEFIX. -/
theorem clkOk_with_secs {c : Config} {k : Clk} (h : k.Ok c) (secs : BitVec 32) (haveFix : Bool) :
    Clk.Ok c { k with secs := secs, haveFix := haveFix } := h

/-- An accepted pulse: the interval it measures is one that the debounce let pass (R110). -/
theorem clkOk_acceptPulse {c : Config} {k : Clk} (hbounce : debounced c k = false) (h : k.Ok c) :
    Clk.Ok c (acceptPulse c k) := by
  obtain ⟨-, hfirst, hival⟩ := h
  refine ⟨le_refl _, nofun, fun hvalid => ?_⟩
  cases hseen : k.pulseSeen with
  | false =>
    simp only [acceptPulse, hseen, Bool.false_eq_true, if_false] at hvalid ⊢
    exact hival hvalid
  | true =>
    have helapsed : elapsed k < 2 ^ 64 := (Nat.sub_le _ _).trans_lt k.mono.isLt
    simp only [debounced, hseen, Bool.true_and, decide_eq_false_iff_not, not_lt] at hbounce
    simp only [acceptPulse, hseen, if_true, BitVec.toNat_ofNat, Nat.mod_eq_of_lt helapsed]
    exact hbounce

/-- MONO may grow. -/
theorem clkOk_with_mono {c : Config} {k : Clk} {mono : BitVec 64} (h : k.Ok c) (hle : k.mono.toNat ≤ mono.toNat) :
    Clk.Ok c { k with mono := mono } := ⟨h.1.trans hle, h.2⟩

theorem clkOk_atReset (c : Config) : (Clk.atReset c).Ok c := ⟨le_refl _, fun _ => ⟨rfl, rfl⟩, nofun⟩

/-! ### RSMP -/

theorem accFits_accStore (v : Sample) {s : State} (h : s.rsmp.Ok s.cfg) :
    (accStore v s).rsmp.Ok (accStore v s).cfg := by
  rw [accStore_cfg, Rsmp.Ok]
  obtain ⟨-, hacc, -⟩ | ⟨hroom, hacc, -⟩ := accStore_cases v s
  · rw [hacc]
    exact one_le_accCap s.cfg
  · rw [hacc, List.length_append]
    exact lt_of_le_of_ne h hroom

theorem accFits_interpolateOnce (i : Nat) (cur : F) {s : State} (h : s.rsmp.Ok s.cfg) :
    (interpolateOnce i cur s).rsmp.Ok (interpolateOnce i cur s).cfg := by
  obtain ⟨v, pos, -, -, hpass⟩ := interpolateOnce_eq i cur s
  rw [hpass]
  exact accFits_accStore v h

theorem accFits_pushSample (i : Nat) (x : Sample) {s : State} (h : s.rsmp.Ok s.cfg) :
    (pushSample i x s).rsmp.Ok (pushSample i x s).cfg := by
  obtain ⟨cur, -, hpush⟩ := pushSample_eq i x s
  rw [hpush]
  exact interpolate_keeps (P := fun u => u.rsmp.Ok u.cfg) i cur (fun _ => accFits_interpolateOnce i cur) _
    (s.withLp cur) h

/-- R51 part (a) through a push: every append keeps it. -/
theorem accFits_pushFrom (xs : List Sample) (i : Nat) {s : State} (h : s.rsmp.Ok s.cfg) :
    (pushFrom i xs s).rsmp.Ok (pushFrom i xs s).cfg :=
  pushFrom_keeps (P := fun t => t.rsmp.Ok t.cfg) (fun i x _ => accFits_pushSample i x) xs i s h

/-! ### FILT -/

/-- NOISE, written as the complement of RSSI, is one (R51 part (b)). -/
theorem rssi_add_noise (rssi : BitVec 8) : rssi.toNat + (255#8 - rssi).toNat = 255 := by bv_omega

theorem filtOk_atReset (c : Config) : (Filt.atReset c).Ok c :=
  ⟨rfl, .inl rfl, le_refl _, List.length_replicate, List.length_replicate⟩

/-! ### A command -/

section Command

variable {i : Instr} {s t : State}

theorem Performed.clkOk (h : Performed s i t) (hs : s.clk.Ok s.cfg) : t.clk.Ok s.cfg := by
  obtain ⟨secs, haveFix, hclk⟩ := h.clk_eq
  exact hclk ▸ clkOk_with_secs hs secs haveFix

theorem Performed.rsmpOk (h : Performed s i t) (hs : s.rsmp.Ok s.cfg) : t.rsmp.Ok s.cfg := by
  cases h with
  | pushed xs _ _ _ hu =>
    subst hu
    have hacc := accFits_pushFrom xs 0 hs
    rwa [pushFrom_cfg] at hacc
  | popped => exact List.length_drop.le.trans ((Nat.sub_le _ _).trans hs)
  | resetRsmp => exact Nat.zero_le _
  | _ => exact hs

theorem Performed.filtOk (h : Performed s i t) (hs : s.filt.Ok s.cfg) : t.filt.Ok s.cfg := by
  obtain ⟨hsum, hrange, hcal, hhpz, hbpz⟩ := hs
  cases h with
  | wroteCal _ _ _ _ hle => exact ⟨hsum, hrange, hle, hhpz, hbpz⟩
  | pushed xs _ _ _ hu =>
    subst hu
    exact pushFrom_filt xs 0 s ▸ ⟨hsum, hrange, hcal, hhpz, hbpz⟩
  | processed bp de _ _ _ hres =>
    obtain ⟨_, hpz, bpz, _, rssi, hcases, -, hhpz', hbpz', hmin, hmax⟩ := procResult_cases bp de s
    obtain ⟨-, rfl⟩ := Prod.mk.inj (hres.symm.trans hcases)
    exact ⟨rssi_add_noise rssi, .inr ⟨hmin, hmax⟩, hcal, hhpz' hhpz, hbpz' hbpz⟩
  | resetFilt => exact ⟨hsum, hrange, hcal, List.length_replicate, List.length_replicate⟩
  | _ => exact ⟨hsum, hrange, hcal, hhpz, hbpz⟩

theorem Performed.fbWf (h : Performed s i t) (hs : Memory.wf s.cfg.consts.frameLen s.fb = true) :
    Memory.wf s.cfg.consts.frameLen t.fb = true := by
  cases h with
  | pushed xs _ _ _ hu => subst hu; exact pushFrom_fb xs 0 s ▸ hs
  | popped => exact wf_fbFrom _ (List.length_take_le _ _)
  | wroteFb idx d hidx => exact wf_fbWrite _ d hs hidx
  | processed bp de _ _ _ hres =>
    obtain ⟨_, _, _, _, _, hcases, hlen, -⟩ := procResult_cases bp de s
    obtain ⟨rfl, -⟩ := Prod.mk.inj (hres.symm.trans hcases)
    exact wf_fbFrom _ ((List.length_map _).trans hlen).le
  | _ => exact hs

/-- A command keeps the invariant of the block. -/
theorem Performed.ok (h : Performed s i t) (hs : s.Ok) : t.Ok := by
  obtain ⟨hclk, hrsmp, hfilt, hfb, hport⟩ := hs
  obtain ⟨hcfg, hpending, -⟩ := h.surroundings
  rw [State.Ok, State.PortOk, hcfg, hpending]
  exact ⟨h.clkOk hclk, h.rsmpOk hrsmp, h.filtOk hfilt, h.fbWf hfb, hport⟩

end Command

/-! ### A step -/

/-- The invariant speaks of nothing that is to arrive, and of the port only that no whole command stands on it. -/
theorem ok_with_port {s : State} (h : s.Ok) (rest : List Input) {port : List Word}
    (hport : decode port = .error .incomplete) : State.Ok { s with inputs := rest, pending := port } := by
  obtain ⟨hclk, hrsmp, hfilt, hfb, -⟩ := h
  exact ⟨hclk, hrsmp, hfilt, hfb, hport⟩

theorem ok_pulseStep {s : State} (h : s.Ok) : (pulseStep s).Ok := by
  obtain ⟨-, heq⟩ | ⟨hbounce, err, -, heq⟩ := pulseStep_cases s <;> rw [heq]
  · exact h
  · obtain ⟨hclk, hrest⟩ := h
    exact ⟨clkOk_acceptPulse hbounce hclk, hrest⟩

theorem ok_atReset (c : Config) : (State.atReset c).Ok :=
  ⟨clkOk_atReset c, Nat.zero_le _, filtOk_atReset c, rfl, rfl⟩

/-- Settles O51: the units' reset values meet their parts of the invariant in every configuration. -/
theorem invariantHoldsAtReset : Obligations.InvariantHoldsAtReset := ⟨ok_atReset, ok_atReset Config.built⟩

/-- Every step keeps the invariant: a word that completes a command, or is illegal, leaves the port empty. -/
theorem Stepped.ok {s t : State} (h : Stepped s t) (hs : s.Ok) : t.Ok := by
  have ⟨hclk, hrsmp, hfilt, hfb, hport⟩ := hs
  cases h with
  | idle => exact hs
  | performed _ hdec hp =>
    obtain rfl := (decode_concat hport _).1 _ _ hdec
    exact hp.ok (ok_with_port hs _ rfl)
  | @illegal w _ _ _ hdec =>
    have hempty : decode (s.pending ++ [w]).tail = .error .incomplete := by rw [(decode_concat hport w).2 _ hdec]; rfl
    exact ⟨hclk, hrsmp, hfilt, hfb, hempty⟩
  | waiting _ hdec => exact ok_with_port hs _ hdec
  | pulsed => exact ok_pulseStep (ok_with_port hs _ hport)
  | ticked _ hlt =>
    refine ⟨clkOk_with_mono hclk ?_, hrsmp, hfilt, hfb, hport⟩
    rw [BitVec.toNat_ofNat, Nat.mod_eq_of_lt hlt]
    exact Nat.le_add_right _ _
  | restarted => exact ok_atReset s.cfg

/-- Settles O50: by the cases of a step. -/
theorem everyStepKeepsInvariant : Obligations.EveryStepKeepsInvariant :=
  fun _ _ hs h => (stepped_of_step h).ok hs

end Sys2Proof.Machine
end

section
/-!
RDCSR and WRCSR (spec/10_state.md R41 to R49, spec/44_system_and_frame_buffer.md R171, R172).
-/

namespace Sys2Proof.Machine

/-! ### The registers as words -/

/-- CK_FLAGS by its three bits (R47). -/
theorem csrCkFlags_eq (s : State) : csrCkFlags s
    = BitVec.ofNat 32 (s.clk.haveFix.toNat + 2 * s.clk.pulseSeen.toNat + 4 * s.clk.ivalValid.toNat) := by
  rw [csrCkFlags]
  generalize s.clk.haveFix = fix, s.clk.pulseSeen = seen, s.clk.ivalValid = valid
  revert fix seen valid
  decide

/-- R7 on the sizes that GEOM shows: each fits into its field (R48). -/
theorem geom_fits {c : Config} (h : c.consts = Consts.r7) :
    c.par.hpTaps.length ≤ 255 ∧ c.par.bpTaps.length ≤ 255 ∧ c.par.accCap / 160 ≤ 65535 := by
  have hfit := c.parFit
  simp only [h, OpenParams.fits, tapsFit, Bool.and_eq_true, decide_eq_true_eq] at hfit
  obtain ⟨⟨⟨⟨-, ⟨-, hhp⟩, -⟩, ⟨-, hbp⟩, -⟩, -⟩, -, hcap⟩ := hfit
  exact ⟨hhp, hbp, Nat.div_le_of_le_mul hcap⟩

/-- GEOM by its three fields (R48). -/
theorem csrGeom_eq {s : State} (h : s.AtR7) : csrGeom s = BitVec.ofNat 32
    (s.cfg.par.hpTaps.length + 256 * s.cfg.par.bpTaps.length + 65536 * (s.cfg.par.accCap / 160)) := by
  obtain ⟨hhp, hbp, hcap⟩ := geom_fits h
  have hlen : s.cfg.consts.frameLen = 160 := by rw [h]; rfl
  apply BitVec.eq_of_toNat_eq
  rw [csrGeom, hlen, BitVec.toNat_cast, BitVec.toNat_append, BitVec.toNat_append,
    ← Nat.shiftLeft_add_eq_or_of_lt (BitVec.isLt _), ← Nat.shiftLeft_add_eq_or_of_lt (BitVec.isLt _)]
  simp only [Nat.shiftLeft_eq, BitVec.toNat_ofNat]
  omega

/-- The numbers from 0x09 up are not implemented (R40, R49). -/
theorem csrRead_eq_none {csr : BitVec 8} (h : 0x09 ≤ csr.toNat) (s : State) : csrRead csr s = none := by
  obtain ⟨n, hn⟩ := Nat.exists_eq_add_of_le' h
  unfold csrRead
  rw [hn]
  rfl

/-! ### RDCSR -/

theorem rdcsrStep_of_some {csr : BitVec 8} {s : State} {v : Word} (h : csrRead csr s = some v) :
    rdcsrStep csr s = respond 0x01#8 codeOk 0#16 [v] s := by rw [rdcsrStep, h]

theorem rdcsrStep_of_none {csr : BitVec 8} {s : State} (h : csrRead csr s = none) :
    rdcsrStep csr s = reportError 0x01#8 .eCsr s := by rw [rdcsrStep, h]

theorem exec_rdcsr_of_some {csr : BitVec 8} {s : State} {v : Word} (h : csrRead csr s = some v) :
    exec (.rdcsr csr) s = .next (s.sends [0x01000000#32, v]) := congrArg Host.Outcome.next (rdcsrStep_of_some h)

/-- Settles O23: one clause for each register of R41 to R48. -/
theorem rdcsrReadsEachRegister : Obligations.RdcsrReadsEachRegister := by
  intro s h
  refine ⟨exec_rdcsr_of_some ?_, exec_rdcsr_of_some ?_, exec_rdcsr_of_some rfl, exec_rdcsr_of_some rfl,
    exec_rdcsr_of_some ?_, exec_rdcsr_of_some ?_, exec_rdcsr_of_some ?_, exec_rdcsr_of_some ?_, exec_rdcsr_of_some ?_⟩
  case refine_1 => exact congrArg (fun c => some c.idValue) h
  case refine_6 => exact congrArg some (csrCkFlags_eq s)
  case refine_7 => exact congrArg some (csrGeom_eq h)
  all_goals exact congrArg some (BitVec.ofNat_toNat _ _).symm

/-! ### WRCSR -/

theorem exec_wrcsr_cal (d : BitVec 16) (s : State) : exec (.wrcsr 0x04#8 d) s
    = .next (respond 0x02#8 codeOk (writeCal d s).filt.cal [] (writeCal d s)) := rfl

theorem exec_wrcsr_err (d : BitVec 16) (s : State) : exec (.wrcsr 0x01#8 d) s
    = .next (respond 0x02#8 codeOk ((writeErr d s).err.setWidth 16) [] (writeErr d s)) := rfl

theorem wrcsrStep_other {csr : BitVec 8} (herr : csr.toNat ≠ 0x01) (hcal : csr.toNat ≠ 0x04) (d : BitVec 16)
    (s : State) : wrcsrStep csr d s = reportError 0x02#8 .eCsr s := by
  unfold wrcsrStep
  split
  · exact absurd ‹_› hcal
  · exact absurd ‹_› herr
  · rfl

/-- Settles O24: both clauses are the report of E_CSR. -/
theorem csrAccessRefusedWithECsr : Obligations.CsrAccessRefusedWithECsr :=
  ⟨fun s _ h => congrArg Host.Outcome.next (rdcsrStep_of_none (csrRead_eq_none h s)),
    fun s _ d herr hcal => congrArg Host.Outcome.next (wrcsrStep_other herr hcal d s)⟩

/-- Settles O25: the two branches of the clamp, CAL_MIN at its value of R7. -/
theorem wrcsrCalStoresClamped : Obligations.WrcsrCalStoresClamped := by
  intro s d h
  have hmin : s.cfg.consts.calMin = 0x0100#16 := by rw [h]; rfl
  have hminNat : s.cfg.consts.calMin.toNat = 0x0100 := congrArg BitVec.toNat hmin
  rw [exec_wrcsr_cal]
  constructor
  · intro hlt
    rw [writeCal_of_lt (hlt.trans_eq hminNat.symm), hmin, respond, statusWord_codeOk]
    rfl
  · intro hle
    rw [writeCal_of_le (hminNat.trans_le hle), respond, statusWord_codeOk]
    rfl

/-- A flag after a WRCSR ERR (R42). -/
theorem getLsbD_clearErr (d : BitVec 16) (e : Err) {k : Nat} (hk : k < 7) :
    (clearErr d e).getLsbD k = (e.getLsbD k && !d.getLsbD k) := by
  simp [clearErr, hk]

/-- Settles O26: the flags that remain are `clearErr` of the datum. -/
theorem wrcsrErrClearsNamedFlags : Obligations.WrcsrErrClearsNamedFlags := by
  intro s d
  refine ⟨clearErr d s.err, ?_, fun k hk => getLsbD_clearErr d s.err hk⟩
  have hval : ((clearErr d s.err).setWidth 16).toNat = (clearErr d s.err).toNat :=
    BitVec.toNat_setWidth_of_le (by omega)
  rw [exec_wrcsr_err, respond, statusWord_codeOk, writeErr, hval]
  rfl

end Sys2Proof.Machine
end

section
/-!
The flags of ERR decide nothing (spec/10_state.md R37, spec/60_exceptions.md R190, R198): an operation is blind to them when
from any flags it ends the same and sets the same flags. Blindness passes through composition and through choices that
ERR does not enter, so it is proved along the shape of each operation.
-/

namespace Sys2Proof.Machine

/-- The state with other flags. -/
def State.withErr (s : State) (e : Err) : State := { s with err := e }

/-- From `s`, the operation ends the same whatever flags are set, and sets the same flags (R190, R198). -/
def FlagBlind (f : State → State) (s : State) : Prop :=
  ∃ raised : Err, (f s).err = s.err ||| raised ∧ ∀ e : Err, f (s.withErr e) = (f s).withErr (e ||| raised)

section Blind

variable {f g : State → State} {s : State}

/-- An operation that neither reads nor writes ERR. -/
theorem FlagBlind.of_keeps (herr : (f s).err = s.err) (h : ∀ e, f (s.withErr e) = (f s).withErr e) : FlagBlind f s :=
  ⟨0#7, by rw [BitVec.or_zero, herr], fun e => by rw [BitVec.or_zero, h]⟩

theorem FlagBlind.comp (hf : FlagBlind f s) (hg : FlagBlind g (f s)) : FlagBlind (fun u => g (f u)) s := by
  obtain ⟨a, hfa, hf⟩ := hf
  obtain ⟨b, hgb, hg⟩ := hg
  refine ⟨a ||| b, by rw [hgb, hfa, BitVec.or_assoc], fun e => ?_⟩
  dsimp only
  rw [hf, hg, BitVec.or_assoc]

/-- A choice that the flags do not decide. -/
theorem FlagBlind.ite {p : State → Prop} [DecidablePred p] (hp : ∀ e, p (s.withErr e) = p s)
    (hf : p s → FlagBlind f s) (hg : ¬ p s → FlagBlind g s) : FlagBlind (fun u => if p u then f u else g u) s := by
  by_cases h : p s
  · obtain ⟨raised, herr, hf⟩ := hf h
    exact ⟨raised, by simpa only [if_pos h], fun e => by simpa only [hp e, if_pos h] using hf e⟩
  · obtain ⟨raised, herr, hg⟩ := hg h
    exact ⟨raised, by simpa only [if_neg h], fun e => by simpa only [hp e, if_neg h] using hg e⟩

/-- An operation that agrees with a blind one whatever the flags are. -/
theorem FlagBlind.congr (h : ∀ e, f (s.withErr e) = g (s.withErr e)) (hg : FlagBlind g s) : FlagBlind f s := by
  obtain ⟨raised, herr, hg⟩ := hg
  have hs : f s = g s := h s.err
  exact ⟨raised, by rw [hs, herr], fun e => by rw [h, hs, hg]⟩

end Blind

theorem flagBlind_respond (op code : BitVec 8) (val : BitVec 16) (data : List Word) (s : State) :
    FlagBlind (respond op code val data) s := .of_keeps rfl fun _ => rfl

theorem flagBlind_raiseFlag (flag : ErrFlag) (s : State) : FlagBlind (raiseFlag flag) s := ⟨_, rfl, fun _ => rfl⟩

theorem flagBlind_reportError (op : BitVec 8) (e : CmdError) (s : State) : FlagBlind (reportError op e) s :=
  .comp (g := respond op (errorCode e) 0#16 []) (flagBlind_raiseFlag _ s) (flagBlind_respond ..)

theorem flagBlind_accStore (v : Sample) (s : State) : FlagBlind (accStore v) s :=
  .ite (fun _ => rfl) (fun _ => ⟨_, rfl, fun _ => rfl⟩) (fun _ => .of_keeps rfl fun _ => rfl)

theorem flagBlind_rsPopStep (s : State) : FlagBlind rsPopStep s :=
  .ite (fun _ => rfl) (fun _ => flagBlind_reportError _ _ s) (fun _ => .of_keeps rfl fun _ => rfl)

theorem flagBlind_fbRdStep (idx : BitVec 8) (s : State) : FlagBlind (fbRdStep idx) s :=
  .ite (fun _ => rfl) (fun _ => .of_keeps rfl fun _ => rfl) (fun _ => flagBlind_reportError _ _ s)

theorem flagBlind_fbWrStep (idx : BitVec 8) (d : Sample) (s : State) : FlagBlind (fbWrStep idx d) s :=
  .ite (fun _ => rfl) (fun _ => .of_keeps rfl fun _ => rfl) (fun _ => flagBlind_reportError _ _ s)

theorem flagBlind_ckFixStep (epoch : BitVec 32) (s : State) : FlagBlind (ckFixStep epoch) s :=
  .ite (fun _ => rfl) (fun _ => .of_keeps rfl fun _ => rfl) (fun _ => .of_keeps rfl fun _ => rfl)

theorem flagBlind_writeCal (d : BitVec 16) (s : State) : FlagBlind (writeCal d) s :=
  .ite (fun _ => rfl) (fun _ => ⟨_, rfl, fun _ => rfl⟩) (fun _ => .of_keeps rfl fun _ => rfl)

theorem flagBlind_fpProcStep (bp de : Bool) (s : State) : FlagBlind (fpProcStep bp de) s :=
  .of_keeps rfl fun _ => rfl

/-- The registers but ERR show nothing of the flags. -/
theorem csrRead_withErr {csr : BitVec 8} (h : csr.toNat ≠ 0x01) (s : State) (e : Err) :
    csrRead csr (s.withErr e) = csrRead csr s := by
  unfold csrRead
  generalize csr.toNat = n at h ⊢
  match n, h with
  | 0, _ => rfl
  | 1, h => exact absurd rfl h
  | 2, _ => rfl
  | 3, _ => rfl
  | 4, _ => rfl
  | 5, _ => rfl
  | 6, _ => rfl
  | 7, _ => rfl
  | 8, _ => rfl
  | _ + 9, _ => rfl

theorem csr_toNat_ne_of_beq {csr : BitVec 8} (h : (csr == 0x01#8) = false) : csr.toNat ≠ 0x01 :=
  fun hcsr => ne_of_beq_false h (BitVec.eq_of_toNat_eq hcsr)

theorem flagBlind_rdcsrStep {csr : BitVec 8} (h : csr.toNat ≠ 0x01) (s : State) : FlagBlind (rdcsrStep csr) s := by
  cases hread : csrRead csr s with
  | some v =>
    exact .congr (fun e => rdcsrStep_of_some ((csrRead_withErr h s e).trans hread)) (flagBlind_respond ..)
  | none =>
    exact .congr (fun e => rdcsrStep_of_none ((csrRead_withErr h s e).trans hread)) (flagBlind_reportError ..)

theorem flagBlind_wrcsrStep {csr : BitVec 8} (h : csr.toNat ≠ 0x01) (d : BitVec 16) (s : State) :
    FlagBlind (wrcsrStep csr d) s := by
  by_cases hcal : csr.toNat = 0x04
  · obtain rfl : csr = 0x04#8 := BitVec.eq_of_toNat_eq hcal
    exact .comp (g := fun u => respond 0x02#8 codeOk u.filt.cal [] u) (flagBlind_writeCal d s)
      (.of_keeps rfl fun _ => rfl)
  · exact .congr (fun _ => wrcsrStep_other h hcal d _) (flagBlind_reportError ..)

theorem flagBlind_interpolateOnce (i : Nat) (cur : F) (s : State) : FlagBlind (interpolateOnce i cur) s :=
  .comp (f := fun u => accStore (clip16 (interpolated u.rsmp.prev cur u.rsmp.pos i)) u)
    (g := fun u => { u with rsmp := { u.rsmp with pos := fadd u.rsmp.pos u.cfg.par.step } })
    (.congr (fun _ => rfl) (flagBlind_accStore (clip16 (interpolated s.rsmp.prev cur s.rsmp.pos i)) s))
    (.of_keeps rfl fun _ => rfl)

theorem flagBlind_interpolate (n i : Nat) (cur : F) (s : State) : FlagBlind (interpolate n i cur) s := by
  induction n generalizing s with
  | zero => exact .of_keeps rfl fun _ => rfl
  | succ n ih =>
    exact .ite (p := fun u => flt u.rsmp.pos (i2f (i + 1)) = true) (fun _ => rfl)
      (fun _ => .comp (flagBlind_interpolateOnce i cur s) (ih _)) (fun _ => .of_keeps rfl fun _ => rfl)

theorem flagBlind_pushSample (i : Nat) (x : Sample) (s : State) : FlagBlind (pushSample i x) s := by
  obtain ⟨cur, hcur, -⟩ := pushSample_eq i x s
  refine .congr (g := fun u => (interpolate (passBound i s.rsmp.pos) i cur (u.withLp cur)).withPrev cur) (fun e => ?_)
    (.comp (f := fun u => interpolate (passBound i s.rsmp.pos) i cur (u.withLp cur)) (g := (·.withPrev cur))
      (.comp (f := (·.withLp cur)) (.of_keeps rfl fun _ => rfl) (flagBlind_interpolate ..)) (.of_keeps rfl fun _ => rfl))
  obtain ⟨cur', hcur', hpush⟩ := pushSample_eq i x (s.withErr e)
  obtain rfl : cur' = cur := hcur'.trans hcur.symm
  exact hpush

theorem flagBlind_pushFrom (xs : List Sample) (i : Nat) (s : State) : FlagBlind (pushFrom i xs) s := by
  induction xs generalizing i s with
  | nil => exact .of_keeps rfl fun _ => rfl
  | cons x xs ih =>
    exact .comp (f := pushSample i x) (g := pushFrom (i + 1) xs) (flagBlind_pushSample i x s) (ih (i + 1) _)

theorem flagBlind_finishPush (len : Nat) (s : State) : FlagBlind (finishPush len) s := by
  obtain ⟨pos, hpos⟩ : ∃ pos, pos = fsub s.rsmp.pos (i2f len) := ⟨_, rfl⟩
  exact .congr (g := fun u => respond 0x10#8 codeOk (framesReady u) [] (u.withPos pos))
    (fun e => by rw [hpos]; exact finishPush_eq len (s.withErr e)) (.of_keeps rfl fun _ => rfl)

/-- From `s`, the command answers the same next state whatever flags are set, but for the flags, and sets the same. -/
def BlindCommand (i : Instr) (s : State) : Prop :=
  ∀ t, exec i s = .next t →
    ∃ raised : Err, t.err = s.err ||| raised ∧ ∀ e, exec i (s.withErr e) = .next (t.withErr (e ||| raised))

/-- A command whose meaning is a blind operation. -/
theorem BlindCommand.of_flagBlind {i : Instr} {f : State → State} {s : State} (hi : ∀ u, exec i u = .next (f u))
    (hf : FlagBlind f s) : BlindCommand i s := by
  intro t h
  obtain rfl : f s = t := Host.Outcome.next.inj ((hi s).symm.trans h)
  obtain ⟨raised, herr, hf⟩ := hf
  exact ⟨raised, herr, fun e => by rw [hi, hf]⟩

/-- RS.PUSH: whether its loops end does not depend on the flags either. -/
theorem blindCommand_rsPush (xs : List Sample) (s : State) : BlindCommand (.rsPush xs) s := by
  intro t h
  have hpush := flagBlind_pushFrom xs 0 s
  have hends (e : Err) : neverEnds xs (s.withErr e) (pushFrom 0 xs (s.withErr e)) = neverEnds xs s (pushFrom 0 xs s) := by
    obtain ⟨_, -, hsame⟩ := hpush
    rw [hsame]
    rfl
  obtain ⟨-, hfault⟩ | ⟨hfalse, hnext⟩ := execRsPush_cases xs s
  · cases hfault.symm.trans h
  · obtain rfl := Host.Outcome.next.inj (hnext.symm.trans h)
    obtain ⟨raised, herr, hblind⟩ := FlagBlind.comp hpush (flagBlind_finishPush xs.length _)
    refine ⟨raised, herr, fun e => ?_⟩
    obtain ⟨htrue, -⟩ | ⟨-, hnext'⟩ := execRsPush_cases xs (s.withErr e)
    · rw [hends, hfalse] at htrue; cases htrue
    · exact hnext'.trans (congrArg Host.Outcome.next (hblind e))

/-- Every command but RDCSR ERR and WRCSR ERR (R190, R198). -/
theorem blindCommand_of_not_namesErr {i : Instr} (hname : namesErr i = false) (s : State) : BlindCommand i s := by
  cases i with
  | nop => exact .of_flagBlind (fun _ => rfl) (flagBlind_respond ..)
  | rdcsr csr => exact .of_flagBlind (fun _ => rfl) (flagBlind_rdcsrStep (csr_toNat_ne_of_beq hname) s)
  | wrcsr csr d => exact .of_flagBlind (fun _ => rfl) (flagBlind_wrcsrStep (csr_toNat_ne_of_beq hname) d s)
  | rsPush xs => exact blindCommand_rsPush xs s
  | rsPop => exact .of_flagBlind (fun _ => rfl) (flagBlind_rsPopStep s)
  | rsReset => exact .of_flagBlind (f := rsResetStep) (fun _ => rfl) (.of_keeps rfl fun _ => rfl)
  | fbRd idx => exact .of_flagBlind (fun _ => rfl) (flagBlind_fbRdStep idx s)
  | fbWr idx d => exact .of_flagBlind (fun _ => rfl) (flagBlind_fbWrStep idx d s)
  | fpProc bp de => exact .of_flagBlind (fun _ => rfl) (flagBlind_fpProcStep bp de s)
  | fpReset => exact .of_flagBlind (f := fpResetStep) (fun _ => rfl) (.of_keeps rfl fun _ => rfl)
  | ckNow => exact .of_flagBlind (fun _ => rfl) (.of_keeps rfl fun _ => rfl)
  | ckLocked => exact .of_flagBlind (fun _ => rfl) (.of_keeps rfl fun _ => rfl)
  | ckJitter => exact .of_flagBlind (fun _ => rfl) (.of_keeps rfl fun _ => rfl)
  | ckFix epoch => exact .of_flagBlind (fun _ => rfl) (flagBlind_ckFixStep epoch s)

/-- Settles O58: every command that does not name ERR is blind to the flags. -/
theorem flagsNeverDecide : Obligations.FlagsNeverDecide := by
  intro i s t e hname h
  obtain ⟨raised, herr, hblind⟩ := blindCommand_of_not_namesErr hname s t h
  exact ⟨raised, herr, hblind e⟩

/-- The commands that name ERR. -/
theorem eq_of_namesErr {i : Instr} (h : namesErr i = true) : i = .rdcsr 0x01#8 ∨ ∃ d, i = .wrcsr 0x01#8 d := by
  cases i with
  | rdcsr csr => exact .inl (congrArg Instr.rdcsr (eq_of_beq h))
  | wrcsr csr d => exact .inr ⟨d, congrArg (Instr.wrcsr · d) (eq_of_beq h)⟩
  | _ => cases h

/-- A flag that is set stays set when flags are added. -/
theorem err_and_or_self (a b : Err) : a &&& (a ||| b) = a := by
  apply BitVec.eq_of_getLsbD_eq
  intro k _
  rw [BitVec.getLsbD_and, BitVec.getLsbD_or]
  exact inf_sup_self

/-- Settles O55: a blind command only adds flags, and RDCSR ERR leaves them. -/
theorem flagsStayUntilCleared : Obligations.FlagsStayUntilCleared := by
  intro i s t hne h
  cases hname : namesErr i with
  | false =>
    obtain ⟨raised, herr, -⟩ := blindCommand_of_not_namesErr hname s t h
    rw [herr, err_and_or_self]
  | true =>
    obtain rfl | ⟨d, rfl⟩ := eq_of_namesErr hname
    · rw [exec_rdcsr_of_some rfl] at h
      rw [← Host.Outcome.next.inj h, sends_err, BitVec.and_self]
    · exact absurd rfl (hne d)

end Sys2Proof.Machine
end

section
/-!
A pulse and a command that keeps apart from the clock commute (spec/20_memory.md R69, spec/60_exceptions.md R196). The
configuration and CLK alone decide what a pulse step makes of CLK and which flags it sets (`pulseStep_decided_by_clk`);
such a command never sees CLK (`exec_withClk`) and is blind to the flags (`flagsNeverDecide`).
-/

namespace Sys2Proof.Machine

/-- The state with another CLK. -/
def State.withClk (s : State) (k : Clk) : State := { s with clk := k }

/-! ### Operations that never see CLK -/

/-- A choice that CLK does not decide. -/
theorem ite_withClk {p : Prop} [Decidable p] {s s' t t' : State} {k : Clk} (hs : s' = s.withClk k)
    (ht : t' = t.withClk k) : (if p then s' else t') = (if p then s else t).withClk k := by
  rw [hs, ht]
  exact (apply_ite (State.withClk · k) p s t).symm

theorem accStore_withClk (v : Sample) (s : State) (k : Clk) : accStore v (s.withClk k) = (accStore v s).withClk k := by
  unfold accStore
  exact ite_withClk rfl rfl

theorem rsPopStep_withClk (s : State) (k : Clk) : rsPopStep (s.withClk k) = (rsPopStep s).withClk k := by
  unfold rsPopStep
  exact ite_withClk rfl rfl

theorem fbRdStep_withClk (idx : BitVec 8) (s : State) (k : Clk) :
    fbRdStep idx (s.withClk k) = (fbRdStep idx s).withClk k := by
  unfold fbRdStep
  exact ite_withClk rfl rfl

theorem fbWrStep_withClk (idx : BitVec 8) (d : Sample) (s : State) (k : Clk) :
    fbWrStep idx d (s.withClk k) = (fbWrStep idx d s).withClk k := by
  unfold fbWrStep
  exact ite_withClk rfl rfl

theorem writeCal_withClk (d : BitVec 16) (s : State) (k : Clk) :
    writeCal d (s.withClk k) = (writeCal d s).withClk k := by
  unfold writeCal
  exact ite_withClk rfl rfl

/-- WRCSR reaches CAL and ERR only (R172). -/
theorem wrcsrStep_withClk (csr : BitVec 8) (d : BitVec 16) (s : State) (k : Clk) :
    wrcsrStep csr d (s.withClk k) = (wrcsrStep csr d s).withClk k := by
  unfold wrcsrStep
  split
  · rw [writeCal_withClk]; rfl
  · rfl
  · rfl

/-- The registers but CK_FLAGS show nothing of CLK (R41 to R48). -/
theorem csrRead_withClk {csr : BitVec 8} (h : csr.toNat ≠ 0x07) (s : State) (k : Clk) :
    csrRead csr (s.withClk k) = csrRead csr s := by
  unfold csrRead
  split
  case h_8 hcsr => exact absurd hcsr h
  all_goals rfl

theorem rdcsrStep_withClk {csr : BitVec 8} (h : csr.toNat ≠ 0x07) (s : State) (k : Clk) :
    rdcsrStep csr (s.withClk k) = (rdcsrStep csr s).withClk k := by
  have hread := csrRead_withClk h s k
  cases hs : csrRead csr s with
  | some v => rw [rdcsrStep_of_some hs, rdcsrStep_of_some (hread.trans hs)]; rfl
  | none => rw [rdcsrStep_of_none hs, rdcsrStep_of_none (hread.trans hs)]; rfl

/-! ### RS.PUSH never sees CLK -/

theorem interpolateOnce_withClk (i : Nat) (cur : F) (s : State) (k : Clk) :
    interpolateOnce i cur (s.withClk k) = (interpolateOnce i cur s).withClk k := by
  have hstore := accStore_withClk (clip16 (interpolated s.rsmp.prev cur s.rsmp.pos i)) s k
  exact congrArg (fun t => t.withPos (fadd t.rsmp.pos t.cfg.par.step)) hstore

theorem interpolate_withClk (n i : Nat) (cur : F) (s : State) (k : Clk) :
    interpolate n i cur (s.withClk k) = (interpolate n i cur s).withClk k := by
  induction n generalizing s with
  | zero => rfl
  | succ n ih =>
    have hpass : interpolate n i cur (interpolateOnce i cur (s.withClk k))
        = (interpolate n i cur (interpolateOnce i cur s)).withClk k := by rw [interpolateOnce_withClk, ih]
    exact ite_withClk hpass rfl

theorem pushSample_withClk (i : Nat) (x : Sample) (s : State) (k : Clk) :
    pushSample i x (s.withClk k) = (pushSample i x s).withClk k := by
  obtain ⟨cur, hcur, hpush⟩ := pushSample_eq i x s
  obtain ⟨cur', hcur', hpush'⟩ := pushSample_eq i x (s.withClk k)
  obtain rfl : cur' = cur := hcur'.trans hcur.symm
  rw [hpush, hpush']
  exact congrArg (State.withPrev · cur') (interpolate_withClk _ i cur' (s.withLp cur') k)

theorem pushFrom_withClk (xs : List Sample) (i : Nat) (s : State) (k : Clk) :
    pushFrom i xs (s.withClk k) = (pushFrom i xs s).withClk k := by
  induction xs generalizing i s with
  | nil => rfl
  | cons x xs ih => rw [pushFrom, pushFrom, pushSample_withClk, ih]

/-- Neither the end of a push nor whether its loops end depends on CLK (R131). -/
theorem execRsPush_withClk {xs : List Sample} {s t : State} (k : Clk) (h : execRsPush xs s = .next t) :
    execRsPush xs (s.withClk k) = .next (t.withClk k) := by
  have hends : neverEnds xs (s.withClk k) (pushFrom 0 xs (s.withClk k)) = neverEnds xs s (pushFrom 0 xs s) := by
    rw [pushFrom_withClk]; rfl
  obtain ⟨-, hfault⟩ | ⟨hfalse, hnext⟩ := execRsPush_cases xs s
  · cases hfault.symm.trans h
  · obtain rfl := Host.Outcome.next.inj (hnext.symm.trans h)
    obtain ⟨htrue, -⟩ | ⟨-, hnext'⟩ := execRsPush_cases xs (s.withClk k)
    · rw [hends, hfalse] at htrue; cases htrue
    · rw [hnext', pushFrom_withClk]; rfl

/-! ### The commands that keep apart from the clock -/

/-- A command that never sees CLK answers the same next state with any other CLK. -/
theorem next_withClk {f : State → State} {s t : State} {k : Clk} (hf : f (s.withClk k) = (f s).withClk k)
    (h : (.next (f s) : Host.Outcome State Fault Refusal) = .next t) :
    (.next (f (s.withClk k)) : Host.Outcome State Fault Refusal) = .next (t.withClk k) := by
  rw [hf, Host.Outcome.next.inj h]

/-- A command that keeps apart from the clock does the same whatever CLK holds (R69, R196). -/
theorem exec_withClk {i : Instr} {s t : State} (hi : apartFromClk i = true) (k : Clk) (h : exec i s = .next t) :
    exec i (s.withClk k) = .next (t.withClk k) := by
  cases i with
  | nop => exact next_withClk (f := respond 0x00#8 codeOk 0#16 []) rfl h
  | rdcsr csr =>
    have hcsr : csr.toNat ≠ 0x07 := by
      intro hcsr
      obtain rfl : csr = 0x07#8 := BitVec.eq_of_toNat_eq hcsr
      cases hi
    exact next_withClk (rdcsrStep_withClk hcsr s k) h
  | wrcsr csr d => exact next_withClk (wrcsrStep_withClk csr d s k) h
  | rsPush xs => exact execRsPush_withClk k h
  | rsPop => exact next_withClk (rsPopStep_withClk s k) h
  | rsReset => exact next_withClk (f := rsResetStep) rfl h
  | fbRd idx => exact next_withClk (fbRdStep_withClk idx s k) h
  | fbWr idx d => exact next_withClk (fbWrStep_withClk idx d s k) h
  | fpProc bp de => exact next_withClk (f := fpProcStep bp de) rfl h
  | fpReset => exact next_withClk (f := fpResetStep) rfl h
  | ckNow | ckLocked | ckJitter | ckFix => cases hi

theorem namesErr_of_apartFromClk {i : Instr} (h : apartFromClk i = true) : namesErr i = false := by
  cases hname : namesErr i with
  | false => rfl
  | true => obtain rfl | ⟨d, rfl⟩ := eq_of_namesErr hname <;> cases h

theorem ne_ckFix_of_apartFromClk {i : Instr} (h : apartFromClk i = true) (epoch : BitVec 32) : i ≠ .ckFix epoch := by
  rintro rfl
  cases h

/-! ### The pulse -/

/-- The configuration and CLK decide what a pulse step makes of CLK and which flags it sets; it does nothing else
(R110, R111). -/
theorem pulseStep_decided_by_clk (c : Config) (k : Clk) : ∃ (k' : Clk) (raised : Err), ∀ s : State, s.cfg = c →
    s.clk = k → pulseStep s = (s.withClk k').withErr (s.err ||| raised) := by
  cases hd : debounced c k with
  | true =>
    refine ⟨k, 0#7, ?_⟩
    rintro s rfl rfl
    rw [pulseStep, if_pos hd, BitVec.or_zero]
    rfl
  | false =>
    have haccepted : ¬ debounced c k = true := Bool.eq_false_iff.mp hd
    cases hs : pulseSaturates c k with
    | true =>
      refine ⟨acceptPulse c k, BitVec.twoPow 7 (errBit .sat), ?_⟩
      rintro s rfl rfl
      rw [pulseStep, if_neg haccepted, if_pos hs]
      rfl
    | false =>
      refine ⟨acceptPulse c k, 0#7, ?_⟩
      rintro s rfl rfl
      rw [pulseStep, if_neg haccepted, if_neg (Bool.eq_false_iff.mp hs), BitVec.or_zero]
      rfl

/-- Settles O59: the command does the same with the pulse's CLK, and with the flags that the pulse set. -/
theorem pulseCommutesWithOtherCommands : Obligations.PulseCommutesWithOtherCommands := by
  intro i s t hi h
  have hdone := performed_of_exec h
  obtain ⟨hcfg, -, -⟩ := hdone.surroundings
  have hclk : t.clk = s.clk := hdone.clk_of_ne_ckFix (ne_ckFix_of_apartFromClk hi)
  obtain ⟨k, raised, hpulse⟩ := pulseStep_decided_by_clk s.cfg s.clk
  obtain ⟨added, hadded, hexec⟩ := flagsNeverDecide i (s.withClk k) (t.withClk k) (s.err ||| raised)
    (namesErr_of_apartFromClk hi) (exec_withClk hi k h)
  have herr : s.err ||| raised ||| added = t.err ||| raised := by
    rw [BitVec.or_assoc, BitVec.or_comm raised, ← BitVec.or_assoc]
    exact congrArg (· ||| raised) hadded.symm
  rw [herr] at hexec
  rw [hpulse s rfl rfl, hpulse t hcfg hclk]
  exact hexec

end Sys2Proof.Machine
end

section
/-!
The words of a command (spec/30_encoding.md R80 to R89): the fields of a command word as numbers, the row that a word
selects (`decodeOp_eq_some_iff`), and the two directions between a command and its words (`decode_eq_ok_iff`,
`accepts_encode`, `encode_assemble`).
-/

namespace Sys2Proof.Machine

/-! ### The fields of a word -/

theorem toNat_opcodeOf (w : Word) : (opcodeOf w).toNat = w.toNat / 2 ^ 24 := by
  rw [opcodeOf, BitVec.extractLsb'_toNat, Nat.shiftRight_eq_div_pow]
  omega

theorem toNat_fieldA (w : Word) : (fieldA w).toNat = w.toNat / 2 ^ 16 % 2 ^ 8 := by
  rw [fieldA, BitVec.extractLsb'_toNat, Nat.shiftRight_eq_div_pow]

theorem toNat_fieldD (w : Word) : (fieldD w).toNat = w.toNat % 2 ^ 16 := by
  rw [fieldD, BitVec.extractLsb'_toNat, Nat.shiftRight_zero]

/-- A word is made of its opcode and its two fields (R80, R82). -/
theorem mkWord_fields (w : Word) : mkWord (opcodeOf w) (fieldA w) (fieldD w) = w := by
  apply BitVec.eq_of_toNat_eq
  rw [mkWord_toNat, toNat_opcodeOf, toNat_fieldA, toNat_fieldD]
  omega

theorem mkWord_inj {opcode opcode' a a' : BitVec 8} {d d' : BitVec 16} :
    mkWord opcode a d = mkWord opcode' a' d' ↔ opcode = opcode' ∧ a = a' ∧ d = d' := by
  refine ⟨fun h => ⟨?_, ?_, ?_⟩, fun ⟨ho, ha, hd⟩ => by rw [ho, ha, hd]⟩
  · simpa using congrArg opcodeOf h
  · simpa using congrArg fieldA h
  · simpa using congrArg fieldD h

/-- Words are masked field by field. -/
theorem mkWord_and (opcode opcode' a a' : BitVec 8) (d d' : BitVec 16) :
    mkWord opcode a d &&& mkWord opcode' a' d' = mkWord (opcode &&& opcode') (a &&& a') (d &&& d') := by
  simp only [mkWord, BitVec.cast_eq]
  exact BitVec.and_append.trans (congrArg (· ++ (d &&& d')) BitVec.and_append)

theorem reservedN_eq_zero_iff (w : Word) : reservedN w = 0#24 ↔ fieldA w = 0#8 ∧ fieldD w = 0#16 := by
  rw [← BitVec.toNat_inj, ← BitVec.toNat_inj, ← BitVec.toNat_inj, toNat_fieldA, toNat_fieldD, reservedN,
    BitVec.extractLsb'_toNat, Nat.shiftRight_zero]
  simp only [BitVec.toNat_ofNat]
  omega

/-- The bits of field `d` from 2 up, masked out and as a number. -/
theorem and_shifted_ones_eq_zero_iff (d : BitVec 16) : d &&& BitVec.allOnes 16 <<< 2 = 0#16 ↔ d.toNat / 4 = 0 := by
  rw [← BitVec.shiftLeft_ushiftRight, ← BitVec.toNat_inj, BitVec.toNat_shiftLeft, BitVec.toNat_ushiftRight,
    Nat.shiftLeft_eq, Nat.shiftRight_eq_div_pow, BitVec.toNat_ofNat]
  omega

theorem reservedP_eq_zero_iff (w : Word) :
    reservedP w = 0#22 ↔ fieldA w = 0#8 ∧ fieldD w &&& BitVec.allOnes 16 <<< 2 = 0#16 := by
  rw [and_shifted_ones_eq_zero_iff, ← BitVec.toNat_inj, ← BitVec.toNat_inj, toNat_fieldA, toNat_fieldD, reservedP,
    BitVec.extractLsb'_toNat, Nat.shiftRight_eq_div_pow]
  simp only [BitVec.toNat_ofNat]
  omega

/-- The number of a word of format P (R84). -/
theorem toNat_mkWordP (opcode : BitVec 8) (bp de : Bool) :
    (mkWordP opcode bp de).toNat = opcode.toNat * 2 ^ 24 + de.toNat * 2 + bp.toNat := by
  rw [mkWordP, BitVec.toNat_cast, BitVec.toNat_append, BitVec.toNat_append, BitVec.toNat_append,
    ← Nat.shiftLeft_add_eq_or_of_lt (BitVec.isLt _), ← Nat.shiftLeft_add_eq_or_of_lt (BitVec.isLt _),
    ← Nat.shiftLeft_add_eq_or_of_lt (BitVec.isLt _)]
  simp only [Nat.shiftLeft_eq, BitVec.toNat_ofBool, BitVec.toNat_ofNat]
  omega

/-- A word by its opcode, the bits that format P reserves, and its two flags (R84). -/
theorem toNat_eq_flags (w : Word) : w.toNat
    = (opcodeOf w).toNat * 2 ^ 24 + (reservedP w).toNat * 4 + (flagDe w).toNat * 2 + (flagBp w).toNat := by
  rw [toNat_opcodeOf, reservedP, BitVec.extractLsb'_toNat, Nat.shiftRight_eq_div_pow, flagDe, flagBp, BitVec.getLsbD,
    BitVec.getLsbD, Nat.toNat_testBit, Nat.toNat_testBit]
  omega

/-! ### The formats -/

/-- The bits of field `a` that a format reserves (R81 to R84). -/
def reservedMaskA (f : Format) : BitVec 8 :=
  match f with
  | .n => BitVec.allOnes 8
  | .x => 0#8
  | .xd => 0#8
  | .l => BitVec.allOnes 8
  | .p => BitVec.allOnes 8

/-- The bits of field `d` that a format reserves (R81 to R84). -/
def reservedMaskD (f : Format) : BitVec 16 :=
  match f with
  | .n => BitVec.allOnes 16
  | .x => BitVec.allOnes 16
  | .xd => 0#16
  | .l => 0#16
  | .p => BitVec.allOnes 16 <<< 2

theorem reservedZero_iff (f : Format) (w : Word) :
    f.reservedZero w = true ↔ fieldA w &&& reservedMaskA f = 0#8 ∧ fieldD w &&& reservedMaskD f = 0#16 := by
  cases f <;> simp only [Format.reservedZero, beq_iff_eq, reservedN_eq_zero_iff, reservedP_eq_zero_iff, reservedMaskA,
    reservedMaskD, BitVec.and_allOnes, BitVec.and_zero, true_and, and_true]

theorem maskWord_eq_mkWord (o : Op) :
    o.maskWord = mkWord (BitVec.allOnes 8) (reservedMaskA o.format) (reservedMaskD o.format) := by
  cases o <;> rfl

theorem matchWord_eq_mkWord (o : Op) : o.matchWord = mkWord o.opcode 0#8 0#16 := by cases o <;> rfl

/-- A word has the opcode of a row, and its format's reserved fields zero, exactly when the table's mask and match say so
(R86). -/
theorem accepts_iff_mask (o : Op) (w : Word) : o.accepts w = true ↔ w &&& o.maskWord = o.matchWord := by
  rw [Op.accepts, Bool.and_eq_true, beq_iff_eq, reservedZero_iff, maskWord_eq_mkWord, matchWord_eq_mkWord]
  conv_rhs => rw [← mkWord_fields w]
  rw [mkWord_and, mkWord_inj, BitVec.and_allOnes]

/-- The word of a format with an opcode and the operands that another word has in its fields (R81 to R84). -/
def formatWord (f : Format) (opcode : BitVec 8) (w : Word) : Word :=
  match f with
  | .n => mkWord opcode 0#8 0#16
  | .x => mkWord opcode (fieldA w) 0#16
  | .xd => mkWord opcode (fieldA w) (fieldD w)
  | .l => mkWord opcode 0#8 (fieldD w)
  | .p => mkWordP opcode (flagBp w) (flagDe w)

/-- A command word holds nothing but its opcode and its operands. -/
theorem formatWord_of_accepts {o : Op} {w : Word} (h : o.accepts w = true) : formatWord o.format o.opcode w = w := by
  rw [Op.accepts, Bool.and_eq_true, beq_iff_eq] at h
  obtain ⟨hopcode, hzero⟩ := h
  have hw := mkWord_fields w
  rw [← hopcode]
  cases hf : o.format with
  | n =>
    rw [hf, Format.reservedZero, beq_iff_eq, reservedN_eq_zero_iff] at hzero
    rwa [hzero.1, hzero.2] at hw
  | x =>
    rw [hf, Format.reservedZero, beq_iff_eq] at hzero
    rwa [hzero] at hw
  | xd => exact hw
  | l =>
    rw [hf, Format.reservedZero, beq_iff_eq] at hzero
    rwa [hzero] at hw
  | p =>
    rw [hf, Format.reservedZero, beq_iff_eq] at hzero
    apply BitVec.eq_of_toNat_eq
    have hreserved : (reservedP w).toNat = 0 := congrArg BitVec.toNat hzero
    rw [formatWord, toNat_mkWordP, toNat_eq_flags w]
    omega

/-! ### The row of a word -/

theorem mem_opAll (o : Op) : o ∈ Op.all := by cases o <;> decide

/-- The opcodes of the rows differ (R86). -/
theorem opcode_injective : Function.Injective Op.opcode := by
  have hfind (o : Op) : Op.all.find? (·.opcode == o.opcode) = some o := by cases o <;> rfl
  intro o o' h
  exact Option.some.inj ((hfind o).symm.trans (h ▸ hfind o'))

theorem decodeOp_eq_some_iff (o : Op) (w : Word) : decodeOp w = some o ↔ o.accepts w = true := by
  refine ⟨fun h => List.find?_some (p := (Op.accepts · w)) h, fun h => ?_⟩
  cases hrow : decodeOp w with
  | none => exact absurd h (List.find?_eq_none.mp hrow o (mem_opAll o))
  | some o' =>
    have h' : o'.accepts w = true := List.find?_some (p := (Op.accepts · w)) hrow
    rw [Op.accepts, Bool.and_eq_true, beq_iff_eq] at h h'
    rw [opcode_injective (h'.1.symm.trans h.1)]

/-- Settles O4: the row is the one whose opcode and reserved fields the word has, and those are mask and match. -/
theorem rowSelectedByMaskAndMatch : Obligations.RowSelectedByMaskAndMatch :=
  fun o w => (decodeOp_eq_some_iff o w).trans (accepts_iff_mask o w)

/-- A word that matches no row of the table is no command's word (R86). -/
theorem decodeOp_eq_none {w : Word} (h : ∀ o : Op, w &&& o.maskWord ≠ o.matchWord) : decodeOp w = none :=
  Option.eq_none_iff_forall_ne_some.mpr fun o ho => h o ((rowSelectedByMaskAndMatch o w).mp ho)

/-! ### The decoder -/

theorem decode_illegal {w : Word} (h : decodeOp w = none) (ws : List Word) :
    decode (w :: ws) = .error (.illegal w) := by rw [decode, h]

/-- What a list of words that decodes to a command is made of: a word of the command's row, its payload, and the words
left over (R86, R89). -/
theorem decode_eq_ok_iff (ws : List Word) (i : Instr) (rest : List Word) : decode ws = .ok (i, rest)
    ↔ ∃ (o : Op) (w : Word) (payload : List Word), o.accepts w = true ∧ payload.length = o.payloadWords w
      ∧ ws = w :: (payload ++ rest) ∧ i = o.assemble w payload := by
  constructor
  · intro h
    cases ws with
    | nil => cases h
    | cons w ws =>
      obtain ⟨-, hd⟩ | ⟨o, hop, ⟨hlen, hd⟩ | ⟨-, hd⟩⟩ := decode_cons_cases w ws <;> rw [hd] at h
      · cases h
      · obtain ⟨rfl, rfl⟩ := Prod.mk.inj (Except.ok.inj h)
        exact ⟨o, w, _, (decodeOp_eq_some_iff o w).mp hop, List.length_take_of_le hlen,
          by rw [List.take_append_drop], rfl⟩
      · cases h
  · rintro ⟨o, w, payload, hacc, hlen, rfl, rfl⟩
    have hroom : payload.length ≤ (payload ++ rest).length := List.length_append ▸ Nat.le_add_right _ _
    simp only [decode, (decodeOp_eq_some_iff o w).mpr hacc, ← hlen, (hasAtLeast_iff _ _).mpr hroom, if_true,
      List.take_left, List.drop_left]

/-! ### From a command to its words -/

/-- The encoding of every well-formed command has as many words as its row takes. -/
theorem encodedLength (i : Instr) : Laws.EncodedLength.Statement i := by
  cases i with
  | rsPush samples => exact Laws.EncodedLength.rsPush samples
  | _ => exact fun _ => ⟨_, _, rfl, rfl⟩

theorem accepts_mkWordP (bp de : Bool) : Op.fpProc.accepts (mkWordP 0x30#8 bp de) = true := by
  revert bp de; decide

/-- The encoder writes a word of the command's row. -/
theorem accepts_encode {i : Instr} {w : Word} {payload : List Word} (h : encode i = w :: payload) :
    i.op.accepts w = true := by
  cases i with
  | fpProc bp de =>
    obtain ⟨rfl, -⟩ := List.cons.inj h
    exact accepts_mkWordP bp de
  | _ =>
    obtain ⟨rfl, -⟩ := List.cons.inj h
    simp [Instr.op, Op.accepts, Op.opcode, Op.format, Format.reservedZero, reservedN_mkWord_zero]

/-- A payload word of RS.PUSH carries its sample (R88). -/
theorem map_payloadSample_mkPayload (samples : List Sample) : (samples.map mkPayload).map payloadSample = samples :=
  Function.LeftInverse.list_map payloadSample_mkPayload samples

/-- The encoder's words carry the command's operands. -/
theorem assemble_encode {i : Instr} {w : Word} {payload : List Word} (h : encode i = w :: payload) :
    i.op.assemble w payload = i := by
  cases i with
  | fpProc bp de =>
    obtain ⟨rfl, -⟩ := List.cons.inj h
    obtain ⟨-, -, hbp, hde⟩ := mkWordP_fields bp de
    simp only [Instr.op, Op.assemble, hbp, hde]
  | rsPush samples =>
    obtain ⟨-, rfl⟩ := List.cons.inj h
    exact congrArg Instr.rsPush (map_payloadSample_mkPayload samples)
  | _ =>
    obtain ⟨rfl, rfl⟩ := List.cons.inj h
    simp [Instr.op, Op.assemble, payloadEpoch]

/-- Settles O2: the encoder's words are made as the decoder asks, and assemble to the command. -/
theorem encodedCommandDecodesToItself : Obligations.EncodedCommandDecodesToItself := by
  intro i rest hwf
  obtain ⟨w, payload, henc, hlen⟩ := encodedLength i hwf
  rw [decode_eq_ok_iff, henc]
  exact ⟨i.op, w, payload, accepts_encode henc, hlen, rfl, (assemble_encode henc).symm⟩

/-! ### From words to their command -/

/-- The payload that the encoder writes where the decoder reads one: the same but for the ignored bits of RS.PUSH's
payload words (R88). -/
def encodedPayload (o : Op) (payload : List Word) : List Word :=
  match o with
  | .rsPush => (payload.map payloadSample).map mkPayload
  | _ => payload

@[simp] theorem length_encodedPayload (o : Op) (payload : List Word) :
    (encodedPayload o payload).length = payload.length := by
  cases o <;> simp [encodedPayload]

@[simp] theorem map_payloadSample_encodedPayload (o : Op) (payload : List Word) :
    (encodedPayload o payload).map payloadSample = payload.map payloadSample := by
  cases o with
  | rsPush => exact map_payloadSample_mkPayload _
  | _ => rfl

/-- Encoding what the decoder assembles from a command's words gives those words, the ignored bits zero. -/
theorem encode_assemble {o : Op} {w : Word} {payload : List Word} (hacc : o.accepts w = true)
    (hlen : payload.length = o.payloadWords w) : encode (o.assemble w payload) = w :: encodedPayload o payload := by
  have hw := formatWord_of_accepts hacc
  cases o with
  | rsPush =>
    have hfield : BitVec.ofNat 16 (payload.map payloadSample).length = fieldD w := by
      rw [List.length_map, hlen]
      exact BitVec.ofNat_toNat _ _
    rw [Op.assemble, encode, hfield]
    exact congrArg (· :: _) hw
  | ckFix =>
    obtain ⟨epoch, rfl⟩ := List.length_eq_one_iff.mp hlen
    exact congrArg (· :: [epoch]) hw
  | _ =>
    obtain rfl := List.eq_nil_of_length_eq_zero hlen
    exact congrArg (· :: []) hw

theorem wellFormed_assemble {o : Op} {w : Word} {payload : List Word} (hlen : payload.length = o.payloadWords w) :
    (o.assemble w payload).WellFormed := by
  cases o with
  | rsPush => exact decide_eq_true ((List.length_map _).trans_le (hlen.trans_le (payloadWords_le .rsPush w)))
  | _ => rfl

theorem encodedPayload_of_not_push {o : Op} {w : Word} {payload : List Word}
    (h : ∀ samples, o.assemble w payload ≠ .rsPush samples) : encodedPayload o payload = payload := by
  cases o with
  | rsPush => exact absurd rfl (h _)
  | _ => rfl

/-- Settles O3: encoding what the decoder assembled gives back the words it took. -/
theorem decodedWordsAreItsEncoding : Obligations.DecodedWordsAreItsEncoding := by
  intro ws i rest h
  obtain ⟨o, w, payload, hacc, hlen, rfl, rfl⟩ := (decode_eq_ok_iff ws i rest).mp h
  have henc := encode_assemble hacc hlen
  refine ⟨wellFormed_assemble hlen, w, payload, rfl, ?_⟩
  rw [henc]
  exact ⟨rfl, by simp, by simp, fun hne => (encodedPayload_of_not_push hne).symm⟩

end Sys2Proof.Machine
end

section
/-!
What follows from the row of a command word alone (spec/30_encoding.md R89, R95, R96, R99), and the command port: a word at
a time, up to the one that completes the command (R80, R90).
-/

namespace Sys2Proof.Machine

/-! ### Written out words and pseudo-instructions -/

/-- Settles O1: the decoder is run on each of the seven. -/
theorem writtenOutWordsDecode : Obligations.WrittenOutWordsDecode :=
  ⟨by decide, by decide, by decide, by decide, by decide, by decide, by decide⟩

theorem clearErr_all (e : Err) : clearErr 0xFFFF#16 e = 0#7 := BitVec.and_zero

/-- Settles O7: the words by running the assembler, the flags by `clearErr_all`. -/
theorem pseudoInstructionsAssemble : Obligations.PseudoInstructionsAssemble := by
  refine ⟨by decide, by decide, fun q => List.append_nil _, fun s => ⟨_, exec_wrcsr_err 0xFFFF#16 s, ?_⟩⟩
  rw [respond_err]
  exact clearErr_all s.err

/-! ### The length of a command -/

theorem commandLength_of_row {o : Op} {w : Word} (h : w &&& o.maskWord = o.matchWord) :
    commandLength w = 1 + o.payloadWords w := by
  rw [commandLength, (rowSelectedByMaskAndMatch o w).mpr h]

/-- Only RS.PUSH and CK.FIX have a payload (R89). -/
theorem payloadWords_eq_zero {o : Op} (hpush : o ≠ .rsPush) (hfix : o ≠ .ckFix) (w : Word) :
    o.payloadWords w = 0 := by
  cases o with
  | rsPush => exact absurd rfl hpush
  | ckFix => exact absurd rfl hfix
  | _ => rfl

/-- Settles O5: the rows of RS.PUSH and of CK.FIX by mask and match; no other row has a payload. -/
theorem lengthFromCommandWordAlone : Obligations.LengthFromCommandWordAlone := by
  intro w
  refine ⟨fun hpush => ?_, fun hfix => ?_, fun hpush hfix => ?_⟩
  · exact (commandLength_of_row (o := .rsPush) hpush).trans (congrArg (1 + ·) (toNat_fieldD w))
  · subst hfix
    exact commandLength_of_row (o := .ckFix) rfl
  · cases hrow : decodeOp w with
    | none => rw [commandLength, hrow]
    | some o =>
      have hmatch := (rowSelectedByMaskAndMatch o w).mp hrow
      rw [commandLength_of_row hmatch, payloadWords_eq_zero]
      · rintro rfl
        exact hpush hmatch
      · rintro rfl
        exact hfix (BitVec.and_allOnes.symm.trans hmatch)

/-! ### Illegal words -/

/-- The opcode of a word that selects a row is the row's. -/
theorem toNat_opcode_of_decodeOp {o : Op} {w : Word} (h : decodeOp w = some o) :
    w.toNat / 2 ^ 24 = o.opcode.toNat := by
  rw [decodeOp_eq_some_iff, Op.accepts, Bool.and_eq_true, beq_iff_eq] at h
  rw [← h.1, toNat_opcodeOf]

/-- Settles O6: none of the fourteen opcodes lies in the five ranges. -/
theorem unusedOpcodesAreIllegal : Obligations.UnusedOpcodesAreIllegal := by
  intro w hrange ws
  refine decode_illegal (Option.eq_none_iff_forall_ne_some.mpr fun o ho => ?_) ws
  rw [toNat_opcode_of_decodeOp ho] at hrange
  revert hrange
  cases o <;> decide

/-! ### A word arrives -/

theorem step_word {s : State} {w : Word} {rest : List Input} (h : s.inputs = .word w :: rest) :
    step s = takeWord w { s with inputs := rest } := by rw [step, h]

theorem takeWord_of_decode_ok {s : State} {w : Word} {i : Instr} {left : List Word}
    (h : decode (s.pending ++ [w]) = .ok (i, left)) : takeWord w s = exec i { s with pending := left } := by
  rw [takeWord, h]

theorem takeWord_of_illegal {s : State} {w c : Word} (h : decode (s.pending ++ [w]) = .error (.illegal c)) :
    takeWord w s = .next (illegalWord c { s with pending := (s.pending ++ [w]).tail }) := by
  rw [takeWord, h]

theorem takeWord_of_incomplete {s : State} {w : Word} (h : decode (s.pending ++ [w]) = .error .incomplete) :
    takeWord w s = .next { s with pending := s.pending ++ [w] } := by
  rw [takeWord, h]

/-- Settles O8: the word completes a command. -/
theorem stepRunsDecodedCommand : Obligations.StepRunsDecodedCommand := by
  intro s w rest i left hin hdec
  rw [step_word hin]
  exact takeWord_of_decode_ok hdec

/-- Settles O10: the word completes no command. -/
theorem incompleteCommandIsPending : Obligations.IncompleteCommandIsPending := by
  intro s w rest hin hdec
  rw [step_word hin]
  exact takeWord_of_incomplete hdec

/-- The number of a status word (R91). -/
theorem statusWord_eq_ofNat (op code : BitVec 8) (val : BitVec 16) : statusWord op code val
    = BitVec.ofNat 32 (op.toNat * 2 ^ 24 + code.toNat * 2 ^ 16 + val.toNat) := by
  rw [statusWord_eq_mkWord, ← mkWord_toNat, BitVec.ofNat_toNat, BitVec.setWidth_eq]

/-- The answer to an illegal word (R95). -/
theorem statusWord_eIll (w : Word) : statusWord (opcodeOf w) (errorCode .eIll) 0#16
    = BitVec.ofNat 32 (w.toNat / 2 ^ 24 * 2 ^ 24 + 0x010000) := by
  have hcode : (errorCode .eIll).toNat * 2 ^ 16 + (0#16).toNat = 0x010000 := by decide
  rw [statusWord_eq_ofNat, toNat_opcodeOf, Nat.add_assoc, hcode]

/-- What an illegal word does (R95). -/
theorem illegalWord_eq (w : Word) (s : State) : illegalWord w s = { s with
    err := s.err ||| 0x04#7
    responses := s.responses ++ [BitVec.ofNat 32 (w.toNat / 2 ^ 24 * 2 ^ 24 + 0x010000)] } := by
  rw [← statusWord_eIll]
  rfl

/-- Settles O11: a word of no row, on a port with nothing pending, is an illegal word. -/
theorem illegalWordIsReported : Obligations.IllegalWordIsReported := by
  intro s w rest hpending hin hrow
  have hdec : decode (s.pending ++ [w]) = .error (.illegal w) := by
    rw [hpending]
    exact decode_illegal (decodeOp_eq_none hrow) []
  have htake := takeWord_of_illegal (s := { s with inputs := rest }) hdec
  rw [step_word hin, htake, illegalWord_eq]
  simp only [hpending, List.nil_append, List.tail_cons]

/-! ### The words of a command arrive -/

/-- The words of a command without some at the end are an incomplete command (R90). -/
theorem decode_incomplete_of_append {ws more : List Word} {i : Instr} (h : decode (ws ++ more) = .ok (i, []))
    (hmore : more ≠ []) : decode ws = .error .incomplete := by
  cases ws with
  | nil => rfl
  | cons w ws =>
    obtain ⟨o, w', payload, hacc, hlen, hws, -⟩ := (decode_eq_ok_iff _ _ _).mp h
    obtain ⟨rfl, hpayload⟩ := List.cons.inj hws
    have hshort : ws.length < o.payloadWords w := by
      have hpos := List.length_pos_iff.mpr hmore
      have hsum := congrArg List.length hpayload
      rw [List.append_eq, List.append_nil, List.length_append, hlen] at hsum
      omega
    have hrow := (decodeOp_eq_some_iff o w).mpr hacc
    have hno : ¬ hasAtLeast (o.payloadWords w) ws = true := mt (hasAtLeast_iff _ _).mp (not_le.mpr hshort)
    simp only [decode, hrow, if_neg hno]

theorem run_succ_of_step {M : Host.Core} {s t : M.State} (h : M.step s = .next t) (k : Nat) :
    M.run (k + 1) s = M.run k t := by
  simp only [Host.Core.run, h]

theorem run_one (M : Host.Core) (s : M.State) : M.run 1 s = M.step s := by
  unfold Host.Core.run
  cases M.step s <;> rfl

/-- The rest of a command's words, delivered one by one to a port that holds those before them. -/
theorem run_delivers {i : Instr} (rest : List Input) : ∀ (more : List Word) (s : State), more ≠ [] →
    decode (s.pending ++ more) = .ok (i, []) → s.inputs = more.map Input.word ++ rest →
      core.run more.length s = exec i { s with inputs := rest, pending := [] }
  | [], _, hne, _, _ => absurd rfl hne
  | [_], s, _, hdec, hin => (run_one core s).trans (stepRunsDecodedCommand s _ rest i [] hin hdec)
  | w :: w' :: more, s, _, hdec, hin => by
    have hsplit : s.pending ++ w :: w' :: more = (s.pending ++ [w]) ++ w' :: more := by simp
    rw [hsplit] at hdec
    have hwait := incompleteCommandIsPending s w _ hin
      (decode_incomplete_of_append hdec (List.cons_ne_nil w' more))
    exact (run_succ_of_step (M := core) hwait _).trans <|
      run_delivers rest (w' :: more) _ (List.cons_ne_nil w' more) hdec rfl

/-- Settles O9: the encoding decodes to the command, and none of its words but the last completes one. -/
theorem deliveredCommandIsPerformedOnce : Obligations.DeliveredCommandIsPerformedOnce := by
  intro i s rest hwf hpending hin
  have hround := encodedCommandDecodesToItself i [] hwf
  rw [List.append_nil] at hround
  have hne : encode i ≠ [] := by
    intro hnil
    rw [hnil] at hround
    cases hround
  have hdec : decode (s.pending ++ encode i) = .ok (i, []) := by rwa [hpending]
  rw [run_delivers rest (encode i) s hne hdec hin, ← hpending]

end Sys2Proof.Machine
end

section
/-!
The response of a command (spec/30_encoding.md R91, R92, R94): `Answers` says once what a response is, and each command is
taken to its response, by way of `respond` and `reportError`.
-/

namespace Sys2Proof.Machine

/-! ### The fields of a status word -/

@[simp] theorem opcodeOf_statusWord (op code : BitVec 8) (val : BitVec 16) : opcodeOf (statusWord op code val) = op := by
  rw [statusWord_eq_mkWord, opcodeOf_mkWord]

@[simp] theorem fieldD_statusWord (op code : BitVec 8) (val : BitVec 16) : fieldD (statusWord op code val) = val := by
  rw [statusWord_eq_mkWord, fieldD_mkWord]

/-- How many data words a response of code 0 has (R94). -/
def okDataWords (op : BitVec 8) : Nat :=
  if op = 0x01#8 then 1 else if op = 0x42#8 then 1 else if op = 0x40#8 then 2 else 0

theorem dataWordsOf_codeOk (op : BitVec 8) (val : BitVec 16) :
    dataWordsOf (statusWord op codeOk val) = okDataWords op := by
  have hop : (statusWord op codeOk val).extractLsb' 24 8 = op := opcodeOf_statusWord op codeOk val
  have hcode : (statusWord op codeOk val).extractLsb' 16 8 = codeOk := fieldA_statusWord op codeOk val
  simp only [dataWordsOf, hop, hcode, if_true, okDataWords]

theorem dataWordsOf_errorCode (op : BitVec 8) (e : CmdError) (val : BitVec 16) :
    dataWordsOf (statusWord op (errorCode e) val) = 0 := by
  have hcode : (statusWord op (errorCode e) val).extractLsb' 16 8 = errorCode e :=
    fieldA_statusWord op (errorCode e) val
  have hne : errorCode e ≠ codeOk := errorCode_ne_zero e
  simp only [dataWordsOf, hcode, if_neg hne]

/-! ### One response for each command -/

/-- After `s`, a row's command has sent one response: a status word with the row's opcode, and the data words it
announces (R91, R94). -/
def Answers (o : Op) (s t : State) : Prop :=
  ∃ (status : Word) (data : List Word), t.responses = s.responses ++ status :: data
    ∧ opcodeOf status = o.opcode ∧ data.length = dataWordsOf status

section Responses

variable {o : Op} {s t u : State}

theorem Answers.of_respond (hsent : u.responses = s.responses) (val : BitVec 16) {data : List Word}
    (hlen : data.length = okDataWords o.opcode) : Answers o s (respond o.opcode codeOk val data u) :=
  ⟨statusWord o.opcode codeOk val, data, by rw [respond_responses, hsent], opcodeOf_statusWord ..,
    hlen.trans (dataWordsOf_codeOk ..).symm⟩

theorem Answers.of_reportError (e : CmdError) : Answers o s (reportError o.opcode e s) :=
  ⟨statusWord o.opcode (errorCode e) 0#16, [], rfl, opcodeOf_statusWord .., (dataWordsOf_errorCode ..).symm⟩

theorem Answers.of_next (hu : Answers o s u) (h : (.next u : Host.Outcome State Fault Refusal) = .next t) :
    Answers o s t := Host.Outcome.next.inj h ▸ hu

end Responses

theorem answers_rdcsrStep (csr : BitVec 8) (s : State) : Answers .rdcsr s (rdcsrStep csr s) := by
  cases hread : csrRead csr s with
  | some v => exact rdcsrStep_of_some hread ▸ .of_respond (o := .rdcsr) rfl 0#16 rfl
  | none => exact rdcsrStep_of_none hread ▸ .of_reportError (o := .rdcsr) .eCsr

theorem answers_wrcsrStep (csr : BitVec 8) (d : BitVec 16) (s : State) : Answers .wrcsr s (wrcsrStep csr d s) := by
  obtain ⟨cal, err, -, hcal⟩ := writeCal_cases d s
  unfold wrcsrStep
  split
  · exact .of_respond (o := .wrcsr) (by rw [hcal]) _ rfl
  · exact .of_respond (o := .wrcsr) rfl _ rfl
  · exact .of_reportError (o := .wrcsr) .eCsr

theorem answers_rsPopStep (s : State) : Answers .rsPop s (rsPopStep s) := by
  simp only [rsPopStep]
  split
  · exact .of_reportError (o := .rsPop) .eUnder
  · exact .of_respond (o := .rsPop) rfl _ rfl

theorem answers_rsResetStep (s : State) : Answers .rsReset s (rsResetStep s) :=
  .of_respond (o := .rsReset) (s := s) rfl _ rfl

theorem answers_fpResetStep (s : State) : Answers .fpReset s (fpResetStep s) :=
  .of_respond (o := .fpReset) (s := s) rfl _ rfl

theorem answers_fbRdStep (idx : BitVec 8) (s : State) : Answers .fbRd s (fbRdStep idx s) := by
  unfold fbRdStep
  split
  · exact .of_respond (o := .fbRd) rfl _ rfl
  · exact .of_reportError (o := .fbRd) .eIdx

theorem answers_fbWrStep (idx : BitVec 8) (d : Sample) (s : State) : Answers .fbWr s (fbWrStep idx d s) := by
  unfold fbWrStep
  split
  · exact .of_respond (o := .fbWr) rfl _ rfl
  · exact .of_reportError (o := .fbWr) .eIdx

theorem answers_ckFixStep (epoch : BitVec 32) (s : State) : Answers .ckFix s (ckFixStep epoch s) := by
  unfold ckFixStep
  split
  · exact .of_respond (o := .ckFix) rfl _ rfl
  · exact .of_respond (o := .ckFix) rfl _ rfl

theorem withPos_responses (s : State) (pos : F) : (s.withPos pos).responses = s.responses := rfl

theorem answers_finishPush (len : Nat) {s u : State} (hsent : u.responses = s.responses) :
    Answers .rsPush s (finishPush len u) := by
  rw [finishPush_eq]
  exact .of_respond (o := .rsPush) ((withPos_responses ..).trans hsent) _ rfl

theorem answers_execRsPush {xs : List Sample} {s t : State} (h : execRsPush xs s = .next t) : Answers .rsPush s t := by
  obtain ⟨-, hfault⟩ | ⟨-, hnext⟩ := execRsPush_cases xs s
  · cases hfault.symm.trans h
  · exact (answers_finishPush xs.length (pushFrom_responses xs 0 s)).of_next (hnext.symm.trans h)

/-- Settles O56: each command ends in `respond` or `reportError` with the opcode of its row. -/
theorem oneResponseForEachCommand : Obligations.OneResponseForEachCommand := by
  intro i s t h
  show Answers i.op s t
  cases i with
  | nop => exact .of_next (.of_respond (o := .nop) rfl _ rfl) h
  | rdcsr csr => exact (answers_rdcsrStep csr s).of_next h
  | wrcsr csr d => exact (answers_wrcsrStep csr d s).of_next h
  | rsPush xs => exact answers_execRsPush h
  | rsPop => exact (answers_rsPopStep s).of_next h
  | rsReset => exact (answers_rsResetStep s).of_next h
  | fbRd idx => exact (answers_fbRdStep idx s).of_next h
  | fbWr idx d => exact (answers_fbWrStep idx d s).of_next h
  | fpProc bp de => exact .of_next (fpProcStep_eq bp de s ▸ .of_respond (o := .fpProc) rfl _ rfl) h
  | fpReset => exact (answers_fpResetStep s).of_next h
  | ckNow => exact .of_next (.of_respond (o := .ckNow) rfl _ rfl) h
  | ckLocked => exact .of_next (.of_respond (o := .ckLocked) rfl _ rfl) h
  | ckJitter => exact .of_next (.of_respond (o := .ckJitter) rfl _ rfl) h
  | ckFix epoch => exact (answers_ckFixStep epoch s).of_next h

/-! ### A failed command -/

/-- A command that answers a next state reported an error and did nothing else, or its status word has code 0. -/
theorem Performed.reported_or_ok {i : Instr} {s t : State} (h : Performed s i t) :
    (∃ op e, t = reportError op e s)
      ∨ ∃ op val data, t.responses = s.responses ++ statusWord op codeOk val :: data := by
  cases h with
  | failed _ op e => exact .inl ⟨op, e, rfl⟩
  | pushed xs val u pos hu =>
    subst hu
    exact .inr ⟨0x10#8, val, [], congrArg (· ++ [statusWord 0x10#8 codeOk val]) (pushFrom_responses xs 0 s)⟩
  | _ => exact .inr ⟨_, _, _, rfl⟩

/-- Settles O57: a status word with a code other than 0 is that of `reportError`, which sets one flag. -/
theorem failedCommandSetsOnlyItsFlag : Obligations.FailedCommandSetsOnlyItsFlag := by
  intro i s t status data h hsent hcode
  obtain ⟨op, e, rfl⟩ | ⟨op, val, data', hok⟩ := (performed_of_exec h).reported_or_ok
  · rw [reportError_responses] at hsent
    obtain ⟨rfl, rfl⟩ := List.cons.inj (List.append_cancel_left hsent)
    exact ⟨fieldD_statusWord .., rfl, e, fieldA_statusWord .., rfl⟩
  · obtain ⟨rfl, -⟩ := List.cons.inj (List.append_cancel_left (hok.symm.trans hsent))
    exact absurd (fieldA_statusWord ..) hcode

end Sys2Proof.Machine
end

section
/-!
The clock (spec/41_clock.md). `pulseStep_of_accepted` and `acceptPulse_eq` say what an accepted pulse does, and
`timestamp_eq` that the Timestamp is SECS and the elapsed microseconds in one count, from which the Timestamp's rise and
its steps follow.
-/

namespace Sys2Proof.Machine

/-! ### The definitions at the constants of R7 -/

/-- `abs` of R9 on the difference of two natural numbers. -/
theorem distance_eq (a b : Nat) : distance a b = ((a : Int) - b).natAbs := by
  rw [distance]
  omega

section AtR7

variable {c : Config} (hc : c.consts = Consts.r7) (k : Clk)
include hc

theorem pulseSeconds_eq (e : Nat) : pulseSeconds c e = max 1 ((e + 500000) / 1000000) := by
  rw [pulseSeconds, hc]
  rfl

/-- The debounce of R110. -/
theorem debounced_iff : debounced c k = true ↔ k.pulseSeen = true ∧ elapsed k < 900000 := by
  simp only [debounced, hc, Consts.r7, Bool.and_eq_true, decide_eq_true_eq]

/-- The stop of R111. -/
theorem pulseSaturates_iff : pulseSaturates c k = true
    ↔ 0xFFFFFFFF < k.secs.toNat + max 1 ((elapsed k + 500000) / 1000000) := by
  rw [pulseSaturates, pulseSeconds_eq hc, decide_eq_true_eq, u32Max]

theorem nowSeconds_eq : nowSeconds c k = min (k.secs.toNat + elapsed k / 1000000) 0xFFFFFFFF := by
  rw [nowSeconds, hc]
  rfl

theorem nowNanoseconds_eq : nowNanoseconds c k = elapsed k % 1000000 * 1000 := by
  rw [nowNanoseconds, hc]
  rfl

/-- Lock (R113). -/
theorem locked_iff : locked c k = true ↔ k.haveFix = true ∧ k.pulseSeen = true ∧ elapsed k ≤ 1100000 := by
  simp only [locked, hc, Consts.r7, Bool.and_eq_true, decide_eq_true_eq, and_assoc]

theorem jitter_eq : jitter c k = min ((k.ival.toNat : Int) - 1000000).natAbs 0xFFFFFFFF := by
  rw [jitter, distance_eq, hc]
  rfl

/-- A fix is kept if the clock is locked and the fix at most 2 seconds away (R115). -/
theorem fixOverwrites_eq_false_iff (epoch : BitVec 32) : fixOverwrites c k epoch = false
    ↔ locked c k = true ∧ ((epoch.toNat : Int) - k.secs.toNat).natAbs ≤ 2 := by
  rw [fixOverwrites, distance_eq, hc, Bool.or_eq_false_iff, Bool.not_eq_false', decide_eq_false_iff_not, not_lt]
  rfl

end AtR7

/-! ### The answers of the clock's commands -/

/-- A response only sends words. -/
theorem respond_eq_sends (op code : BitVec 8) (val : BitVec 16) (data : List Word) (s : State) :
    respond op code val data s = s.sends (statusWord op code val :: data) := rfl

theorem exec_ckNow (s : State) : exec .ckNow s = .next (s.sends [0x40000000#32,
    BitVec.ofNat 32 (nowSeconds s.cfg s.clk), BitVec.ofNat 32 (nowNanoseconds s.cfg s.clk)]) := rfl

theorem exec_ckLocked_of_locked {s : State} (h : locked s.cfg s.clk = true) :
    exec .ckLocked s = .next (s.sends [0x41000001#32]) := by
  show execCkLocked s = _
  rw [execCkLocked, if_pos h]
  rfl

theorem exec_ckLocked_of_not_locked {s : State} (h : ¬ locked s.cfg s.clk = true) :
    exec .ckLocked s = .next (s.sends [0x41000000#32]) := by
  show execCkLocked s = _
  rw [execCkLocked, if_neg h]
  rfl

theorem exec_ckJitter (s : State) :
    exec .ckJitter s = .next (s.sends [0x42000000#32, BitVec.ofNat 32 (jitter s.cfg s.clk)]) := rfl

theorem exec_ckFix_of_overwrites {epoch : BitVec 32} {s : State} (h : fixOverwrites s.cfg s.clk epoch = true) :
    exec (.ckFix epoch) s = .next { s with
      clk := { s.clk with secs := epoch, haveFix := true }, responses := s.responses ++ [0x43000001#32] } :=
  congrArg Host.Outcome.next (if_pos h)

theorem exec_ckFix_of_kept {epoch : BitVec 32} {s : State} (h : fixOverwrites s.cfg s.clk epoch = false) :
    exec (.ckFix epoch) s = .next { s with
      clk := { s.clk with haveFix := true }, responses := s.responses ++ [0x43000000#32] } :=
  congrArg Host.Outcome.next (if_neg (Bool.eq_false_iff.mp h))

/-! ### The pulse step -/

theorem step_pulse {s : State} {rest : List Input} (h : s.inputs = .pulse :: rest) :
    step s = .next (pulseStep { s with inputs := rest }) := by rw [step, h]

theorem pulseStep_of_debounced {s : State} (h : debounced s.cfg s.clk = true) : pulseStep s = s := if_pos h

/-- An accepted pulse with the flag that it sets (R110, R111). -/
theorem pulseStep_of_accepted {s : State} (h : debounced s.cfg s.clk = false) : pulseStep s = { s with
    clk := acceptPulse s.cfg s.clk
    err := if pulseSaturates s.cfg s.clk = true then s.err ||| 0x40#7 else s.err } := by
  rw [pulseStep, if_neg (Bool.eq_false_iff.mp h)]
  split <;> rfl

/-- A sum that stops at the top, as a 32-bit register (R111). -/
theorem ofNat_min_u32Max (n : Nat) :
    BitVec.ofNat 32 (min n u32Max) = if 0xFFFFFFFF < n then 0xFFFFFFFF#32 else BitVec.ofNat 32 n := by
  split
  · next h => rw [u32Max, min_eq_right h.le]
  · next h => rw [u32Max, min_eq_left (not_lt.mp h)]

/-- What an accepted pulse writes, with the constants of R7 (R110, R111). -/
theorem acceptPulse_eq {c : Config} (hc : c.consts = Consts.r7) (k : Clk) : acceptPulse c k = { k with
    secs := if 0xFFFFFFFF < k.secs.toNat + max 1 ((elapsed k + 500000) / 1000000) then 0xFFFFFFFF#32
      else BitVec.ofNat 32 (k.secs.toNat + max 1 ((elapsed k + 500000) / 1000000))
    ival := if k.pulseSeen = true then BitVec.ofNat 64 (elapsed k) else k.ival
    ivalValid := k.pulseSeen || k.ivalValid
    lastp := k.mono
    pulseSeen := true } := by
  rw [acceptPulse, pulseSeconds_eq hc, ofNat_min_u32Max]
  cases k.pulseSeen <;> rfl

/-- Settles O15: the two branches of the debounce. -/
theorem pulseStepAsWritten : Obligations.PulseStepAsWritten := by
  intro s rest hr7 hin e sum
  rw [step_pulse hin]
  have hbounce : debounced s.cfg s.clk = true ↔ s.clk.pulseSeen = true ∧ e < 900000 := debounced_iff hr7 s.clk
  refine ⟨fun hearly => ?_, fun haccepted => ?_⟩
  · exact congrArg Host.Outcome.next (pulseStep_of_debounced (hbounce.mpr hearly))
  · have hnot : debounced s.cfg s.clk = false := Bool.eq_false_iff.mpr (mt hbounce.mp haccepted)
    have hpulse := pulseStep_of_accepted (s := { s with inputs := rest }) hnot
    simp only [pulseSaturates_iff hr7, acceptPulse_eq hr7] at hpulse
    exact congrArg Host.Outcome.next hpulse

/-! ### The Timestamp -/

/-- While the seconds are below their stop, the Timestamp is one count: SECS and the elapsed microseconds (R112). -/
theorem timestamp_eq {c : Config} (hc : c.consts = Consts.r7) {k : Clk}
    (hroom : k.secs.toNat + elapsed k / 1000000 ≤ 0xFFFFFFFF) :
    nowSeconds c k * 1000000000 + nowNanoseconds c k = (k.secs.toNat * 1000000 + elapsed k) * 1000 := by
  rw [nowSeconds_eq hc, nowNanoseconds_eq hc, min_eq_left hroom]
  omega

/-- Settles O20: SECS stays and the elapsed time grows. -/
theorem timestampRisesWithMono : Obligations.TimestampRisesWithMono := by
  intro c k later hc hlastp hlater hroom
  have hgrows : elapsed k < elapsed { k with mono := later } := Nat.sub_lt_sub_right hlastp hlater
  have hroomNow : k.secs.toNat + elapsed k / 1000000 ≤ 0xFFFFFFFF :=
    (Nat.add_le_add_left (Nat.div_le_div_right hgrows.le) _).trans hroom
  rw [timestamp_eq hc hroomNow, timestamp_eq hc hroom]
  exact Nat.mul_lt_mul_of_pos_right (Nat.add_lt_add_left hgrows _) (by decide)

/-- At an accepted pulse the Timestamp is a whole number of seconds: SECS and the nearest whole seconds (R110, R112). -/
theorem timestamp_pulseStep {s : State} (hr7 : s.AtR7) (haccepted : debounced s.cfg s.clk = false)
    (hroom : s.clk.secs.toNat + max 1 ((elapsed s.clk + 500000) / 1000000) ≤ 0xFFFFFFFF) :
    nowSeconds (pulseStep s).cfg (pulseStep s).clk * 1000000000 + nowNanoseconds (pulseStep s).cfg (pulseStep s).clk
      = (s.clk.secs.toNat + max 1 ((elapsed s.clk + 500000) / 1000000)) * 1000000000 := by
  have hclk : (pulseStep s).clk = acceptPulse s.cfg s.clk := congrArg State.clk (pulseStep_of_accepted haccepted)
  have hsecs : (acceptPulse s.cfg s.clk).secs.toNat
      = s.clk.secs.toNat + max 1 ((elapsed s.clk + 500000) / 1000000) := by
    rw [acceptPulse_eq hr7, if_neg (not_lt.mpr hroom), BitVec.toNat_ofNat, Nat.mod_eq_of_lt (Nat.lt_succ_of_le hroom)]
  have hzero : elapsed (acceptPulse s.cfg s.clk) = 0 := Nat.sub_self _
  have hbelow : (acceptPulse s.cfg s.clk).secs.toNat + elapsed (acceptPulse s.cfg s.clk) / 1000000 ≤ 0xFFFFFFFF := by
    rwa [hzero, Nat.zero_div, Nat.add_zero, hsecs]
  rw [pulseStep_cfg, hclk, timestamp_eq hr7 hbelow, hzero, hsecs]
  ring

/-- Settles O21: the whole seconds that the pulse counts are `q` for a small rest `r`, and one more for a large one or
for `q` = 0. -/
theorem timestampAcrossAcceptedPulse : Obligations.TimestampAcrossAcceptedPulse := by
  intro s q r hr7 haccepted helapsed hr hroom stamp
  have hbefore : stamp s = (s.clk.secs.toNat * 1000000 + (1000000 * q + r)) * 1000 := by
    rw [← helapsed]
    exact timestamp_eq hr7 (by omega)
  have hafter (k : Nat) (hk : max 1 ((1000000 * q + r + 500000) / 1000000) = k) (hle : k ≤ q + 1) :
      stamp (pulseStep s) = (s.clk.secs.toNat + k) * 1000000000 := by
    rw [← helapsed] at hk
    subst hk
    exact timestamp_pulseStep hr7 haccepted (by omega)
  refine ⟨fun ⟨hq, hsmall⟩ => ?_, fun hjump => ?_⟩
  · rw [hafter q (by omega) (Nat.le_succ q), hbefore]
    ring
  · rw [hafter (q + 1) (by omega) le_rfl, hbefore]
    omega

/-! ### CK.NOW, CK.LOCKED, CK.JITTER, CK.FIX -/

/-- Settles O16: the answer is the Timestamp, whose nanoseconds are the rest of a whole second. -/
theorem ckNowAnswersTimestamp : Obligations.CkNowAnswersTimestamp := by
  intro s hr7 e
  have hbelow : e % 1000000 * 1000 < 1000000000 := by omega
  refine ⟨?_, (BitVec.toNat_ofNat ..).trans (Nat.mod_eq_of_lt (by omega)), hbelow⟩
  rw [exec_ckNow, nowSeconds_eq hr7, nowNanoseconds_eq hr7]
  rfl

/-- Settles O17: the two outcomes of the lock. -/
theorem ckLockedAnswersLock : Obligations.CkLockedAnswersLock := fun s hr7 =>
  ⟨fun h => exec_ckLocked_of_locked ((locked_iff hr7 s.clk).mpr h),
    fun h => exec_ckLocked_of_not_locked (mt (locked_iff hr7 s.clk).mp h)⟩

/-- Settles O18: the model's distance is the `abs` of an integer difference. -/
theorem ckJitterAnswersDeviation : Obligations.CkJitterAnswersDeviation := by
  intro s hr7
  rw [exec_ckJitter, jitter_eq hr7]

/-- Settles O19: the fix is kept exactly if it does not overwrite. -/
theorem ckFixOverwritesOrKeeps : Obligations.CkFixOverwritesOrKeeps := by
  intro s epoch hr7 kept
  have hkept : fixOverwrites s.cfg s.clk epoch = false ↔ kept := by
    rw [fixOverwrites_eq_false_iff hr7, locked_iff hr7, and_assoc, and_assoc]
    rfl
  exact ⟨fun h => exec_ckFix_of_kept (hkept.mpr h),
    fun h => exec_ckFix_of_overwrites (Bool.eq_true_of_not_eq_false (mt hkept.mp h))⟩

end Sys2Proof.Machine
end

section
/-!
The arithmetic that RS.PUSH meets where it is exact (spec/00_scope.md R10): a number is its sign and its value
(`eq_of_scaled_eq`), so that a sum whose exact value is a finite number is that number with its sign
(`fadd_eq_of_exact`).
-/

namespace Sys2Proof.Machine

/-! ### A number by its sign and its value -/

theorem eq_of_scaled_eq {a b : F} (hneg : a.neg = b.neg) (hscaled : a.scaled = b.scaled) : a = b := by
  have hunits : patternUnits a.mag.val = patternUnits b.mag.val := by
    rw [← units_eq_patternUnits, ← units_eq_patternUnits, ← natAbs_scaled, ← natAbs_scaled, hscaled]
  cases a
  cases b
  exact congrArg₂ F.mk hneg (Fin.ext (patternUnits_strictMono.injective hunits))

/-- The sign of a number that is not zero. -/
theorem neg_eq_of_scaled_ne_zero {a : F} (h : a.scaled ≠ 0) : a.neg = decide (a.scaled < 0) := by
  unfold F.scaled at h ⊢
  cases a.neg with
  | false => exact (decide_eq_false (by simp)).symm
  | true =>
    simp only [if_true] at h ⊢
    exact (decide_eq_true (by omega)).symm

/-- The pattern of spec/95_test_vectors.md determines the number. -/
theorem bits_injective : Function.Injective F.bits := by
  intro a b h
  have hnat := congrArg BitVec.toNat h
  have toNat_bits (c : F) : c.bits.toNat = c.neg.toNat * 2 ^ 31 + c.mag.val := by
    rw [F.bits, BitVec.toNat_cast, BitVec.toNat_append, BitVec.toNat_ofBool, BitVec.toNat_ofNat,
      Nat.mod_eq_of_lt (by omega), ← Nat.shiftLeft_add_eq_or_of_lt (by omega), Nat.shiftLeft_eq]
  rw [toNat_bits, toNat_bits] at hnat
  have hsign : ∀ x y : Bool, x.toNat = y.toNat → x = y := by decide
  exact congrArg₂ F.mk (hsign _ _ (by omega)) (Fin.ext (by omega))

/-! ### Exact sums and a product with zero -/

/-- A sum whose exact value is a finite number: a zero takes the sign of log 13, another number has its own. -/
theorem fadd_eq_of_exact {a b c : F} (hsum : a.scaled + b.scaled = c.scaled)
    (hsign : c.scaled = 0 → c.neg = (a.neg && b.neg)) : fadd a b = c := by
  have hscaled := fadd_exact hsum
  refine eq_of_scaled_eq ?_ hscaled
  by_cases hzero : c.scaled = 0
  · have hfinite : (a.scaled + b.scaled).natAbs ≤ maxUnits := by
      rw [hsum, natAbs_scaled]
      exact units_le_maxUnits c
    rw [(fadd_form a b hfinite).2, hsum, if_pos hzero, hsign hzero]
  · rw [neg_eq_of_scaled_ne_zero hzero, neg_eq_of_scaled_ne_zero (hscaled.trans_ne hzero), hscaled]

theorem fsub_self (a : F) : fsub a a = F.zero :=
  fadd_eq_of_exact (by rw [scaled_fneg, scaled_zero]; omega) fun _ => (Bool.and_not_self a.neg).symm

/-- To take +0 away leaves a number as it is, the zero of either sign too. -/
theorem fsub_zero (a : F) : fsub a F.zero = a :=
  fadd_eq_of_exact (by rw [scaled_fneg, scaled_zero]; omega) fun _ => (Bool.and_true a.neg).symm

theorem i2f_zero : i2f 0 = F.zero := by decide

theorem i2f_add_one {i : Nat} (h : i < 2 ^ 24) : fadd (i2f i) (i2f 1) = i2f (i + 1) := by
  have hnext : (i2f ((i : Int) + 1)).scaled = ((i : Int) + 1) * 2 ^ 149 := scaled_i2f (by omega)
  refine fadd_eq_of_exact ?_ fun hzero => ?_
  · rw [scaled_i2f (by omega), scaled_i2f (by decide), hnext]
    ring
  · omega

theorem scaled_fmul_zero (a : F) : (fmul a F.zero).scaled = 0 := by
  have hunits : F.zero.units = 0 := rfl
  have hround : roundRatio 0 (2 ^ 149) = 0 := roundRatio_exact (k := 0) (by decide)
  obtain ⟨r, hr⟩ : ∃ neg, fmul a F.zero = ⟨neg, 0⟩ := by
    rw [fmul, hunits, Nat.mul_zero, hround]
    exact ⟨_, rfl⟩
  rw [hr]
  cases r <;> rfl

/-- `clip16` does not see the sign of a zero (R11). -/
theorem clip16_congr {a b : F} (h : a.scaled = b.scaled) : clip16 a = clip16 b := by
  simp only [clip16, flt, ftrunc_eq_tdiv, h]

end Sys2Proof.Machine
end

section
/-!
The resampler (spec/42_resampler.md). Two rules carry the statements about RS.PUSH: that it completes
(`exec_rsPush_of_posOk`) and what its end does (`finishPush_eq_of_atR7`). Between them, `pushRuns_pushFrom` says that the
model's bounded loops are R131's, and `pushFrom_of_unit_step` what they do with STEP = 1.
-/

namespace Sys2Proof.Machine

/-! ### The answers, with the constants of R7 -/

theorem frameLen_of_atR7 {s : State} (h : s.AtR7) : s.cfg.consts.frameLen = 160 := congrArg Consts.frameLen h

/-- A status word of code 0 that carries the whole frames in ACC (R134); `base` is the word that carries none. -/
theorem statusWord_framesReady {s : State} (h : s.AtR7) {op : BitVec 8} {base : Nat} (hbase : op.toNat * 2 ^ 24 = base) :
    statusWord op codeOk (framesReady s) = BitVec.ofNat 32 (base + min (s.rsmp.acc.length / 160) 65535) := by
  rw [statusWord_codeOk, hbase, framesReady, frameLen_of_atR7 h, BitVec.toNat_ofNat, Nat.mod_eq_of_lt (by omega)]

/-! ### RS.RESET, RS.POP and the append to ACC -/

/-- Settles O30: the record of RSMP written out. -/
theorem rsResetReachesResamplerOnly : Obligations.RsResetReachesResamplerOnly := fun _ => rfl

/-- The state with the oldest `n` samples of ACC moved into FB (R135). -/
def State.popFrame (s : State) (n : Nat) : State :=
  { s with fb := fbFrom 0 (s.rsmp.acc.take n), rsmp := { s.rsmp with acc := s.rsmp.acc.drop n } }

theorem exec_rsPop_of_under {s : State} (h : s.rsmp.acc.length < s.cfg.consts.frameLen) :
    exec .rsPop s = .next (reportError 0x11#8 .eUnder s) := congrArg Host.Outcome.next (if_pos h)

theorem exec_rsPop_of_frame {s : State} {n : Nat} (hn : s.cfg.consts.frameLen = n) (h : n ≤ s.rsmp.acc.length) :
    exec .rsPop s = .next (respond 0x11#8 codeOk (framesReady (s.popFrame n)) [] (s.popFrame n)) := by
  subst hn
  exact congrArg Host.Outcome.next (if_neg (not_lt.mpr h))

/-- FB after a frame of `n` samples has moved into it (R135). -/
theorem fbRead_fbFrom_take {acc : List Sample} {n a : Nat} (ha : a < n) (hn : n ≤ acc.length) :
    some (fbRead (fbFrom 0 (acc.take n)) a) = acc[a]? := by
  rw [fbRead_fbFrom _ 0 a (Nat.zero_le a), Nat.sub_zero, List.getElem?_take_of_lt ha,
    List.getElem?_eq_getElem (ha.trans_le hn), Option.getD_some]

/-- Settles O29: the two branches of RS.POP at a frame length of 160. -/
theorem rsPopMovesOldestFrame : Obligations.RsPopMovesOldestFrame := by
  intro s hr7
  have hlen := frameLen_of_atR7 hr7
  constructor
  · intro hframe
    refine ⟨fbFrom 0 (s.rsmp.acc.take 160), ?_, fun a ha => fbRead_fbFrom_take ha hframe,
      wf_fbFrom _ (List.length_take_le _ _)⟩
    have hword := statusWord_framesReady (s := s.popFrame 160) hr7 (op := 0x11#8) (base := 0x11000000) rfl
    rw [State.popFrame, List.length_drop, ← State.popFrame] at hword
    rw [exec_rsPop_of_frame hlen hframe, respond, hword]
    rfl
  · intro hunder
    rw [exec_rsPop_of_under (hunder.trans_eq hlen.symm)]
    rfl

theorem accStore_of_room {s : State} (h : s.rsmp.acc.length ≠ s.cfg.par.accCap) (v : Sample) :
    accStore v s = { s with rsmp := { s.rsmp with acc := s.rsmp.acc ++ [v] } } := if_neg h

theorem accStore_of_full {s : State} (h : s.rsmp.acc.length = s.cfg.par.accCap) (v : Sample) :
    accStore v s = { s with
      rsmp := { s.rsmp with acc := [v], ovfCnt := BitVec.ofNat 32 (min (s.rsmp.ovfCnt.toNat + 1) u32Max) }
      err := s.err ||| 0x01#7 } := if_pos h

/-- A 32-bit count that goes up by one and stops at the top (R133). -/
theorem ofNat_min_succ_u32Max (n : BitVec 32) :
    BitVec.ofNat 32 (min (n.toNat + 1) u32Max) = if n = 0xFFFFFFFF#32 then 0xFFFFFFFF#32 else n + 1#32 := by
  rw [ofNat_min_u32Max, BitVec.ofNat_add, BitVec.ofNat_toNat, BitVec.setWidth_eq]
  split
  · next htop => rw [if_pos (by bv_omega)]
  · next hbelow =>
    rw [if_neg (by bv_omega)]

/-- Settles O31: the two branches of `acc_store`. -/
theorem accStoreAppendsOrStartsOver : Obligations.AccStoreAppendsOrStartsOver := by
  intro s v
  refine ⟨fun hroom => accStore_of_room hroom v, fun hfull => ?_⟩
  rw [accStore_of_full hfull, ofNat_min_succ_u32Max]

/-! ### RS.PUSH completes -/

/-- RS.PUSH answers a next state where POS is not negative, and for the empty block (log 8). -/
theorem exec_rsPush_of_posOk {xs : List Sample} {s : State} (h : s.rsmp.PosOk ∨ xs = []) :
    exec (.rsPush xs) s = .next (finishPush xs.length (pushFrom 0 xs s)) := by
  have hends : neverEnds xs s (pushFrom 0 xs s) = false := by
    rw [neverEnds]
    obtain hpos | rfl := h
    · rw [hpos, Bool.false_and, Bool.false_and]
    · rw [List.isEmpty_nil, Bool.not_true, Bool.and_false, Bool.false_and]
  exact if_neg (Bool.eq_false_iff.mp hends)

/-- The end of a push with the constants of R7 (R131, R134). POS has a name of its own, so that no definitional check
takes it apart. -/
theorem finishPush_eq_of_atR7 {s : State} (h : s.AtR7) {len : Nat} {pos : F} (hpos : fsub s.rsmp.pos (i2f len) = pos) :
    finishPush len s = { s with
      rsmp := { s.rsmp with pos := pos }
      responses := s.responses ++ [BitVec.ofNat 32 (0x10000000 + min (s.rsmp.acc.length / 160) 65535)] } := by
  rw [finishPush_eq, hpos, respond, statusWord_framesReady h (base := 0x10000000) rfl]
  rfl

/-- Settles O33: the loop has no pass, and POS less +0 is POS. -/
theorem emptyPushChangesNothing : Obligations.EmptyPushChangesNothing := by
  intro s hr7
  have hpos : fsub s.rsmp.pos (i2f ([] : List Sample).length) = s.rsmp.pos := by
    rw [List.length_nil, Nat.cast_zero, i2f_zero, fsub_zero]
  rw [exec_rsPush_of_posOk (.inr rfl), pushFrom, finishPush_eq_of_atR7 hr7 hpos]
  rfl

/-! ### RS.PUSH as the two loops of R131 -/

/-- The model's inner loop with enough passes is the while loop of R131, run until its condition is false. -/
theorem loopRuns_interpolate {i : Nat} (cur : F) (hi : i < 65536) {n : Nat} {s : State} (h0 : 0 ≤ s.rsmp.pos.scaled)
    (hn : ((i + 1 : Nat) : Int) * 2 ^ 149 ≤ s.rsmp.pos.scaled + n * 2 ^ 142) :
    LoopRuns i cur s (interpolate n i cur s) := by
  have hnext : (i2f ((i : Int) + 1)).scaled = ((i + 1 : Nat) : Int) * 2 ^ 149 := scaled_i2f (by omega)
  induction n generalizing s with
  | zero =>
    refine .done (flt_eq_false.mpr ?_)
    rw [hnext]
    omega
  | succ n ih =>
    rw [interpolate]
    split
    · next hlt =>
      have hbelow := flt_eq_true.mp hlt
      rw [hnext] at hbelow
      have hadv := pos_advances (c := s.cfg) h0 (by omega)
      refine LoopRuns_interpolateOnce hlt (ih ?_ ?_)
      all_goals
        rw [interpolateOnce_pos]
        omega
    · next hge => exact .done (Bool.eq_false_iff.mpr hge)

/-- The model's outer loop is the one of R131. -/
theorem pushRuns_pushFrom {xs : List Sample} {i : Nat} {s : State} (hlen : i + xs.length ≤ 65536)
    (h0 : 0 ≤ s.rsmp.pos.scaled) : PushRuns i xs s (pushFrom i xs s) := by
  induction xs generalizing i s with
  | nil => exact .done
  | cons x xs ih =>
    rw [List.length_cons] at hlen
    have hi : i < 65536 := by omega
    have hreached := pushSample_pos hi x h0
    obtain ⟨cur, hcur, hpush⟩ := pushSample_eq i x s
    have hloop := loopRuns_interpolate (s := s.withLp cur) cur hi h0 (passBound_enough i h0)
    have hrest := ih (i := i + 1) (by omega) (s := pushSample i x s) (by omega)
    rw [pushFrom]
    rw [hpush] at hrest ⊢
    exact .sample (hcur.trans (antiAlias_eq_lowPassValue ..)) hloop hrest

/-- Settles O34: the state is the one that the model's loops reach. -/
theorem rsPushRunsTheWhileLoops : Obligations.RsPushRunsTheWhileLoops := by
  intro s samples hr7 hpos hlen
  refine ⟨pushFrom 0 samples s, pushRuns_pushFrom (by omega) ((posOk_iff _).mp hpos), ?_⟩
  rw [exec_rsPush_of_posOk (.inl hpos), finishPush_eq_of_atR7 (by rwa [State.AtR7, pushFrom_cfg]) rfl]

/-! ### What RS.PUSH reaches -/

/-- From `s` to `t` no flag is lost and none is set but OVF, and the overflow count has not fallen (R29, R133). -/
def OverflowOnly (s t : State) : Prop :=
  (t.err = s.err ∨ t.err = s.err ||| 0x01#7) ∧ s.rsmp.ovfCnt.toNat ≤ t.rsmp.ovfCnt.toNat

theorem OverflowOnly.refl (s : State) : OverflowOnly s s := ⟨.inl rfl, le_rfl⟩

theorem OverflowOnly.accStore {s t : State} (h : OverflowOnly s t) (v : Sample) : OverflowOnly s (accStore v t) := by
  obtain ⟨herr, hcnt⟩ := h
  by_cases hfull : t.rsmp.acc.length = t.cfg.par.accCap
  · rw [accStore_of_full hfull]
    refine ⟨.inr ?_, hcnt.trans ?_⟩
    · obtain herr | herr := herr <;> rw [herr]
      rw [BitVec.or_assoc, BitVec.or_self]
    · rw [BitVec.toNat_ofNat, u32Max]
      omega
  · rw [accStore_of_room hfull]
    exact ⟨herr, hcnt⟩

theorem OverflowOnly.pushSample {s t : State} (h : OverflowOnly s t) (i : Nat) (x : Sample) :
    OverflowOnly s (pushSample i x t) := by
  obtain ⟨cur, -, hpush⟩ := pushSample_eq i x t
  rw [hpush]
  refine interpolate_keeps (P := OverflowOnly s) i cur (fun u hu => ?_) _ (t.withLp cur) h
  obtain ⟨v, pos, -, -, hpass⟩ := interpolateOnce_eq i cur u
  rw [hpass]
  exact hu.accStore v

theorem overflowOnly_pushFrom (xs : List Sample) (i : Nat) (s : State) : OverflowOnly s (pushFrom i xs s) :=
  pushFrom_keeps (P := OverflowOnly s) (fun i x _ h => h.pushSample i x) xs i s (.refl s)

/-- LP after a push is R130's filter run over the samples in order. -/
theorem pushFrom_lp (xs : List Sample) (i : Nat) (s : State) :
    (pushFrom i xs s).rsmp.lp = xs.foldl (lowPassValue s.cfg.par.rsAlpha) s.rsmp.lp := by
  induction xs generalizing i s with
  | nil => rfl
  | cons x xs ih => rw [pushFrom, ih, pushSample_cfg, pushSample_lp, antiAlias_eq_lowPassValue, List.foldl_cons]

/-- PREV after a push is the last filtered value (R131). -/
theorem pushFrom_prev (xs : List Sample) (i : Nat) (s : State) :
    (pushFrom i xs s).rsmp.prev = if xs = [] then s.rsmp.prev else (pushFrom i xs s).rsmp.lp := by
  cases xs with
  | nil => rfl
  | cons x xs =>
    have hsample (i : Nat) (x : Sample) (u : State) : (pushSample i x u).rsmp.prev = (pushSample i x u).rsmp.lp :=
      (pushSample_prev i x u).trans (pushSample_lp i x u).symm
    rw [if_neg (List.cons_ne_nil x xs)]
    exact pushFrom_keeps (P := fun u => u.rsmp.prev = u.rsmp.lp) (fun i x u _ => hsample i x u) xs (i + 1) _
      (hsample i x s)

/-- Settles O32: the rules about the loops, read off the end of the push. -/
theorem rsPushCompletesWithinResampler : Obligations.RsPushCompletesWithinResampler := by
  intro s samples hr7 hpos
  obtain ⟨pos, hend⟩ : ∃ pos, fsub (pushFrom 0 samples s).rsmp.pos (i2f samples.length) = pos := ⟨_, rfl⟩
  obtain ⟨herr, hcnt⟩ := overflowOnly_pushFrom samples 0 s
  rw [exec_rsPush_of_posOk (.inl hpos), finishPush_eq_of_atR7 (by rwa [State.AtR7, pushFrom_cfg]) hend]
  exact ⟨_, rfl, pushFrom_cfg .., pushFrom_clk .., pushFrom_filt .., pushFrom_fb .., pushFrom_pending ..,
    pushFrom_inputs .., herr, hcnt, pushFrom_lp .., pushFrom_prev .., congrArg (· ++ _) (pushFrom_responses ..)⟩

/-! ### STEP = 1 -/

/-- The output at input sample `i`, where POS is `i`, is PREV, but for the sign of a zero (R131). -/
theorem scaled_interpolated_at_sample (prev cur : F) (i : Nat) :
    (interpolated prev cur (i2f i) i).scaled = prev.scaled := by
  rw [interpolated, fsub_self]
  exact fadd_exact (by rw [scaled_fmul_zero, add_zero])

/-- With STEP = 1 and POS at input sample `i`, the inner loop makes one pass (R131). -/
theorem interpolate_of_unit_step {i n : Nat} {s : State} (hi : i < 65536) (hstep : s.cfg.par.step = i2f 1)
    (hpos : s.rsmp.pos = i2f i) (cur : F) : interpolate (n + 1) i cur s = interpolateOnce i cur s := by
  have hnext : (interpolateOnce i cur s).rsmp.pos = i2f (i + 1) := by
    rw [interpolateOnce_pos, hpos, hstep, i2f_add_one (by omega)]
  have hbelow : flt (i2f i) (i2f (i + 1)) = true := by
    rw [flt_eq_true, scaled_i2f (by omega), scaled_i2f (by omega)]
    omega
  have hends : flt (i2f ((i : Int) + 1)) (i2f (i + 1)) = false := flt_eq_false.mpr le_rfl
  rw [interpolate, hpos, if_pos hbelow]
  cases n with
  | zero => rfl
  | succ n => rw [interpolate, hnext, if_neg (Bool.eq_false_iff.mp hends)]

/-- The state with one output of PREV appended to ACC, another filtered value and another POS (R131). -/
def State.afterOneOutput (s : State) (cur pos : F) : State :=
  { s with rsmp := { s.rsmp with lp := cur, prev := cur, pos := pos, acc := s.rsmp.acc ++ [clip16 s.rsmp.prev] } }

@[simp] theorem afterOneOutput_cfg (s : State) (cur pos : F) : (s.afterOneOutput cur pos).cfg = s.cfg := rfl
@[simp] theorem afterOneOutput_err (s : State) (cur pos : F) : (s.afterOneOutput cur pos).err = s.err := rfl
@[simp] theorem afterOneOutput_lp (s : State) (cur pos : F) : (s.afterOneOutput cur pos).rsmp.lp = cur := rfl
@[simp] theorem afterOneOutput_prev (s : State) (cur pos : F) : (s.afterOneOutput cur pos).rsmp.prev = cur := rfl
@[simp] theorem afterOneOutput_pos (s : State) (cur pos : F) : (s.afterOneOutput cur pos).rsmp.pos = pos := rfl
@[simp] theorem afterOneOutput_acc (s : State) (cur pos : F) :
    (s.afterOneOutput cur pos).rsmp.acc = s.rsmp.acc ++ [clip16 s.rsmp.prev] := rfl
@[simp] theorem afterOneOutput_ovfCnt (s : State) (cur pos : F) :
    (s.afterOneOutput cur pos).rsmp.ovfCnt = s.rsmp.ovfCnt := rfl

/-- The work for input sample `i` with STEP = 1 and room in ACC: one output, the clipped PREV (R131). -/
theorem pushSample_of_unit_step {i : Nat} {s : State} (hi : i < 65536) (hstep : s.cfg.par.step = i2f 1)
    (hpos : s.rsmp.pos = i2f i) (hroom : s.rsmp.acc.length ≠ s.cfg.par.accCap) (x : Sample) : ∃ cur pos,
    cur = lowPassValue s.cfg.par.rsAlpha s.rsmp.lp x ∧ pos = i2f (i + 1 : Nat)
      ∧ pushSample i x s = s.afterOneOutput cur pos := by
  obtain ⟨cur, hcur, hpush⟩ := pushSample_eq i x s
  obtain ⟨n, hn⟩ : ∃ n, passBound i s.rsmp.pos = n + 1 := by
    have hscaled : s.rsmp.pos.scaled = (i : Int) * 2 ^ 149 := by rw [hpos, scaled_i2f (by omega)]
    have henough := passBound_enough i (pos := s.rsmp.pos) (by omega)
    exact Nat.exists_eq_succ_of_ne_zero fun hzero => by
      rw [hzero] at henough
      omega
  obtain ⟨v, pos, hv, hnext, hpass⟩ := interpolateOnce_eq i cur (s.withLp cur)
  have hclip : v = clip16 s.rsmp.prev := by
    rw [hv]
    refine clip16_congr ?_
    show (interpolated s.rsmp.prev cur s.rsmp.pos i).scaled = _
    rw [hpos, scaled_interpolated_at_sample]
  have hposnext : pos = i2f (i + 1 : Nat) := by
    rw [hnext, accStore_pos, accStore_cfg]
    show fadd s.rsmp.pos s.cfg.par.step = _
    rw [hpos, hstep, i2f_add_one (by omega), Nat.cast_succ]
  refine ⟨cur, pos, hcur.trans (antiAlias_eq_lowPassValue ..), hposnext, ?_⟩
  rw [hpush, hn, interpolate_of_unit_step (s := s.withLp cur) hi hstep hpos, hpass, hclip,
    accStore_of_room (s := s.withLp cur) hroom]
  rfl

/-- A block pushed with STEP = 1 from POS at input sample `i`, with room in ACC (R131, R132). -/
theorem pushFrom_of_unit_step {xs : List Sample} {i : Nat} {s : State} (hlen : i + xs.length ≤ 65536)
    (hstep : s.cfg.par.step = i2f 1) (hpos : s.rsmp.pos = i2f i)
    (hroom : s.rsmp.acc.length + xs.length ≤ s.cfg.par.accCap) :
    (pushFrom i xs s).rsmp.pos = i2f (i + xs.length : Nat) ∧ (pushFrom i xs s).err = s.err
      ∧ (pushFrom i xs s).rsmp.ovfCnt = s.rsmp.ovfCnt
      ∧ (pushFrom i xs s).rsmp.acc = s.rsmp.acc
          ++ ((s.rsmp.prev :: lowPassOutputs s.cfg s.rsmp.lp xs).take xs.length).map clip16 := by
  induction xs generalizing i s with
  | nil => exact ⟨hpos, rfl, rfl, (List.append_nil _).symm⟩
  | cons x xs ih =>
    rw [List.length_cons] at hlen hroom
    obtain ⟨cur, pos, hcur, hnext, hsample⟩ := pushSample_of_unit_step (by omega) hstep hpos (by omega) x
    have hrest := ih (i := i + 1) (s := s.afterOneOutput cur pos) (by omega) hstep hnext (by
      simp only [afterOneOutput_acc, afterOneOutput_cfg, List.length_append, List.length_singleton]
      omega)
    simp only [afterOneOutput_cfg, afterOneOutput_err, afterOneOutput_lp, afterOneOutput_prev, afterOneOutput_acc,
      afterOneOutput_ovfCnt, List.append_assoc, List.singleton_append] at hrest
    rwa [pushFrom, hsample, lowPassOutputs, ← hcur, List.length_cons, List.take_succ_cons, List.map_cons,
      ← Nat.add_assoc, Nat.add_right_comm]

/-- Settles O35: POS is at input sample 0 before the push, and at the block's end before POS is reduced. -/
theorem unitStepDelaysByOneSample : Obligations.UnitStepDelaysByOneSample := by
  intro s samples hbits hpos hlen hroom
  have hstep : s.cfg.par.step = i2f 1 := bits_injective (hbits.trans (by decide))
  have hposOk : s.rsmp.PosOk := by rw [posOk_iff, hpos, scaled_zero]
  obtain ⟨hend, herr, hcnt, hacc⟩ := pushFrom_of_unit_step (xs := samples) (i := 0) (by omega) hstep
    (hpos.trans i2f_zero.symm) hroom
  have hback : fsub (pushFrom 0 samples s).rsmp.pos (i2f samples.length) = F.zero := by
    rw [hend, Nat.zero_add, fsub_self]
  rw [exec_rsPush_of_posOk (.inl hposOk), finishPush_eq, hback]
  exact ⟨_, rfl, rfl, herr, hcnt, hacc⟩

end Sys2Proof.Machine
end

section
/-!
The filter chain (spec/43_filter_chain.md). Below the statements stands what each stage does to a run of samples: the
FIR primitive answers R151's tap sums and leaves the newest samples in its delay line (`firRun_out`, `firRun_line`), the
de-emphasis recursion makes each output of the one before (`deEmphRun_out`), no stage looks ahead (`audioOut_take`), and
zeros stay zeros (`allZero_firRun`, `allZero_deEmphRun`). `procResult_eq` puts the stages together, once for every field that FP.PROC writes.
-/

namespace Sys2Proof.Machine

/-! ### The FIR primitive (R151) -/

theorem take_append_take {α : Type} (k : Nat) (as bs : List α) : (as ++ bs.take k).take k = (as ++ bs).take k := by
  rw [List.take_append, List.take_append, List.take_take, Nat.min_eq_left (Nat.sub_le _ _)]

/-- The delay line that a run leaves is the newest samples, the newest first, before what it held. -/
theorem firRun_line {taps : List F} (xs : List F) {z : List F} (h : z.length ≤ taps.length ∨ xs ≠ []) :
    (firRun taps z xs).2 = (xs.reverse ++ z).take taps.length := by
  induction xs generalizing z with
  | nil => exact (List.take_of_length_le (h.resolve_right fun hne => hne rfl)).symm
  | cons x xs ih =>
    have hrest := ih (z := firShift taps z x) (.inl (List.length_take_le _ _))
    rw [firShift, take_append_take] at hrest
    rw [List.reverse_cons, List.append_assoc, List.singleton_append, ← hrest]
    rfl

theorem length_firShift {taps z : List F} (h : z.length = taps.length) (x : F) :
    (firShift taps z x).length = taps.length := by
  rw [firShift, List.length_take, List.length_cons, h, Nat.min_eq_left (Nat.le_succ _)]

/-- The sum over a delay line of its proper length, by the places of the line. -/
theorem firSum_eq_foldl_range {taps z : List F} (h : z.length = taps.length) : firSum taps z
    = (List.range taps.length).foldl (fun a k => fadd a (fmul (taps.getD k F.zero) (z.getD k F.zero))) F.zero := by
  have hzip : taps.zip z = (List.range taps.length).map fun k => (taps.getD k F.zero, z.getD k F.zero) :=
    List.ext_getElem (by simp [h]) fun k hk _ => by
      rw [List.length_zip, h, Nat.min_self] at hk
      simp [hk, h]
  rw [firSum, hzip, List.foldl_map]

/-- The delay line with the first sample of a run shifted in is the input of output 0. -/
theorem getD_firShift {taps : List F} {k : Nat} (hk : k < taps.length) (z : List F) (x : F) (xs : List F) :
    (firShift taps z x).getD k F.zero = firInput z (x :: xs) 0 k := by
  rw [firShift, List.getD_eq_getElem?_getD, List.getElem?_take_of_lt hk]
  cases k <;> rfl

/-- With its first sample shifted in, the rest of a run sees the inputs that the whole run sees one output later. -/
theorem firInput_firShift {taps : List F} {k : Nat} (hk : k < taps.length) (z : List F) (x : F) (xs : List F)
    (n : Nat) : firInput (firShift taps z x) xs n k = firInput z (x :: xs) (n + 1) k := by
  rw [firInput, firInput]
  by_cases hrun : k ≤ n
  · rw [if_pos hrun, if_pos (by omega), Nat.succ_sub hrun, List.getD_cons_succ]
  · rw [if_neg hrun, firShift, List.getD_eq_getElem?_getD, List.getElem?_take_of_lt (by omega)]
    by_cases hfirst : k = n + 1
    · rw [if_pos hfirst.le, hfirst, Nat.sub_self, Nat.add_sub_cancel_left]
      rfl
    · obtain ⟨j, rfl⟩ : ∃ j, k = n + 1 + 1 + j := Nat.exists_eq_add_of_le (by omega)
      have hheld : n + 1 + 1 + j - n - 1 = j + 1 := by omega
      have hheld' : n + 1 + 1 + j - (n + 1) - 1 = j := by omega
      rw [if_neg (by omega), hheld, hheld', List.getElem?_cons_succ, ← List.getD_eq_getElem?_getD]

theorem firSum_firShift {taps z : List F} (h : z.length = taps.length) (x : F) (xs : List F) :
    firSum taps (firShift taps z x) = firOutput taps z (x :: xs) 0 :=
  (firSum_eq_foldl_range (length_firShift h x)).trans
    (List.foldl_ext _ _ _ fun _ _ hk => by rw [getD_firShift (List.mem_range.mp hk)])

theorem firOutput_firShift (taps z : List F) (x : F) (xs : List F) (n : Nat) :
    firOutput taps (firShift taps z x) xs n = firOutput taps z (x :: xs) (n + 1) :=
  List.foldl_ext _ _ _ fun _ _ hk => by rw [firInput_firShift (List.mem_range.mp hk)]

/-- The outputs of a run are R151's sums. -/
theorem firRun_out {taps : List F} (xs : List F) {z : List F} (h : z.length = taps.length) :
    (firRun taps z xs).1 = (List.range xs.length).map (firOutput taps z xs) := by
  induction xs generalizing z with
  | nil => rfl
  | cons x xs ih =>
    have hrest : (List.range xs.length).map (firOutput taps z (x :: xs) ∘ Nat.succ)
        = (firRun taps (firShift taps z x) xs).1 := by
      rw [ih (length_firShift h x)]
      exact List.map_congr_left fun n _ => (firOutput_firShift taps z x xs n).symm
    rw [List.length_cons, List.range_succ_eq_map, List.map_cons, List.map_map, ← firSum_firShift h, hrest]
    rfl

/-- Settles O41: the outputs and the delay line, each by induction on the run. -/
theorem firAnswersTapSums : Obligations.FirAnswersTapSums :=
  fun _ _ xs h => ⟨firRun_out xs h, firRun_line xs (.inl h.le)⟩

/-- The FIR primitive does not look ahead. -/
theorem firRun_take (taps : List F) (xs z : List F) (k : Nat) :
    (firRun taps z (xs.take k)).1 = (firRun taps z xs).1.take k := by
  induction xs generalizing z k with
  | nil => rw [List.take_nil, firRun, List.take_nil]
  | cons x xs ih =>
    cases k with
    | zero => rfl
    | succ k => exact congrArg (firSum taps (firShift taps z x) :: ·) (ih _ k)

/-! ### The de-emphasis recursion (R154) -/

/-- The filter of R154: the output for a sample and the output before it. -/
def deEmphValue (c : Config) (prev v : F) : F := fadd (fmul c.deAlpha v) (fmul (deBeta c) prev)

theorem deEmphRun_cons (c : Config) (dey v : F) (vs : List F) : deEmphRun c dey (v :: vs)
    = (deEmphValue c dey v :: (deEmphRun c (deEmphValue c dey v) vs).1, (deEmphRun c (deEmphValue c dey v) vs).2) := rfl

/-- Each output is made of its sample and the value before it; DEY stands before the first. -/
theorem deEmphRun_out (c : Config) (vs : List F) (dey : F) {n : Nat} (h : n < vs.length) :
    (deEmphRun c dey vs).1.getD n F.zero
      = deEmphValue c ((dey :: (deEmphRun c dey vs).1).getD n F.zero) (vs.getD n F.zero) := by
  induction vs generalizing dey n with
  | nil => exact absurd h (Nat.not_lt_zero n)
  | cons v vs ih =>
    cases n with
    | zero => simp only [deEmphRun_cons, List.getD_cons_zero]
    | succ n =>
      simp only [deEmphRun_cons, List.getD_cons_succ]
      exact ih _ (Nat.lt_of_succ_lt_succ h)

/-- The DEY left is the last value: the last output, or DEY itself where there is no sample. -/
theorem deEmphRun_dey (c : Config) (vs : List F) (dey : F) :
    (deEmphRun c dey vs).2 = (dey :: (deEmphRun c dey vs).1).getD vs.length F.zero := by
  induction vs generalizing dey with
  | nil => rfl
  | cons v vs ih =>
    simp only [deEmphRun_cons, List.length_cons, List.getD_cons_succ]
    exact ih _

/-- The de-emphasis does not look ahead. -/
theorem deEmphRun_take (c : Config) (vs : List F) (dey : F) (k : Nat) :
    (deEmphRun c dey (vs.take k)).1 = (deEmphRun c dey vs).1.take k := by
  induction vs generalizing dey k with
  | nil => rw [List.take_nil, deEmphRun, List.take_nil]
  | cons v vs ih =>
    cases k with
    | zero => rfl
    | succ k => exact congrArg (deEmphValue c dey v :: ·) (ih _ k)

/-! ### FP.PROC by its stages -/

/-- The samples after the band-pass stage (R153, R156). -/
def voiceOut (c : Config) (bp : Bool) (u : Filt) (xs : List F) : List F :=
  if bp then (firRun c.par.bpTaps u.bpz xs).1 else xs

/-- The samples after both stages of the audio path (R153, R154, R156). -/
def audioOut (c : Config) (bp de : Bool) (u : Filt) (xs : List F) : List F :=
  if de then (deEmphRun c u.dey (voiceOut c bp u xs)).1 else voiceOut c bp u xs

/-- The outputs of the RSSI filter (R152). -/
def rssiOut (c : Config) (u : Filt) (xs : List F) : List F := (firRun c.par.hpTaps u.hpz xs).1

/-- The samples that FP.PROC leaves and each field of FILT after it (R150, R152 to R156). -/
theorem procResult_eq (bp de : Bool) (s : State) : procResult bp de s
    = (audioOut s.cfg bp de s.filt (entryFrame s), {
        hpz := (firRun s.cfg.par.hpTaps s.filt.hpz (entryFrame s)).2
        bpz := if bp then (firRun s.cfg.par.bpTaps s.filt.bpz (entryFrame s)).2 else s.filt.bpz
        dey := if de then (deEmphRun s.cfg s.filt.dey (voiceOut s.cfg bp s.filt (entryFrame s))).2 else s.filt.dey
        rssi := rssiByte s.cfg s.filt.cal (rssiOut s.cfg s.filt (entryFrame s))
        noise := 255#8 - rssiByte s.cfg s.filt.cal (rssiOut s.cfg s.filt (entryFrame s))
        cal := s.filt.cal }) := by
  cases bp <;> cases de <;> rfl

/-- FP.PROC always answers a next state, with the frame and FILT of its stages. -/
theorem exec_fpProc (bp de : Bool) (s : State) : exec (.fpProc bp de) s = .next
    (respond 0x30#8 codeOk ((procResult bp de s).2.rssi.setWidth 16) [] { s with
      fb := fbFrom 0 ((audioOut s.cfg bp de s.filt (entryFrame s)).map clip16), filt := (procResult bp de s).2 }) := by
  rw [exec, execFpProc, fpProcStep_eq, procResult_eq]

theorem length_entryFrame (s : State) : (entryFrame s).length = s.cfg.consts.frameLen := by
  rw [entryFrame, fbFrame, List.length_map, List.length_map, List.length_range]

theorem length_voiceOut (c : Config) (bp : Bool) (u : Filt) (xs : List F) :
    (voiceOut c bp u xs).length = xs.length := by
  cases bp with
  | false => rfl
  | true => exact length_firRun_out _ xs _

theorem length_audioOut (c : Config) (bp de : Bool) (u : Filt) (xs : List F) :
    (audioOut c bp de u xs).length = xs.length := by
  cases de with
  | false => exact length_voiceOut c bp u xs
  | true => exact (length_deEmphRun c _ _).trans (length_voiceOut c bp u xs)

/-- The entry conversion with the constants of R7, as the statements write it (R150). -/
theorem entryFrame_of_atR7 {s : State} (h : s.AtR7) :
    entryFrame s = (List.range 160).map fun n => i2f (fbRead s.fb n).toInt := by
  rw [entryFrame, fbFrame, frameLen_of_atR7 h, List.map_map]
  rfl

/-- HPZ after a frame (R152): a frame is not empty, so that the line holds no more than its taps from then on. -/
theorem hpz_after_frame {s : State} (h : s.AtR7) : (firRun s.cfg.par.hpTaps s.filt.hpz (entryFrame s)).2
    = (((List.range 160).map fun n => i2f (fbRead s.fb n).toInt).reverse ++ s.filt.hpz).take
        s.cfg.par.hpTaps.length := by
  rw [← entryFrame_of_atR7 h]
  refine firRun_line _ (.inr fun hempty => ?_)
  have hlen := length_entryFrame s
  rw [hempty, frameLen_of_atR7 h] at hlen
  cases hlen

/-! ### FP.PROC within FILT and FB -/

/-- Settles O37: the fields of `procResult_eq`, and the range of the byte. -/
theorem fpProcCompletesWithinFilter : Obligations.FpProcCompletesWithinFilter := by
  intro s bp de hr7
  obtain ⟨hmin, -⟩ := rssiByte_range s.cfg s.filt.cal (rssiOut s.cfg s.filt (entryFrame s))
  rw [congrArg Consts.rssiMin hr7] at hmin
  have hlen : (audioOut s.cfg bp de s.filt (entryFrame s)).length = 160 := by
    rw [length_audioOut, length_entryFrame, frameLen_of_atR7 hr7]
  refine ⟨_, exec_fpProc bp de s, rfl, rfl, rfl, rfl, rfl, rfl, ?_⟩
  rw [procResult_eq]
  refine ⟨rfl, ?_, ?_, hpz_after_frame hr7, hmin, rssi_add_noise _, wf_fbFrom _ ?_, ?_⟩
  · rintro rfl; rfl
  · rintro rfl; rfl
  · rw [List.length_map, hlen]
  · rw [respond_responses, statusWord_codeOk, BitVec.toNat_setWidth_of_le (by decide)]
    rfl

/-! ### Both stages off -/

/-- A canonical list by its first location and the rest of it. -/
theorem exists_fbCons_of_wf {n i : Nat} {m : Memory} (h : fbWfFrom n i m = true) : ∃ rest,
    fbCons i (fbRead m i) rest = m ∧ fbWfFrom n (i + 1) rest = true ∧ ∀ a, i < a → fbRead rest a = fbRead m a := by
  cases m with
  | nil => exact ⟨[], if_pos rfl, rfl, fun _ _ => rfl⟩
  | cons p m =>
    obtain ⟨j, x⟩ := p
    have hwf := h
    simp only [fbWfFrom, Bool.and_eq_true, decide_eq_true_eq] at hwf
    obtain ⟨⟨⟨hlo, hhi⟩, hx⟩, hrest⟩ := hwf
    obtain rfl | hlt := hlo.eq_or_lt
    · refine ⟨m, ?_, hrest, fun a ha => (if_neg ha.ne').symm⟩
      rw [fbRead, if_pos rfl, fbCons, if_neg hx]
    · have hlater : fbWfFrom n (i + 1) ((j, x) :: m) = true := by simp [fbWfFrom, hlt, hhi, hx, hrest]
      exact ⟨_, if_pos (fbRead_below hlater (Nat.lt_succ_self i)), hlater, fun _ _ => rfl⟩

/-- A canonical list read from a location on and written back is that list. -/
theorem fbFrom_map_fbRead {k i : Nat} {m : Memory} (h : fbWfFrom (i + k) i m = true) :
    fbFrom i ((List.range' i k).map (fbRead m)) = m := by
  induction k generalizing i m with
  | zero =>
    cases m with
    | nil => rfl
    | cons p m =>
      simp only [fbWfFrom, Bool.and_eq_true, decide_eq_true_eq] at h
      omega
  | succ k ih =>
    obtain ⟨rest, hcons, hwf, hsame⟩ := exists_fbCons_of_wf h
    have hread : (List.range' (i + 1) k).map (fbRead m) = (List.range' (i + 1) k).map (fbRead rest) :=
      List.map_congr_left fun a ha => (hsame a (List.mem_range'_1.mp ha).1).symm
    rw [List.range'_succ, List.map_cons, fbFrom, hread, ih (by rwa [Nat.add_right_comm]), hcons]

/-- A canonical frame read whole and written back is that frame. -/
theorem fbFrom_fbFrame {n : Nat} {m : Memory} (h : Memory.wf n m = true) : fbFrom 0 (fbFrame n m) = m := by
  rw [fbFrame, List.range_eq_range']
  exact fbFrom_map_fbRead (by rwa [Nat.zero_add])

/-- The exit conversion undoes the entry conversion: every sample is a number within the range of `clip16` (R11). -/
theorem clip16_sampleToF (x : Sample) : clip16 (sampleToF x) = x := by
  have hlo := BitVec.le_toInt x
  have hhi := BitVec.toInt_lt (x := x)
  apply BitVec.eq_of_toInt_eq
  rw [clip16SaturatesAndTruncates, sampleToF, scaled_i2f (by omega), Int.mul_tdiv_cancel _ (by norm_num)]
  omega

/-- Settles O38: the stages pass the frame on, and the two conversions leave it as it is. -/
theorem bothStagesOffKeepTheFrame : Obligations.BothStagesOffKeepTheFrame := by
  intro s hr7 hwf
  have hsame : (entryFrame s).map clip16 = fbFrame 160 s.fb := by
    rw [entryFrame, frameLen_of_atR7 hr7, List.map_map]
    exact List.map_id'' clip16_sampleToF _
  exact ⟨_, exec_fpProc false false s, (congrArg (fbFrom 0) hsame).trans (fbFrom_fbFrame hwf)⟩

/-! ### Later samples do not matter -/

/-- No stage of the audio path looks ahead (R159). -/
theorem audioOut_take (c : Config) (bp de : Bool) (u : Filt) (xs : List F) (k : Nat) :
    (audioOut c bp de u xs).take k = audioOut c bp de u (xs.take k) := by
  have hvoice : voiceOut c bp u (xs.take k) = (voiceOut c bp u xs).take k := by
    cases bp with
    | false => rfl
    | true => exact firRun_take _ xs _ k
  cases de with
  | false => exact hvoice.symm
  | true => exact (hvoice ▸ deEmphRun_take c (voiceOut c bp u xs) u.dey k).symm

theorem entryFrame_take (s : State) (k : Nat) : (entryFrame s).take k
    = (List.range (min k s.cfg.consts.frameLen)).map fun a => sampleToF (fbRead s.fb a) := by
  rw [entryFrame, fbFrame, List.map_map, ← List.map_take, List.take_range, Function.comp_def]

/-- Frames that read the same before location `k` are the same numbers before place `k`. -/
theorem entryFrame_take_congr {s : State} {m : Memory} {k : Nat} (h : ∀ a < k, fbRead m a = fbRead s.fb a) :
    (entryFrame { s with fb := m }).take k = (entryFrame s).take k := by
  simp only [entryFrame_take]
  refine List.map_congr_left fun a ha => ?_
  rw [h a ((List.mem_range.mp ha).trans_le (Nat.min_le_left _ _))]

theorem fbRead_fbFrom_zero (vs : List Sample) (a : Nat) : fbRead (fbFrom 0 vs) a = (vs[a]?).getD fbUnlisted :=
  fbRead_fbFrom vs 0 a (Nat.zero_le a)

/-- Settles O40: up to place `n` both frames are made of the same samples. -/
theorem laterSamplesDoNotMatter : Obligations.LaterSamplesDoNotMatter := by
  intro s m n bp de _ hsame
  have hbefore : (audioOut s.cfg bp de s.filt (entryFrame { s with fb := m })).take (n + 1)
      = (audioOut s.cfg bp de s.filt (entryFrame s)).take (n + 1) := by
    rw [audioOut_take, audioOut_take, entryFrame_take_congr fun a ha => hsame a (Nat.le_of_lt_succ ha)]
  refine ⟨_, _, exec_fpProc bp de s, exec_fpProc bp de { s with fb := m }, fun a ha => ?_⟩
  simp only [respond_fb, fbRead_fbFrom_zero, List.getElem?_map]
  rw [← List.getElem?_take_of_lt (Nat.lt_succ_of_le ha), hbefore, List.getElem?_take_of_lt (Nat.lt_succ_of_le ha)]

/-! ### The frame as written -/

/-- Stated for any function, since two values of `i2f` are costly to compare by computing them. -/
theorem getD_map_range {α : Type} (f : Nat → α) {n m : Nat} (h : n < m) (d : α) :
    ((List.range m).map f).getD n d = f n := by
  simp [h]

/-- The values after the band-pass stage are R151's sums, or the samples themselves (R153). -/
theorem getD_voiceOut {c : Config} {u : Filt} {xs : List F} {n : Nat} (hline : u.bpz.length = c.par.bpTaps.length)
    (hn : n < xs.length) (bp : Bool) : (voiceOut c bp u xs).getD n F.zero
      = if bp then firOutput c.par.bpTaps u.bpz xs n else xs.getD n F.zero := by
  cases bp with
  | false => simp only [voiceOut, Bool.false_eq_true, if_false]
  | true =>
    simp only [voiceOut, if_true]
    rw [firRun_out xs hline, getD_map_range _ hn]

/-- The values after both stages: R154's recursion, or the values after the band-pass stage. -/
theorem getD_audioOut (c : Config) (bp de : Bool) (u : Filt) {xs : List F} {n : Nat} (hn : n < xs.length) :
    (audioOut c bp de u xs).getD n F.zero = if de then
        fadd (fmul c.deAlpha ((voiceOut c bp u xs).getD n F.zero)) (fmul (fsub (i2f 1) c.deAlpha)
          (if n = 0 then u.dey else (audioOut c bp de u xs).getD (n - 1) F.zero))
      else (voiceOut c bp u xs).getD n F.zero := by
  cases de with
  | false => simp only [audioOut, Bool.false_eq_true, if_false]
  | true =>
    simp only [audioOut, if_true]
    rw [deEmphRun_out c _ _ (hn.trans_eq (length_voiceOut c bp u xs).symm), deEmphValue, deBeta]
    cases n with
    | zero => rw [List.getD_cons_zero, if_pos rfl]
    | succ n => rw [List.getD_cons_succ, if_neg n.succ_ne_zero, Nat.add_sub_cancel]

/-- The DEY left by the de-emphasis of a run that is not empty is its last output (R154). -/
theorem deEmphRun_dey_eq_last {c : Config} {vs : List F} {n : Nat} (h : vs.length = n + 1) (dey : F) :
    (deEmphRun c dey vs).2 = (deEmphRun c dey vs).1.getD n F.zero := by
  rw [deEmphRun_dey, h, List.getD_cons_succ]

/-- Settles O42: `v` and `y` are the samples after each stage. -/
theorem fpProcFrameAsWritten : Obligations.FpProcFrameAsWritten := by
  intro s bp de hr7 hline xin
  have hxin : entryFrame s = xin := entryFrame_of_atR7 hr7
  have hlen : xin.length = 160 := by rw [List.length_map, List.length_range]
  have hsample {n : Nat} (hn : n < 160) : xin.getD n F.zero = i2f (fbRead s.fb n).toInt :=
    getD_map_range (fun n => i2f (fbRead s.fb n).toInt) hn F.zero
  refine ⟨_, fun n => (voiceOut s.cfg bp s.filt xin).getD n F.zero,
    fun n => (audioOut s.cfg bp de s.filt xin).getD n F.zero, exec_fpProc bp de s, fun n hn => ?_,
    fun n hn => getD_audioOut s.cfg bp de s.filt (hlen.symm ▸ hn), fun n hn => ?_, ?_⟩
  · exact (getD_voiceOut hline (hlen.symm ▸ hn) bp).trans (by rw [hsample hn])
  · simp [hxin, fbRead_fbFrom_zero, length_audioOut, hlen, hn]
  · rw [procResult_eq, hxin]
    constructor
    · cases bp with
      | false => rfl
      | true => exact firRun_line xin (.inl hline.le)
    · cases de with
      | false => rfl
      | true => exact deEmphRun_dey_eq_last ((length_voiceOut s.cfg bp s.filt xin).trans hlen) s.filt.dey

/-! ### The RSSI byte -/

theorem rssiRaw_eq (c : Config) (cal : BitVec 16) (hs : List F) : rssiRaw c cal hs = fsub (i2f 255)
    (fdiv (fmul (fsqrt (fdiv (sumSquares hs) (i2f c.consts.frameLen))) c.par.rssiScale) (calFactor cal)) := rfl

/-- The clamps and the truncation of R152 on a number, with the constants of R7. -/
theorem ofInt_ftrunc_rssiClamp {c : Config} (h : c.consts = Consts.r7) (v : F) :
    BitVec.ofInt 8 (ftrunc (rssiClamp c v))
      = if flt v (i2f 10) then 10#8 else if flt (i2f 255) v then 255#8 else BitVec.ofInt 8 (ftrunc v) := by
  have hmin : (c.consts.rssiMin : Int) = 10 := congrArg (fun k : Consts => (k.rssiMin : Int)) h
  have hmax : (c.consts.rssiMax : Int) = 255 := congrArg (fun k : Consts => (k.rssiMax : Int)) h
  have htrunc {n : Int} (hn : n.natAbs ≤ 2 ^ 24) : ftrunc (i2f n) = n := by
    rw [ftrunc_eq_tdiv, scaled_i2f hn, Int.mul_tdiv_cancel _ (by norm_num)]
  have hbetween : flt (i2f 255) (i2f 10) = false := by
    rw [flt_eq_false, scaled_i2f (by decide), scaled_i2f (by decide)]
    decide
  rw [rssiClamp, hmin, hmax]
  by_cases hlow : flt v (i2f 10) = true
  · simp only [hlow, if_true, hbetween, Bool.false_eq_true, if_false]
    rw [htrunc (by decide)]
    rfl
  · simp only [hlow, Bool.false_eq_true, if_false]
    split
    · rw [htrunc (by decide)]
      rfl
    · rfl

/-- Settles O43: the outputs of the RSSI filter are R151's sums, and the byte is their mapping. -/
theorem fpProcRssiAsWritten : Obligations.FpProcRssiAsWritten := by
  intro s bp de hr7 hhpz xin ss rms calf v
  have hxin : entryFrame s = xin := entryFrame_of_atR7 hr7
  have hlen : xin.length = 160 := by rw [List.length_map, List.length_range]
  have hsum : sumSquares (rssiOut s.cfg s.filt xin) = ss := by
    rw [rssiOut, firRun_out xin hhpz, hlen, sumSquares, List.foldl_map]
  have hraw : rssiRaw s.cfg s.filt.cal (rssiOut s.cfg s.filt xin) = v := by
    rw [rssiRaw_eq, hsum, calFactor, frameLen_of_atR7 hr7, Nat.cast_ofNat]
  refine ⟨_, exec_fpProc bp de s, ?_⟩
  rw [procResult_eq]
  refine ⟨?_, ?_, hpz_after_frame hr7⟩
  · rw [← ofInt_ftrunc_rssiClamp hr7, ← hraw, ← hxin]
    rfl
  · exact Nat.eq_sub_of_add_eq' (rssi_add_noise _)

/-! ### Zeros -/

theorem scaled_eq_zero_iff {a : F} : a.scaled = 0 ↔ a.units = 0 := by rw [← natAbs_scaled, Int.natAbs_eq_zero]

theorem roundRatio_zero {d : Nat} (hd : 0 < d) : roundRatio 0 d = 0 := roundRatio_exact (k := 0) hd

theorem units_packMag_zero (neg : Bool) (other : F) : (packMag neg 0 other).units = 0 := rfl

theorem units_fadd_of_zeros {a b : F} (ha : a.units = 0) (hb : b.units = 0) : (fadd a b).units = 0 := by
  rw [← scaled_eq_zero_iff] at ha hb ⊢
  exact (fadd_exact (c := F.zero) (by rw [ha, hb]; rfl)).trans scaled_zero

theorem scaled_fsub_of_zero {a b : F} (hb : b.units = 0) : (fsub a b).scaled = a.scaled :=
  fadd_exact (by rw [scaled_fneg, scaled_eq_zero_iff.mpr hb, neg_zero, add_zero])

theorem units_fmul_of_zero {a b : F} (h : a.units = 0 ∨ b.units = 0) : (fmul a b).units = 0 := by
  rw [fmul, Nat.mul_eq_zero.mpr h, roundRatio_zero (Nat.two_pow_pos _), units_packMag_zero]

theorem units_fdiv_of_zero {a b : F} (ha : a.units = 0) (hb : b.units ≠ 0) : (fdiv a b).units = 0 := by
  rw [fdiv, if_neg hb, ha, Nat.zero_mul, roundRatio_zero (Nat.pos_of_ne_zero hb), units_packMag_zero]

theorem units_fsqrt_of_zero {a : F} (ha : a.units = 0) : (fsqrt a).units = 0 := by rw [fsqrt, if_pos ha, ha]

/-- A sum of zeros from a zero on, in any number of terms. -/
theorem units_foldl_fadd_of_zeros {α : Type} {f : α → F} {l : List α} (h : ∀ x ∈ l, (f x).units = 0) :
    (l.foldl (fun a x => fadd a (f x)) F.zero).units = 0 :=
  List.foldlRecOn (motive := fun a : F => a.units = 0) l _ rfl fun _ ha x hx => units_fadd_of_zeros ha (h x hx)

theorem allZero_take_append {as bs : List F} (has : allZero as) (hbs : allZero bs) (k : Nat) :
    allZero ((as.reverse ++ bs).take k) := fun z hz =>
  (List.mem_append.mp (List.mem_of_mem_take hz)).elim (fun h => has z (List.mem_reverse.mp h)) (hbs z)

theorem allZero_firShift {z : List F} (hz : allZero z) {x : F} (hx : x.units = 0) (taps : List F) :
    allZero (firShift taps z x) := fun y hy =>
  (List.mem_cons.mp (List.mem_of_mem_take hy)).elim (fun h => h ▸ hx) (hz y)

/-- The FIR primitive answers zeros to zeros, and leaves zeros in a delay line of zeros. -/
theorem allZero_firRun (taps : List F) {xs z : List F} (hxs : allZero xs) (hz : allZero z) :
    allZero (firRun taps z xs).1 ∧ allZero (firRun taps z xs).2 := by
  induction xs generalizing z with
  | nil => exact ⟨nofun, hz⟩
  | cons x xs ih =>
    obtain ⟨hx, hxs⟩ := List.forall_mem_cons.mp hxs
    have hline := allZero_firShift hz hx taps
    have hsum : (firSum taps (firShift taps z x)).units = 0 :=
      units_foldl_fadd_of_zeros fun p hp => units_fmul_of_zero (.inr (hline p.2 (List.of_mem_zip hp).2))
    obtain ⟨hout, hleft⟩ := ih hxs hline
    exact ⟨List.forall_mem_cons.mpr ⟨hsum, hout⟩, hleft⟩

/-- The de-emphasis answers zeros to zeros, and leaves DEY a zero. -/
theorem allZero_deEmphRun (c : Config) {vs : List F} {dey : F} (hvs : allZero vs) (hdey : dey.units = 0) :
    allZero (deEmphRun c dey vs).1 ∧ (deEmphRun c dey vs).2.units = 0 := by
  induction vs generalizing dey with
  | nil => exact ⟨nofun, hdey⟩
  | cons v vs ih =>
    obtain ⟨hv, hvs⟩ := List.forall_mem_cons.mp hvs
    have hval : (deEmphValue c dey v).units = 0 :=
      units_fadd_of_zeros (units_fmul_of_zero (.inr hv)) (units_fmul_of_zero (.inr hdey))
    obtain ⟨hout, hleft⟩ := ih hvs hval
    exact ⟨List.forall_mem_cons.mpr ⟨hval, hout⟩, hleft⟩

/-! ### Silence -/

theorem units_i2f {n : Nat} (h : n ≤ 2 ^ 24) : (i2f n).units = n * 2 ^ 149 := by
  rw [← natAbs_scaled, scaled_i2f (by rwa [Int.natAbs_natCast]), Int.natAbs_mul, Int.natAbs_natCast, Int.natAbs_pow]
  rfl

/-- A legal calibration factor is no zero (R45, R152). -/
theorem units_calFactor_ne_zero {cal : BitVec 16} (h : 0x0100 ≤ cal.toNat) : (calFactor cal).units ≠ 0 := by
  have hcal := cal.isLt
  have h256 : (i2f 256).units = 256 * 2 ^ 149 := units_i2f (n := 256) (by decide)
  obtain ⟨hlt, hpack⟩ := packMag_finite (n := cal.toNat * 2 ^ 149 * 2 ^ 149) (d := 256 * 2 ^ 149) (by positivity)
    (by rw [maxUnits_eq]; omega) ((i2f cal.toNat).neg ^^ (i2f 256).neg) (Config.unstated .div (i2f cal.toNat) (i2f 256))
  have hone : 1 ≤ roundRatio (cal.toNat * 2 ^ 149 * 2 ^ 149) (256 * 2 ^ 149) :=
    le_roundRatio (by positivity) (by rw [show patternUnits 1 = 1 from rfl]; omega)
  rw [calFactor, fdiv, h256, if_neg (by positivity), units_i2f (by omega), hpack, units_eq_patternUnits]
  exact ((patternUnits_lt (j := 0)).mpr hone).ne'

/-- With the outputs of the RSSI filter all zero the byte is 255 (R158). -/
theorem rssiByte_of_silence {c : Config} (h : c.consts = Consts.r7) {cal : BitVec 16} (hcal : 0x0100 ≤ cal.toNat)
    {hs : List F} (hhs : allZero hs) : rssiByte c cal hs = 255#8 := by
  have hsum : (sumSquares hs).units = 0 := units_foldl_fadd_of_zeros fun x hx => units_fmul_of_zero (.inl (hhs x hx))
  have hlen : (i2f c.consts.frameLen).units ≠ 0 := by
    rw [congrArg Consts.frameLen h, units_i2f (by decide)]
    decide
  have hrms : (fsqrt (fdiv (sumSquares hs) (i2f c.consts.frameLen))).units = 0 :=
    units_fsqrt_of_zero (units_fdiv_of_zero hsum hlen)
  have hquot := units_fdiv_of_zero (units_fmul_of_zero (b := c.par.rssiScale) (.inl hrms)) (units_calFactor_ne_zero hcal)
  have hraw : (rssiRaw c cal hs).scaled = 255 * 2 ^ 149 := by
    rw [rssiRaw_eq, scaled_fsub_of_zero hquot, scaled_i2f (by decide)]
  rw [rssiByte, ofInt_ftrunc_rssiClamp h, if_neg, if_neg, ftrunc_eq_tdiv, hraw]
  · decide
  · rw [flt_eq_true, hraw, scaled_i2f (by decide)]
    decide
  · rw [flt_eq_true, hraw, scaled_i2f (by decide)]
    decide

/-- A frame of zeros is the empty list of locations. -/
theorem fbFrom_eq_nil {vs : List Sample} (h : ∀ v ∈ vs, v = fbUnlisted) (i : Nat) : fbFrom i vs = [] := by
  induction vs generalizing i with
  | nil => rfl
  | cons v vs ih =>
    obtain ⟨hv, hvs⟩ := List.forall_mem_cons.mp h
    rw [fbFrom, fbCons, if_pos hv, ih hvs]

theorem sampleToF_unlisted : sampleToF fbUnlisted = F.zero := i2f_zero

theorem clip16_of_zero {a : F} (h : a.units = 0) : clip16 a = fbUnlisted := by
  rw [clip16_congr ((scaled_eq_zero_iff.mpr h).trans scaled_zero.symm), ← sampleToF_unlisted, clip16_sampleToF]

theorem allZero_entryFrame {s : State} (h : s.fb = []) : allZero (entryFrame s) := by
  intro z hz
  rw [entryFrame, fbFrame, h, List.map_map] at hz
  obtain ⟨_, -, rfl⟩ := List.mem_map.mp hz
  rw [Function.comp_apply, fbRead, sampleToF_unlisted]
  rfl

/-- Settles O39: every stage takes zeros to zeros, and the byte of silence is 255. -/
theorem silenceGivesFullRssi : Obligations.SilenceGivesFullRssi := by
  intro s bp de hr7 hfb hhpz hbpz hdey hcal
  have hxin := allZero_entryFrame hfb
  obtain ⟨hhs, hhpz'⟩ := allZero_firRun s.cfg.par.hpTaps hxin hhpz
  obtain ⟨hband, hbpz'⟩ := allZero_firRun s.cfg.par.bpTaps hxin hbpz
  have hvoice : allZero (voiceOut s.cfg bp s.filt (entryFrame s)) := by
    cases bp with
    | false => exact hxin
    | true => exact hband
  obtain ⟨hdeOut, hdey'⟩ := allZero_deEmphRun s.cfg hvoice hdey
  have haudio : allZero (audioOut s.cfg bp de s.filt (entryFrame s)) := by
    cases de with
    | false => exact hvoice
    | true => exact hdeOut
  have hrssi := rssiByte_of_silence hr7 hcal hhs
  refine ⟨_, exec_fpProc bp de s, fbFrom_eq_nil ?_ 0, ?_⟩
  · exact List.forall_mem_map.mpr fun v hv => clip16_of_zero (haudio v hv)
  · rw [procResult_eq]
    refine ⟨hrssi, congrArg (255#8 - ·) hrssi, hhpz', ?_, ?_⟩
    · cases bp with
      | false => exact hbpz
      | true => exact hbpz'
    · cases de with
      | false => exact hdey
      | true => exact hdey'

/-! ### FP.RESET -/

/-- Settles O44: the record of FILT written out, and the status word. -/
theorem fpResetReachesFiltersOnly : Obligations.FpResetReachesFiltersOnly := fun _ => rfl

end Sys2Proof.Machine
end

section
/-!
NOP and the frame buffer's commands (spec/44_system_and_frame_buffer.md R170, R174, R175). Each of FB.RD and FB.WR has
one rule for an index that names a location and one for an index that names none; what a write does to the locations is
said by `fbRead_fbWrite_same`, `fbRead_fbWrite_other` and `wf_fbWrite`.
-/

namespace Sys2Proof.Machine

/-! ### NOP -/

/-- Settles O22: the status word of NOP is the word 0. -/
theorem nopChangesNothing : Obligations.NopChangesNothing := fun _ => rfl

/-! ### FB.RD -/

theorem exec_fbRd_of_lt {idx : BitVec 8} {s : State} (h : idx.toNat < s.cfg.consts.frameLen) :
    exec (.fbRd idx) s = .next (s.sends [statusWord 0x20#8 codeOk (fbRead s.fb idx.toNat)]) :=
  congrArg Host.Outcome.next (if_pos h)

theorem exec_fbRd_of_le {idx : BitVec 8} {s : State} (h : s.cfg.consts.frameLen ≤ idx.toNat) :
    exec (.fbRd idx) s = .next (reportError 0x20#8 .eIdx s) := congrArg Host.Outcome.next (if_neg (not_lt.mpr h))

/-- Settles O27: the two branches of FB.RD at a frame length of 160. -/
theorem fbRdAnswersSample : Obligations.FbRdAnswersSample := by
  intro s idx hr7
  have hlen := frameLen_of_atR7 hr7
  constructor
  · intro hidx
    rw [exec_fbRd_of_lt (by omega), statusWord_codeOk]
    rfl
  · intro hidx
    rw [exec_fbRd_of_le (hlen.trans_le hidx)]
    rfl

/-! ### FB.WR -/

theorem exec_fbWr_of_lt {idx : BitVec 8} {s : State} (h : idx.toNat < s.cfg.consts.frameLen) (d : Sample) :
    exec (.fbWr idx d) s = .next { s with
      fb := fbWrite s.fb idx.toNat d, responses := s.responses ++ [0x21000000#32] } :=
  congrArg Host.Outcome.next (if_pos h)

theorem exec_fbWr_of_le {idx : BitVec 8} {s : State} (h : s.cfg.consts.frameLen ≤ idx.toNat) (d : Sample) :
    exec (.fbWr idx d) s = .next (reportError 0x21#8 .eIdx s) := congrArg Host.Outcome.next (if_neg (not_lt.mpr h))

/-- Settles O28: the two branches of FB.WR at a frame length of 160, and the laws of a write to a canonical FB. -/
theorem fbWrStoresOneSample : Obligations.FbWrStoresOneSample := by
  intro s idx d hr7 hwf
  have hlen := frameLen_of_atR7 hr7
  constructor
  · intro hidx
    exact ⟨fbWrite s.fb idx.toNat d, exec_fbWr_of_lt (by omega) d, fbRead_fbWrite_same _ d hwf,
      fbRead_fbWrite_other s.fb _ d, wf_fbWrite _ d hwf (by omega)⟩
  · intro hidx
    rw [exec_fbWr_of_le (hlen.trans_le hidx)]
    rfl

end Sys2Proof.Machine
end

section
/-!
No command stops the block (spec/60_exceptions.md R190, R205). Thirteen commands answer from every state; RS.PUSH
answers unless its loop has no end, and that asks for a negative POS (log 8).
-/

namespace Sys2Proof.Machine

/-- Every command but RS.PUSH answers a next state from every state: an error is a response too (R190). -/
theorem exec_answers_of_ne_rsPush {i : Instr} (hi : ∀ xs : List Sample, i ≠ .rsPush xs) (s : State) :
    ∃ t, exec i s = .next t := by
  cases i with
  | rsPush xs => exact absurd rfl (hi xs)
  | nop => exact ⟨_, rfl⟩
  | rdcsr csr => exact ⟨rdcsrStep csr s, rfl⟩
  | wrcsr csr d => exact ⟨wrcsrStep csr d s, rfl⟩
  | rsPop => exact ⟨rsPopStep s, rfl⟩
  | rsReset => exact ⟨rsResetStep s, rfl⟩
  | fbRd idx => exact ⟨fbRdStep idx s, rfl⟩
  | fbWr idx d => exact ⟨fbWrStep idx d s, rfl⟩
  | fpProc bp de => exact ⟨fpProcStep bp de s, rfl⟩
  | fpReset => exact ⟨fpResetStep s, rfl⟩
  | ckNow => exact ⟨_, rfl⟩
  | ckLocked => exact ⟨_, rfl⟩
  | ckJitter => exact ⟨_, rfl⟩
  | ckFix epoch => exact ⟨ckFixStep epoch s, rfl⟩

/-- RS.PUSH answers a next state, or it faults from a negative POS (R131, log 8). -/
theorem exec_rsPush_answers_or_faults (xs : List Sample) (s : State) :
    (∃ t, exec (.rsPush xs) s = .next t)
      ∨ exec (.rsPush xs) s = .fault .interpolationNeverEnds ∧ ¬ s.rsmp.PosOk := by
  by_cases hpos : s.rsmp.PosOk
  · exact .inl ⟨_, exec_rsPush_of_posOk (.inl hpos)⟩
  · obtain ⟨-, hfault⟩ | ⟨-, hnext⟩ := execRsPush_cases xs s
    · exact .inr ⟨hfault, hpos⟩
    · exact .inl ⟨_, hnext⟩

/-- Settles O60: the command is an RS.PUSH, or one that answers from every state. -/
theorem noCommandStopsTheBlock : Obligations.NoCommandStopsTheBlock := by
  intro i s
  by_cases hi : ∃ xs : List Sample, i = .rsPush xs
  · obtain ⟨xs, rfl⟩ := hi
    obtain hnext | ⟨hfault, hpos⟩ := exec_rsPush_answers_or_faults xs s
    · exact .inl hnext
    · exact .inr ⟨hfault, hpos, xs, rfl⟩
  · exact .inl (exec_answers_of_ne_rsPush (not_exists.mp hi) s)

end Sys2Proof.Machine
end

section
/-!
The hardware reset (spec/70_reset_and_hazards.md R220): R50's table at the constants of R7, in every state.
-/

namespace Sys2Proof.Machine

theorem step_hwReset {s : State} {rest : List Input} (h : s.inputs = .hwReset :: rest) :
    step s = .next (hardwareReset { s with inputs := rest }) := by
  rw [step, h]

/-- R50's row of CLK: IVAL starts at SEC_US, 1,000,000. -/
theorem clk_atReset_of_r7 {c : Config} (hc : c.consts = Consts.r7) :
    Clk.atReset c = { mono := 0#64, secs := 0#32, lastp := 0#64, ival := 1000000#64,
                      haveFix := false, pulseSeen := false, ivalValid := false } := by
  rw [Clk.atReset, hc]
  rfl

/-- R50's row of FILT: CAL starts at CAL_MIN, 0x0100. -/
theorem filt_atReset_of_r7 {c : Config} (hc : c.consts = Consts.r7) :
    Filt.atReset c = { hpz := List.replicate c.par.hpTaps.length F.zero,
                       bpz := List.replicate c.par.bpTaps.length F.zero,
                       dey := F.zero, rssi := 0#8, noise := 255#8, cal := 0x0100#16 } := by
  rw [Filt.atReset, hc]
  rfl

/-- Settles O13: a constant of R7 stands in the table for CLK and for FILT alone. -/
theorem hardwareResetPutsEveryValue : Obligations.HardwareResetPutsEveryValue := by
  intro s rest hr7 hin
  rw [step_hwReset hin, hardwareReset, State.atReset, clk_atReset_of_r7 hr7, filt_atReset_of_r7 hr7]
  rfl

end Sys2Proof.Machine
end
